-- ==== Sys2Proof/Word.lean ====
section
/-! DEFINITION. The widths of the block's data paths (00_scope.md R9) and the four alphabet names (R2). -/

namespace Sys2Proof

/-- A command word or a response word: 16 bits (R9, R70, R76). -/
abbrev Word := BitVec 16

/-- An input byte, a symbol character on a port, or a decoded byte: 8 bits (R9). -/
abbrev Byte := BitVec 8

/-- A decode slot register: 7 bits (R28). -/
abbrev Slot := BitVec 7

/-- The four alphabets of the block (R2), which the two bits ASEL select (R74).
There is no fifth value: every value of ASEL is legal. -/
inductive Asel where
  | base64
  | base64url
  | base32
  | base32hex
deriving DecidableEq, Repr

end Sys2Proof
end

