-- ==== Sys2Proof/Syntax.lean ====
section
/-! DEFINITION. The seven commands of the block, one constructor per row of the opcode map (30_encoding.md R80). -/

namespace Sys2Proof

/-- A command. An operand has exactly the values its field admits (R74: all four alphabets; R75: every octet),
so each term is an instruction the block accepts. -/
inductive Instr where
  /-- ENC_INIT: start an encoder session with an alphabet (R121). -/
  | encInit (asel : Asel)
  /-- ENC_PUT: one byte to encode (R133). -/
  | encPut (b : Byte)
  /-- ENC_FINAL: emit the last partial group with its padding and flush the sink (R134). -/
  | encFinal
  /-- DEC_INIT: start a decoder session with an alphabet (R151). -/
  | decInit (asel : Asel)
  /-- DEC_NEXT: the next decoded byte, or the end of data (R160). -/
  | decNext
  /-- LUT_SYM: the symbol of an index (R107). -/
  | lutSym (asel : Asel) (v : Byte)
  /-- LUT_VAL: the index of a character (R108). -/
  | lutVal (asel : Asel) (c : Byte)
deriving DecidableEq, Repr

end Sys2Proof
end

