-- ==== Sys2Proof/WellFormed.lean ====
section
/-! DEFINITION. Which 16-bit words are well-formed commands, by the masks of the opcode map (30_encoding.md R80, R82).
It is written from the table alone; Decode.lean is written from the decode procedure R84, and the two must agree. -/

namespace Sys2Proof

/-- A row of the opcode map: a word selects it when (word and mask) = pattern (R80). -/
structure OpcodeRow where
  mask : Word
  pattern : Word
deriving DecidableEq, Repr

/-- The opcode map (R80), in the table's order. -/
def opcodeRows : List OpcodeRow :=
  [⟨0xF3FF, 0x1000⟩, ⟨0xFF00, 0x2000⟩, ⟨0xFFFF, 0x3000⟩, ⟨0xF3FF, 0x4000⟩,
   ⟨0xFFFF, 0x5000⟩, ⟨0xF300, 0x6000⟩, ⟨0xF300, 0x7000⟩]

/-- The row a word selects (R80). -/
def OpcodeRow.selects (r : OpcodeRow) (w : Word) : Bool := w &&& r.mask == r.pattern

/-- A word is a well-formed command when it selects some row: OP assigned, RSV zero, and every field the
opcode map marks "0" zero (R82 denied). -/
def wellFormedWord (w : Word) : Bool := opcodeRows.any (·.selects w)

/-- The row of the opcode map that stands for a command (R80). -/
def Instr.row : Instr → OpcodeRow
  | .encInit _ => ⟨0xF3FF, 0x1000⟩
  | .encPut _ => ⟨0xFF00, 0x2000⟩
  | .encFinal => ⟨0xFFFF, 0x3000⟩
  | .decInit _ => ⟨0xF3FF, 0x4000⟩
  | .decNext => ⟨0xFFFF, 0x5000⟩
  | .lutSym _ _ => ⟨0xF300, 0x6000⟩
  | .lutVal _ _ => ⟨0xF300, 0x7000⟩

end Sys2Proof
end

