-- ==== Sys2Proof/Decode.lean ====
section
/-! DEFINITION. Decoding a command word, total on every 16-bit word (30_encoding.md R84), and encoding one (R70, R80).
A command is one 16-bit word on the command channel, never bytes in a memory (R63), so no byte order enters. -/

namespace Sys2Proof

/-- The two bits ASEL of an alphabet (R74). -/
def Asel.code : Asel → BitVec 2
  | .base64 => 0
  | .base64url => 1
  | .base32 => 2
  | .base32hex => 3

/-- The alphabet that two bits ASEL select; all four values are legal (R74). -/
def Asel.ofCode (c : BitVec 2) : Asel :=
  match c.toNat with
  | 0 => .base64
  | 1 => .base64url
  | 2 => .base32
  | _ => .base32hex

/-- OP = cmd[15:12] (R71). -/
def opField (cmd : Word) : BitVec 4 := cmd.extractLsb' 12 4

/-- ASEL = cmd[11:10] (R72). -/
def aselField (cmd : Word) : BitVec 2 := cmd.extractLsb' 10 2

/-- RSV = cmd[9:8] (R73). -/
def rsvField (cmd : Word) : BitVec 2 := cmd.extractLsb' 8 2

/-- DATA = cmd[7:0] (R75). -/
def dataField (cmd : Word) : Byte := cmd.extractLsb' 0 8

/-- Why a word is ILLEGAL (R82): case (b), case (a), case (c). -/
inductive Illegal where
  | reservedBits
  | reservedOpcode
  | nonzeroUnusedField
deriving DecidableEq, Repr

/-- An instruction when the fields that must be zero are zero, else the rejection R82 (c). -/
def requireZero (zero : Bool) (i : Instr) : Except Illegal Instr :=
  if zero then .ok i else .error .nonzeroUnusedField

/-- The decode procedure of R84. -/
def decode (cmd : Word) : Except Illegal Instr :=
  let asel := aselField cmd
  let d := dataField cmd
  if rsvField cmd != 0 then .error .reservedBits
  else
    match (opField cmd).toNat with
    | 1 => requireZero (d == 0) (.encInit (Asel.ofCode asel))
    | 2 => requireZero (asel == 0) (.encPut d)
    | 3 => requireZero (asel == 0 && d == 0) .encFinal
    | 4 => requireZero (d == 0) (.decInit (Asel.ofCode asel))
    | 5 => requireZero (asel == 0 && d == 0) .decNext
    | 6 => .ok (.lutSym (Asel.ofCode asel) d)
    | 7 => .ok (.lutVal (Asel.ofCode asel) d)
    | _ => .error .reservedOpcode

/-- A command word from its fields, RSV zero (R70, R73). -/
def commandWord (op : BitVec 4) (asel : BitVec 2) (data : Byte) : Word :=
  op ++ asel ++ 0#2 ++ data

/-- The word of a command (R80, R81). -/
def encode : Instr → Word
  | .encInit a => commandWord 1 a.code 0
  | .encPut b => commandWord 2 0 b
  | .encFinal => commandWord 3 0 0
  | .decInit a => commandWord 4 a.code 0
  | .decNext => commandWord 5 0 0
  | .lutSym a v => commandWord 6 a.code v
  | .lutVal a c => commandWord 7 a.code c

/-- The 16-bit word whose low `nbits` bits are those of `w`, every bit above them zero. -/
def tableWord (nbits w : Nat) : Word := BitVec.ofNat 16 (w % 2 ^ nbits)

/-- The instruction the decoder reads from a word numbered as the opcode table numbers it. -/
def decodeTableWord (nbits w : Nat) : Option Instr :=
  match decode (tableWord nbits w) with
  | .ok i => some i
  | .error _ => none

end Sys2Proof
end

