-- ==== Sys2Proof/Machine/State.lean ====
section
/-! DEFINITION. Everything the block holds (10_state.md), the host's inputs and what the host has observed, as plain
data; the reasons for which a step can stop; the state after reset. -/

namespace Sys2Proof.Machine

/-- An engine's session mode, 2 bits with the value 3 never held (R22, R26). -/
inductive Mode where
  | off
  | ready
  | failed
deriving DecidableEq, Repr

/-- SEQ_PHASE, 2 bits (R33). -/
inductive Phase where
  | idle
  | encEmit
  | encFlush
  | decFill
deriving DecidableEq, Repr

/-- The two engines of the block (R20). -/
inductive Engine where
  | encoder
  | decoder
deriving DecidableEq, Repr

/-- The host's answer to `SnkWrite` and `SnkFlush` (R51). -/
inductive SinkAnswer where
  | ack
  | err
deriving DecidableEq, Repr

/-- The host's answer to `SrcRead` (R51). -/
inductive SourceAnswer where
  | chr (c : Byte)
  | endOfInput
  | err
deriving DecidableEq, Repr

/-- A request the block has outstanding on a port (R13, R51). -/
inductive PortRequest where
  | sinkWrite (c : Byte)
  | sinkFlush
  | sourceRead
deriving DecidableEq, Repr

/-- What the host does at one step (R235).
`serve`: what the block waits for, a command in IDLE or the answer to the outstanding request, taken from the
host's lists. `reset`: assert hardware reset (R230). `lateAnswer`: answer a request that a reset has withdrawn
(R231). `present`: present a word without waiting for IDLE (R237). -/
inductive HostMove where
  | serve
  | reset
  | lateAnswer
  | present (w : Word)
deriving DecidableEq, Repr

/-- What the host observes (R242): a response word, or a port transaction with its answer. -/
inductive Event where
  | response (r : Word)
  | sinkWrite (c : Byte) (a : SinkAnswer)
  | sinkFlush (a : SinkAnswer)
  | sourceRead (a : SourceAnswer)
deriving DecidableEq, Repr

/-- The encoder's registers (R22 to R25). -/
structure EncoderRegs where
  /-- ENC_MODE (R22). -/
  mode : Mode
  /-- ENC_ASEL (R23). -/
  asel : Asel
  /-- ENC_GRP[0..4] (R24). -/
  grp : Vector Byte 5
  /-- ENC_CNT (R25). -/
  cnt : BitVec 3
deriving DecidableEq, Repr

/-- The decoder's registers (R26 to R32). -/
structure DecoderRegs where
  /-- DEC_MODE (R26). -/
  mode : Mode
  /-- DEC_ASEL (R27). -/
  asel : Asel
  /-- DEC_SLOT[0..7] (R28, R31). -/
  slot : Vector Slot 8
  /-- DEC_SCNT (R29). -/
  scnt : BitVec 4
  /-- DEC_OBUF[0..4] (R30). -/
  obuf : Vector Byte 5
  /-- DEC_OLEN (R30). -/
  olen : BitVec 3
  /-- DEC_OPOS (R30). -/
  opos : BitVec 3
  /-- DEC_EOF (R32). -/
  eof : Bool
deriving DecidableEq, Repr

/-- The sequencer's registers (R33 to R35). -/
structure SequencerRegs where
  /-- SEQ_PHASE (R33). -/
  phase : Phase
  /-- SEQ_EMITQ, head first (R34). -/
  emitq : List Byte
  /-- SEQ_FLUSH (R35). -/
  flush : Bool
deriving DecidableEq, Repr

/-- The block's channels: the inputs still to come (R21) and what the host has observed so far (R242).
These are the model's own fields (log 1, 2, 7, 10, 16). -/
structure Channels where
  /-- The command words the host will present, each in IDLE (R51). -/
  commands : List Word
  /-- The host's answers to the sink requests to come (R51). -/
  sinkAnswers : List SinkAnswer
  /-- The host's answers to the source requests to come (R51). -/
  sourceAnswers : List SourceAnswer
  /-- What the host answers, over and over for ever, once `sourceAnswers` is used up: so a source may be unending
  (R239, log 16). Empty: it answers no source request any more. -/
  sourceRepeat : List SourceAnswer
  /-- What the host does at the steps to come; `serve` at every step past its end. -/
  schedule : List HostMove
  /-- How many requests withdrawn by a reset the host has not answered yet (R231). -/
  withdrawn : Nat
  /-- Everything observed so far, oldest first (R242, R59). -/
  trace : List Event
deriving DecidableEq, Repr

/-- The state of the block and of its channels. -/
structure State where
  enc : EncoderRegs
  dec : DecoderRegs
  seq : SequencerRegs
  io : Channels
deriving DecidableEq, Repr

/-- Why a step has no next state. None of these is an error of the block, which reports its errors by responses
(R201); each is safe, because the model stops where it might go on. -/
inductive Fault where
  /-- Raised by the step in IDLE when the host presents no further command: the run has ended (R242). Safe. -/
  | runEnded
  /-- Raised by an emission or flush step whose request the host never answers: the block is stuck (R238). Safe. -/
  | noSinkAnswer
  /-- Raised by a fill step whose `SrcRead` the host never answers: the block is stuck (R238). Safe. -/
  | noSourceAnswer
  /-- Raised by the step when the host presents a word outside IDLE: not defined, no step (R237). Safe. -/
  | commandWhileBusy
  /-- Raised by the step when the host answers a request the block never made or that is answered already: the
  host breaks its duty to answer exactly once (R236). Safe. -/
  | answerWithoutRequest
  /-- Raised by an emission step with SEQ_EMITQ empty, which is not enabled (R135); no run reaches it. Safe. -/
  | emitQueueEmpty
  /-- Raised by ENC_PUT, ENC_FINAL, DEC_NEXT and a fill step when a counter register has a value its rule never
  gives it and the rule would name a register that does not exist (R25, R29, R30); no run reaches it. Safe. -/
  | counterOutOfRange
deriving DecidableEq, Repr

/-- Why an instruction has no meaning in the model. -/
inductive Refusal where
  /-- Raised by exec for an instruction whose meaning is not written yet; no arm raises it now. Safe. -/
  | notModelled (mnemonic : String)
deriving DecidableEq, Repr

/-- The outcome of a step of this machine. -/
abbrev Outcome := Host.Outcome State Fault Refusal

/-- The state after hardware reset (R230): every register at the reset value of its rule (R22 to R35), and
channels in which the host has done nothing yet (log 1). -/
def State.reset : State where
  enc := { mode := .off, asel := .base64, grp := #v[0, 0, 0, 0, 0], cnt := 0 }
  dec := { mode := .off, asel := .base64, slot := #v[0, 0, 0, 0, 0, 0, 0, 0], scnt := 0,
           obuf := #v[0, 0, 0, 0, 0], olen := 0, opos := 0, eof := false }
  seq := { phase := .idle, emitq := [], flush := false }
  io := { commands := [], sinkAnswers := [], sourceAnswers := [], sourceRepeat := [],
          schedule := [], withdrawn := 0, trace := [] }

end Sys2Proof.Machine
end

