-- ==== Sys2Proof/Machine/Flags.lean ====
section
/-! DEFINITION. The response word: its STATUS, INFO and DATA fields (30_encoding.md R76 to R79, 60_exceptions.md R201). The block
has no other condition code (10_state.md R38): DEC_EOF and the two modes are registers of State. -/

namespace Sys2Proof.Machine

/-- The four causes of MALFORMED (R78). -/
inductive Cause where
  | truncated
  | earlyPad
  | padThenSymbol
  | badCount
deriving DecidableEq, Repr

/-- Where an IOERR came from (R78). -/
inductive IoPlace where
  | source
  | sinkWrite
  | sinkFlush
deriving DecidableEq, Repr

/-- The outcomes of a command (R77). -/
inductive Response where
  | ok
  | data (b : Byte)
  | eod
  | malformed (c : Cause)
  | ioerr (p : IoPlace)
  | notFound
  | range
  | illegal
  | unusable (m : Mode)
deriving DecidableEq, Repr

/-- The code of a mode (R22, R26). -/
def Mode.code : Mode → BitVec 2
  | .off => 0
  | .ready => 1
  | .failed => 2

/-- The code of SEQ_PHASE (R33). -/
def Phase.code : Phase → BitVec 2
  | .idle => 0
  | .encEmit => 1
  | .encFlush => 2
  | .decFill => 3

/-- INFO of MALFORMED (R78). -/
def Cause.code : Cause → BitVec 4
  | .truncated => 1
  | .earlyPad => 2
  | .padThenSymbol => 3
  | .badCount => 4

/-- INFO of IOERR (R78). -/
def IoPlace.code : IoPlace → BitVec 4
  | .source => 1
  | .sinkWrite => 2
  | .sinkFlush => 3

/-- STATUS (R77). -/
def Response.status : Response → BitVec 4
  | .ok => 0
  | .data _ => 1
  | .eod => 2
  | .malformed _ => 3
  | .ioerr _ => 4
  | .notFound => 5
  | .range => 6
  | .illegal => 7
  | .unusable _ => 8

/-- INFO, 0 unless the rule of the STATUS gives a sub-code (R78). -/
def Response.info : Response → BitVec 4
  | .malformed c => c.code
  | .ioerr p => p.code
  | .unusable m => m.code.setWidth 4
  | _ => 0

/-- DATA, 0 unless STATUS = DATA (R79). -/
def Response.dataField : Response → Byte
  | .data b => b
  | _ => 0

/-- The response word STATUS[15:12] INFO[11:8] DATA[7:0] (R76). -/
def Response.word (r : Response) : Word := r.status ++ r.info ++ r.dataField

end Sys2Proof.Machine
end

