-- ==== Sys2Proof/Machine/Operands.lean ====
section
/-! DEFINITION. What the ASEL operand fixes: the family constants (00_scope.md R4, R8), and the four alphabet tables
with their two lookups and the decoder's classification (40_alphabet.md R100 to R106). -/

namespace Sys2Proof.Machine

/-- The two packing ratios (R4). -/
inductive Family where
  | byte
  | quintet
deriving DecidableEq, Repr

/-- The family of an alphabet (R8). -/
def family : Asel → Family
  | .base64 => .byte
  | .base64url => .byte
  | .base32 => .quintet
  | .base32hex => .quintet

/-- N: how many symbols the alphabet has (R8). -/
def numSymbols (a : Asel) : Nat :=
  match family a with
  | .byte => 64
  | .quintet => 32

/-- BPS: bits per symbol (R8). -/
def bitsPerSymbol (a : Asel) : Nat :=
  match family a with
  | .byte => 6
  | .quintet => 5

/-- GB: bytes in a group (R8). -/
def groupBytes (a : Asel) : Nat :=
  match family a with
  | .byte => 3
  | .quintet => 5

/-- GS: symbols in a group (R8). -/
def groupSymbols (a : Asel) : Nat :=
  match family a with
  | .byte => 4
  | .quintet => 8

/-- `n` consecutive octet codes from `first` on: a range such as `A-Z` of the tables (R100, R101). -/
def octetRun (first n : Nat) : List Byte := (List.range n).map fun i => BitVec.ofNat 8 (first + i)

/-- `A-Z a-z 0-9`, the first 62 entries of both 64-symbol tables (R100). -/
def alphanumeric : List Byte := octetRun 0x41 26 ++ octetRun 0x61 26 ++ octetRun 0x30 10

/-- The alphabet tables, index to octet (R100, R101). -/
def table : Asel → List Byte
  | .base64 => alphanumeric ++ [0x2B, 0x2F]
  | .base64url => alphanumeric ++ [0x2D, 0x5F]
  | .base32 => octetRun 0x41 26 ++ octetRun 0x32 6
  | .base32hex => octetRun 0x30 10 ++ octetRun 0x41 22

/-- The octet of the padding character `=` (R102). -/
def padOctet : Byte := 0x3D

/-- Symbol lookup (R104): the octet of table entry `v`. It has a result exactly for v < N. -/
def sym (a : Asel) (v : Nat) : Option Byte := (table a)[v]?

/-- Value lookup (R105): the index of the entry that equals the octet, if there is one. -/
def val (a : Asel) (c : Byte) : Option Nat := (table a).findIdx? (· == c)

/-- What a character read from the source is to the decoder (R106). -/
inductive CharClass where
  | pad
  | index (i : Nat)
  | foreign
deriving DecidableEq, Repr

/-- Decoder classification (R106). -/
def classify (a : Asel) (c : Byte) : CharClass :=
  if c = padOctet then .pad
  else
    match val a c with
    | some i => .index i
    | none => .foreign

/-- The code of PAD in a slot register (R31). -/
def padSlot : Slot := 0x40

/-- What a slot-filling character puts in its slot: PAD or the index (R31, R161); a foreign one fills no slot. -/
def CharClass.slot? : CharClass → Option Slot
  | .pad => some padSlot
  | .index i => some (BitVec.ofNat 7 i)
  | .foreign => none

end Sys2Proof.Machine
end

