-- ==== Sys2Proof/Machine/Codec.lean ====
section
/-! DEFINITION. What the two engines compute on a group: packing and padding counts (41_encoder.md R125 to R132), validation
and reconstruction (42_decoder.md R152 to R158, R170 to R175). The slice forms of the rules are used. -/

namespace Sys2Proof.Machine

/-- An encode group: five byte positions, of which a byte-family group uses the first three (R24). -/
abbrev EncodeGroup := Vector Byte 5

/-- A decode group: eight slots, of which a byte-family group uses the first four (R28). -/
abbrev DecodeGroup := Vector Slot 8

/-- Byte-family symbol values (R125, R131). -/
def packByte (a b c : Byte) : List (BitVec 6) :=
  [a.extractLsb' 2 6,
   a.extractLsb' 0 2 ++ b.extractLsb' 4 4,
   b.extractLsb' 0 4 ++ c.extractLsb' 6 2,
   c.extractLsb' 0 6]

/-- Quintet-family symbol values (R126, R132). -/
def packQuintet (a b c d e : Byte) : List (BitVec 5) :=
  [a.extractLsb' 3 5,
   a.extractLsb' 0 3 ++ b.extractLsb' 6 2,
   b.extractLsb' 1 5,
   b.extractLsb' 0 1 ++ c.extractLsb' 4 4,
   c.extractLsb' 0 4 ++ d.extractLsb' 7 1,
   d.extractLsb' 2 5,
   d.extractLsb' 0 2 ++ e.extractLsb' 5 3,
   e.extractLsb' 0 5]

/-- The symbol values of a group, s_0 first (R127). -/
def pack (a : Asel) (g : EncodeGroup) : List Nat :=
  match family a with
  | .byte => (packByte g[0] g[1] g[2]).map (·.toNat)
  | .quintet => (packQuintet g[0] g[1] g[2] g[3] g[4]).map (·.toNat)

/-- The octets of symbol values, in order (R131). Every packed value is below N, so none is dropped (R104). -/
def symOctets (a : Asel) (vs : List Nat) : List Byte := vs.filterMap (sym a)

/-- REAL(k) = ceil(8k / BPS): how many real symbols k bytes give (R128, R129). -/
def realSymbols (a : Asel) (k : Nat) : Nat := (8 * k + (bitsPerSymbol a - 1)) / bitsPerSymbol a

/-- The group with bytes k and on taken as 0x00 (R130). -/
def zeroFill (k : Nat) (g : EncodeGroup) : EncodeGroup :=
  #v[if 0 < k then g[0] else 0, if 1 < k then g[1] else 0, if 2 < k then g[2] else 0,
     if 3 < k then g[3] else 0, if 4 < k then g[4] else 0]

/-- The octets of a full group (R133). -/
def fullGroupOctets (a : Asel) (g : EncodeGroup) : List Byte := symOctets a (pack a g)

/-- The octets of a final group of k bytes: its real symbols, then padding up to GS (R134). -/
def finalGroupOctets (a : Asel) (k : Nat) (g : EncodeGroup) : List Byte :=
  symOctets a ((pack a (zeroFill k g)).take (realSymbols a k)) ++
    List.replicate (groupSymbols a - realSymbols a k) padOctet

/-- VALID: the real-symbol counts a full group may have (R156, R157, R158). -/
def validCounts (a : Asel) : List Nat :=
  match family a with
  | .byte => [2, 3, 4]
  | .quintet => [2, 4, 5, 7, 8]

/-- k: the index of the first slot holding PAD among the GS slots, GS if none does (R155). -/
def realCount (a : Asel) (s : DecodeGroup) : Nat := (s.toList.take (groupSymbols a)).findIdx (· == padSlot)

/-- Validation of a completed group and the priority of causes (R158). -/
def validate (a : Asel) (s : DecodeGroup) : Except Cause Nat :=
  let k := realCount a s
  if s[0] = padSlot ∨ s[1] = padSlot then .error .earlyPad
  else if ((s.toList.take (groupSymbols a)).drop (k + 1)).any (· != padSlot) then .error .padThenSymbol
  else if k ∈ validCounts a then .ok k
  else .error .badCount

/-- NBYTES(k) = floor(k * BPS / 8): how many bytes k real symbols give (R156, R157). -/
def numBytes (a : Asel) (k : Nat) : Nat := k * bitsPerSymbol a / 8

/-- Byte-family reconstruction (R170). -/
def unpackByte (a b c d : BitVec 6) : List Byte :=
  [a ++ b.extractLsb' 4 2,
   b.extractLsb' 0 4 ++ c.extractLsb' 2 4,
   c.extractLsb' 0 2 ++ d]

/-- Quintet-family reconstruction (R172). byte3 ends in s6[4:3], as the rule's shift formula `s6 >> 3` has it; the slice
`s6[4:2]` the rule prints beside it is one bit too long for a byte (DEDUCED, log 11). -/
def unpackQuintet (s0 s1 s2 s3 s4 s5 s6 s7 : BitVec 5) : List Byte :=
  [s0 ++ s1.extractLsb' 2 3,
   s1.extractLsb' 0 2 ++ s2 ++ s3.extractLsb' 4 1,
   s3.extractLsb' 0 4 ++ s4.extractLsb' 1 4,
   s4.extractLsb' 0 1 ++ s5 ++ s6.extractLsb' 3 2,
   s6.extractLsb' 0 3 ++ s7]

/-- The bytes of a valid group with k real symbols: the first NBYTES(k) of the reconstruction (R171, R173, R175).
They read only the slots before k. -/
def unpack (a : Asel) (s : DecodeGroup) (k : Nat) : List Byte :=
  match family a with
  | .byte =>
    (unpackByte (s[0].setWidth 6) (s[1].setWidth 6) (s[2].setWidth 6) (s[3].setWidth 6)).take (numBytes a k)
  | .quintet =>
    (unpackQuintet (s[0].setWidth 5) (s[1].setWidth 5) (s[2].setWidth 5) (s[3].setWidth 5)
      (s[4].setWidth 5) (s[5].setWidth 5) (s[6].setWidth 5) (s[7].setWidth 5)).take (numBytes a k)

end Sys2Proof.Machine
end

