-- ==== Sys2Proof/Machine/Ops.lean ====
section
/-! DEFINITION. The operations every command and step is written with: responding, the one error entry, the port
channels, hardware reset; and what the host observes (00_scope.md R13, 60_exceptions.md R205, 70_reset_and_hazards.md R230, R231, R242). -/

namespace Sys2Proof.Machine

/-! ### Registers -/

/-- SEQ_PHASE <- p. -/
def State.setPhase (s : State) (p : Phase) : State := { s with seq := { s.seq with phase := p } }

/-- ENC_MODE or DEC_MODE <- m. -/
def State.setMode (s : State) (e : Engine) (m : Mode) : State :=
  match e with
  | .encoder => { s with enc := { s.enc with mode := m } }
  | .decoder => { s with dec := { s.dec with mode := m } }

/-- The mode register of an engine. -/
def State.mode (s : State) (e : Engine) : Mode :=
  match e with
  | .encoder => s.enc.mode
  | .decoder => s.dec.mode

/-! ### Responding and failing -/

/-- The host observes an event (R242). -/
def State.observe (s : State) (e : Event) : State := { s with io := { s.io with trace := s.io.trace ++ [e] } }

/-- `respond`: places the response word (R13). -/
def State.respond (s : State) (r : Response) : State := s.observe (.response r.word)

/-- `fail`, the ONE error entry (R205): the engine's mode FAILED, SEQ_PHASE IDLE, the response; nothing else is
saved. The way out is the engine's INIT (R207). -/
def State.fail (s : State) (e : Engine) (r : Response) : State :=
  ((s.setMode e .failed).setPhase .idle).respond r

/-- The last step of a command that had port traffic: SEQ_PHASE IDLE and the response (R33). -/
def State.finish (s : State) (r : Response) : State := (s.setPhase .idle).respond r

/-- The response of an engine command to an engine that is not READY (R206). -/
def State.refuseUnusable (s : State) (e : Engine) : State := s.respond (.unusable (s.mode e))

/-- An ILLEGAL word's only effect (R82). -/
def respondIllegal (s : State) : Outcome := .next (s.respond .illegal)

/-! ### The channels -/

/-- The request outstanding on a port, a function of the sequencer's registers (R135, R136, R161). -/
def State.request (s : State) : Option PortRequest :=
  match s.seq.phase with
  | .idle => none
  | .encEmit => s.seq.emitq.head?.map .sinkWrite
  | .encFlush => some .sinkFlush
  | .decFill => some .sourceRead

/-- The command word the host presents next, and the state without it. -/
def State.takeCommand (s : State) : Option (Word × State) :=
  match s.io.commands with
  | [] => none
  | w :: ws => some (w, { s with io := { s.io with commands := ws } })

/-- The host's answer to the outstanding sink request, and the state without it. -/
def State.takeSinkAnswer (s : State) : Option (SinkAnswer × State) :=
  match s.io.sinkAnswers with
  | [] => none
  | a :: rest => some (a, { s with io := { s.io with sinkAnswers := rest } })

/-- The source's next item and the items after it: when they are used up the repeated ones begin again, so that the
source may be unending (R239). -/
def State.nextSource (s : State) : Option (SourceAnswer × List SourceAnswer) :=
  match s.io.sourceAnswers with
  | a :: rest => some (a, rest)
  | [] =>
    match s.io.sourceRepeat with
    | [] => none
    | a :: rest => some (a, rest)

/-- The host's answer to the outstanding source request, and the state without it: a read consumes its item (R52). -/
def State.takeSourceAnswer (s : State) : Option (SourceAnswer × State) :=
  match s.nextSource with
  | none => none
  | some (a, rest) => some (a, { s with io := { s.io with sourceAnswers := rest } })

/-- What the host does at this step: `serve` when its schedule says nothing. -/
def State.move (s : State) : HostMove := s.io.schedule.headD .serve

/-- The state once the host's move is taken from the schedule. -/
def State.afterMove (s : State) : State := { s with io := { s.io with schedule := s.io.schedule.tail } }

/-- The state in which the very next step runs the word `w`: the host serves it first and the block is IDLE, where
alone a command may be presented (R237). -/
def State.withNextCommand (s : State) (w : Word) : State :=
  { s.setPhase .idle with
    io := { s.io with commands := w :: s.io.commands, schedule := .serve :: s.io.schedule } }

/-! ### Hardware reset -/

/-- Hardware reset (R230, R231): every register at its reset value; an outstanding request is withdrawn; no
response; what was observed and what the host still has to send stay. -/
def hardReset (s : State) : State :=
  { State.reset with
    io := { s.io with withdrawn := s.io.withdrawn + (if s.request = none then 0 else 1) } }

/-- The host answers a request a reset has withdrawn: ignored (R231). Any other answer without a request breaks the
host's duty to answer exactly once (R236). -/
def lateAnswer (s : State) : Outcome :=
  if s.io.withdrawn = 0 then .fault .answerWithoutRequest
  else .next { s with io := { s.io with withdrawn := s.io.withdrawn - 1 } }

/-! ### What a run observes (R242) -/

/-- The response word of an event, if it is one. -/
def Event.response? : Event → Option Word
  | .response r => some r
  | _ => none

/-- The octet an event emits: one the sink acknowledged (R53). -/
def Event.emitted? : Event → Option Byte
  | .sinkWrite c .ack => some c
  | _ => none

/-- Whether an event is a source read. -/
def Event.isSourceRead : Event → Bool
  | .sourceRead _ => true
  | _ => false

/-- Whether an event is a port transaction. -/
def Event.isTransaction : Event → Bool
  | .response _ => false
  | _ => true

/-- The sequence of response words. -/
def State.responses (s : State) : List Word := s.io.trace.filterMap Event.response?

/-- The symbol octets the sink has acknowledged, in order (R53). -/
def State.emitted (s : State) : List Byte := s.io.trace.filterMap Event.emitted?

/-- The number of source items consumed, `End` and `Err` counted (R242). -/
def State.itemsConsumed (s : State) : Nat := s.io.trace.countP Event.isSourceRead

end Sys2Proof.Machine
end

