-- ==== Sys2Proof/Machine/Decoder.lean ====
section
/-! DEFINITION. The decoder: DEC_INIT, DEC_NEXT and the step DEC_FILL (42_decoder.md). -/

namespace Sys2Proof.Machine

/-- DEC_INIT (R151). -/
def execDecInit (a : Asel) (s : State) : Outcome :=
  .next ({ s with
    dec := { s.dec with asel := a, scnt := 0, olen := 0, opos := 0, eof := false, mode := .ready } }.respond .ok)

/-- DEC_NEXT (R160): serve a buffered byte, report the end of data, or start a fill. -/
def execDecNext (s : State) : Outcome :=
  if s.dec.mode ≠ .ready then .next (s.refuseUnusable .decoder)
  else if s.dec.opos.toNat < s.dec.olen.toNat then
    match s.dec.obuf[s.dec.opos.toNat]? with
    | none => .fault .counterOutOfRange
    | some b => .next ({ s with dec := { s.dec with opos := s.dec.opos + 1 } }.respond (.data b))
  else if s.dec.eof then .next (s.respond .eod)
  else .next ({ s with dec := { s.dec with scnt := 0 } }.setPhase .decFill)

/-- DEC_OBUF[0..n-1] <- bs, where n is the number of bytes; the other entries stay (R162). -/
def storeBytes (bs : List Byte) (o : Vector Byte 5) : Vector Byte 5 :=
  #v[bs.getD 0 o[0], bs.getD 1 o[1], bs.getD 2 o[2], bs.getD 3 o[3], bs.getD 4 o[4]]

/-- Group completion with the slots `g` (R162 a valid group, R166 an invalid one). -/
def completeGroup (g : DecodeGroup) (s : State) : Outcome :=
  match validate s.dec.asel g with
  | .error cause => .next (s.fail .decoder (.malformed cause))
  | .ok k =>
    match unpack s.dec.asel g k with
    | [] => .fault .counterOutOfRange
    | b :: bs =>
      .next ({ s with
        dec := { s.dec with obuf := storeBytes (b :: bs) s.dec.obuf, olen := BitVec.ofNat 3 (bs.length + 1),
                            opos := 1, scnt := 0 } }.finish (.data b))

/-- The DEC_FILL step on a slot-filling character (R161). -/
def fillSlot (x : Slot) (s : State) : Outcome :=
  let n := s.dec.scnt.toNat
  let gs := groupSymbols s.dec.asel
  let filled : State := { s with dec := { s.dec with slot := s.dec.slot.setIfInBounds n x } }
  if 8 ≤ n then .fault .counterOutOfRange
  else if n + 1 < gs then .next { filled with dec := { filled.dec with scnt := BitVec.ofNat 4 (n + 1) } }
  else completeGroup (s.dec.slot.setIfInBounds (gs - 1) x) filled

/-- The DEC_FILL step on `End` (R163 with no slot filled, R164 with a partial group). -/
def fillEnd (s : State) : Outcome :=
  if s.dec.scnt = 0 then .next ({ s with dec := { s.dec with eof := true } }.finish .eod)
  else if s.dec.scnt.toNat < groupSymbols s.dec.asel then .next (s.fail .decoder (.malformed .truncated))
  else .fault .counterOutOfRange

/-- The DEC_FILL step on the host's answer to `SrcRead()` (R161 to R166). A foreign character changes no register. -/
def fillAnswered (a : SourceAnswer) (s : State) : Outcome :=
  let s := s.observe (.sourceRead a)
  match a with
  | .chr c =>
    match (classify s.dec.asel c).slot? with
    | none => .next s
    | some x => fillSlot x s
  | .endOfInput => fillEnd s
  | .err => .next (s.fail .decoder (.ioerr .source))

/-- The step in DEC_FILL: stuck without an answer (R238). -/
def decFillStep (s : State) : Outcome :=
  match s.takeSourceAnswer with
  | none => .fault .noSourceAnswer
  | some (a, s') => fillAnswered a s'

end Sys2Proof.Machine
end

