-- ==== Sys2Proof/Machine/Encoder.lean ====
section
/-! DEFINITION. The encoder: ENC_INIT, ENC_PUT, ENC_FINAL and the steps ENC_EMIT, ENC_FLUSH (41_encoder.md). -/

namespace Sys2Proof.Machine

/-- ENC_INIT (R121). ENC_GRP is not cleared. -/
def execEncInit (a : Asel) (s : State) : Outcome :=
  .next ({ s with enc := { s.enc with asel := a, cnt := 0, mode := .ready } }.respond .ok)

/-- ENC_PUT (R133): append a byte; a group it fills is emptied into SEQ_EMITQ in the same step. -/
def execEncPut (b : Byte) (s : State) : Outcome :=
  let n := s.enc.cnt.toNat
  let gb := groupBytes s.enc.asel
  if s.enc.mode ≠ .ready then .next (s.refuseUnusable .encoder)
  else if 5 ≤ n then .fault .counterOutOfRange
  else if n + 1 < gb then
    .next ({ s with enc := { s.enc with grp := s.enc.grp.setIfInBounds n b, cnt := BitVec.ofNat 3 (n + 1) } }.respond .ok)
  else
    .next { s with
      enc := { s.enc with grp := s.enc.grp.setIfInBounds n b, cnt := 0 }
      seq := { phase := .encEmit, flush := false,
               emitq := fullGroupOctets s.enc.asel (s.enc.grp.setIfInBounds (gb - 1) b) } }

/-- ENC_FINAL (R134): the padded symbols of a partial group, if one is held, and then a flush. -/
def execEncFinal (s : State) : Outcome :=
  let k := s.enc.cnt.toNat
  let emptied : EncoderRegs := { s.enc with cnt := 0 }
  if s.enc.mode ≠ .ready then .next (s.refuseUnusable .encoder)
  else if groupBytes s.enc.asel < k then .fault .counterOutOfRange
  else if k = 0 then
    .next { s with enc := emptied, seq := { phase := .encFlush, flush := true, emitq := [] } }
  else
    .next { s with
      enc := emptied
      seq := { phase := .encEmit, flush := true, emitq := finalGroupOctets s.enc.asel k s.enc.grp } }

/-- The ENC_EMIT step on the host's answer to `SnkWrite(SEQ_EMITQ.head)` (R135). -/
def emitAnswered (a : SinkAnswer) (s : State) : Outcome :=
  match s.seq.emitq with
  | [] => .fault .emitQueueEmpty
  | c :: rest =>
    let s := s.observe (.sinkWrite c a)
    match a with
    | .err => .next ({ s with seq := { s.seq with emitq := [] } }.fail .encoder (.ioerr .sinkWrite))
    | .ack =>
      let s := { s with seq := { s.seq with emitq := rest } }
      if rest ≠ [] then .next s
      else if s.seq.flush then .next (s.setPhase .encFlush)
      else .next (s.finish .ok)

/-- The ENC_FLUSH step on the host's answer to `SnkFlush()` (R136). -/
def flushAnswered (a : SinkAnswer) (s : State) : Outcome :=
  let s := s.observe (.sinkFlush a)
  match a with
  | .ack => .next (s.finish .ok)
  | .err => .next (s.fail .encoder (.ioerr .sinkFlush))

/-- The step in ENC_EMIT: not enabled with nothing to write (R135), stuck without an answer (R238). -/
def encEmitStep (s : State) : Outcome :=
  if s.seq.emitq = [] then .fault .emitQueueEmpty
  else
    match s.takeSinkAnswer with
    | none => .fault .noSinkAnswer
    | some (a, s') => emitAnswered a s'

/-- The step in ENC_FLUSH: stuck without an answer (R238). -/
def encFlushStep (s : State) : Outcome :=
  match s.takeSinkAnswer with
  | none => .fault .noSinkAnswer
  | some (a, s') => flushAnswered a s'

end Sys2Proof.Machine
end

