-- ==== Sys2Proof/Machine/Lut.lean ====
section
/-! DEFINITION. The two lookup commands (40_alphabet.md R107 to R109). They read no engine state. -/

namespace Sys2Proof.Machine

/-- LUT_SYM (R107): the symbol of an index below N, else RANGE. -/
def execLutSym (a : Asel) (v : Byte) (s : State) : Outcome :=
  .next <| s.respond <|
    match sym a v.toNat with
    | some c => .data c
    | none => .range

/-- LUT_VAL (R108): the index of a character of the table, zero-extended to 8 bits, else NOTFOUND. -/
def execLutVal (a : Asel) (c : Byte) (s : State) : Outcome :=
  .next <| s.respond <|
    match val a c with
    | some i => .data (BitVec.ofNat 8 i)
    | none => .notFound

end Sys2Proof.Machine
end

