-- ==== Sys2Proof/Machine/Dispatch.lean ====
section
/-! DEFINITION. The meaning of each command. -/

namespace Sys2Proof.Machine

-- One arm per row of the opcode map (30_encoding.md R80).
def exec (i : Instr) (s : State) : Host.Outcome State Fault Refusal :=
  match i with
  | .encInit a => Sys2Proof.Machine.execEncInit a s
  | .encPut b => Sys2Proof.Machine.execEncPut b s
  | .encFinal => Sys2Proof.Machine.execEncFinal s
  | .decInit a => Sys2Proof.Machine.execDecInit a s
  | .decNext => Sys2Proof.Machine.execDecNext s
  | .lutSym a v => Sys2Proof.Machine.execLutSym a v s
  | .lutVal a c => Sys2Proof.Machine.execLutVal a c s

end Sys2Proof.Machine
end

