-- ==== Sys2Proof/Machine/Step.lean ====
section
/-! DEFINITION. One step of the machine: one thing the host does, and the block's reaction to it (70_reset_and_hazards.md R235,
R241). A command is one step, each port transaction is one step. -/

namespace Sys2Proof.Machine

/-- A command word presented in IDLE: decode it and run it; an ILLEGAL word only gets its response (R82, R84). -/
def issue (w : Word) (s : State) : Host.Outcome State Fault Refusal :=
  match decode w with
  | .ok i => exec i s
  | .error _ => respondIllegal s

/-- The host does what the block waits for: it presents its next command in IDLE, or answers the outstanding
request. With no command left the run has ended (R242). -/
def serve (s : State) : Host.Outcome State Fault Refusal :=
  match s.seq.phase with
  | .idle =>
    match s.takeCommand with
    | none => .fault .runEnded
    | some (w, s') => issue w s'
  | .encEmit => encEmitStep s
  | .encFlush => encFlushStep s
  | .decFill => decFillStep s

/-- One step. -/
def step (s : State) : Host.Outcome State Fault Refusal :=
  match s.move with
  | .serve => serve s.afterMove
  | .reset => .next (hardReset s.afterMove)
  | .lateAnswer => lateAnswer s.afterMove
  | .present w => if s.seq.phase = .idle then issue w s.afterMove else .fault .commandWhileBusy

/-- `s` with the given word as the one the very next step runs. -/
def State.withFetchWord (s : State) (nbits w : Nat) : State := s.withNextCommand (tableWord nbits w)

end Sys2Proof.Machine
end

