-- ==== Sys2Proof/Machine/Assembler.lean ====
section
/-! DEFINITION. The assembler syntax and the two pseudo-commands (30_encoding.md R85, R86), and how a response is written. The
hardware never sees any of it. What R85 leaves open about spacing and letters is log 15. -/

namespace Sys2Proof.Machine

/-- The commands `ENC_PUTS b0, ..., bn-1` stands for (R86). -/
def expandPuts (bs : List Byte) : List Instr := bs.map .encPut

/-- The octet code of a character: ASCII (R101); no code beyond it. -/
def octetOfChar (c : Char) : Option Byte := if c.toNat < 128 then some (BitVec.ofNat 8 c.toNat) else none

/-- The commands `ENC_STR "text"` stands for, one ENC_PUT per character (R86). -/
def expandStr (text : List Char) : Option (List Instr) := (text.mapM octetOfChar).map expandPuts

/-! ### Reading an operand: its value and the rest of the line -/

/-- The rest of a line after its blanks. -/
def skipBlanks (l : List Char) : List Char := l.dropWhile fun c => c == ' ' || c == '\t'

/-- Nothing but blanks and a comment. -/
def lineDone (l : List Char) : Bool :=
  match skipBlanks l with
  | [] => true
  | c :: _ => c == ';'

/-- The separating comma. -/
def readComma (l : List Char) : Option (List Char) :=
  match skipBlanks l with
  | ',' :: rest => some rest
  | _ => none

/-- A name or mnemonic: letters, digits and `_`. -/
def readName (l : List Char) : List Char × List Char :=
  (skipBlanks l).span fun c => c.isAlphanum || c == '_'

/-- The alphabet operand (R85). -/
def readAlpha (l : List Char) : Option (Asel × List Char) :=
  let (name, rest) := readName l
  if name = "b64".toList then some (.base64, rest)
  else if name = "b64url".toList then some (.base64url, rest)
  else if name = "b32".toList then some (.base32, rest)
  else if name = "b32hex".toList then some (.base32hex, rest)
  else none

/-- The value of a digit in a base up to 16. -/
def digitValue (base : Nat) (c : Char) : Option Nat :=
  let n := c.toNat
  let v := if '0'.toNat ≤ n ∧ n ≤ '9'.toNat then n - '0'.toNat
    else if 'A'.toNat ≤ n ∧ n ≤ 'F'.toNat then n - 'A'.toNat + 10
    else if 'a'.toNat ≤ n ∧ n ≤ 'f'.toNat then n - 'a'.toNat + 10
    else base
  if v < base then some v else none

/-- Digits from the front of a line, at least one; `sofar` is the value of those already read. -/
def readDigits (base : Nat) (sofar : Option Nat) : List Char → Option (Nat × List Char)
  | [] => sofar.map (·, [])
  | c :: cs =>
    match digitValue base c with
    | some d => readDigits base (some (sofar.getD 0 * base + d)) cs
    | none => sofar.map (·, c :: cs)

/-- A byte or index operand: decimal or `0x` hexadecimal, 0 to 255 (R85). -/
def readByte (l : List Char) : Option (Byte × List Char) :=
  let number :=
    match skipBlanks l with
    | '0' :: 'x' :: rest => readDigits 16 none rest
    | rest => readDigits 10 none rest
  match number with
  | some (n, rest) => if n < 256 then some (BitVec.ofNat 8 n, rest) else none
  | none => none

/-- The character operand of LUT_VAL: `'c'`, or a number (R85). -/
def readCharOperand (l : List Char) : Option (Byte × List Char) :=
  match skipBlanks l with
  | '\'' :: c :: '\'' :: rest => (octetOfChar c).map (·, rest)
  | rest => readByte rest

/-- Bytes separated by commas, as many as `fuel` at most. -/
def readBytes : Nat → List Char → Option (List Byte × List Char)
  | 0, _ => none
  | fuel + 1, l =>
    match readByte l with
    | none => none
    | some (b, rest) =>
      match readComma rest with
      | none => some ([b], rest)
      | some rest' => (readBytes fuel rest').map fun (bs, r) => (b :: bs, r)

/-- The text between two double quotes. -/
def readText (l : List Char) : Option (List Char × List Char) :=
  match skipBlanks l with
  | '"' :: rest =>
    match rest.span (· != '"') with
    | (text, _ :: after) => some (text, after)
    | (_, []) => none
  | _ => none

/-- A value if only blanks and a comment follow it. -/
def endingLine {α : Type} (r : Option (α × List Char)) : Option α :=
  match r with
  | some (x, rest) => if lineDone rest then some x else none
  | none => none

/-- `<alpha>, <operand>`. -/
def readAlphaAnd (operand : List Char → Option (Byte × List Char)) (l : List Char) : Option ((Asel × Byte) × List Char) :=
  match readAlpha l with
  | none => none
  | some (a, rest) =>
    match readComma rest with
    | none => none
    | some rest' => (operand rest').map fun (b, r) => ((a, b), r)

/-- The commands a line of assembler text stands for (R85, R86): one, those of a pseudo-command, none for a blank
line, no result for a line the syntax does not have. -/
def assembleLine (line : List Char) : Option (List Instr) :=
  let (name, rest) := readName line
  if name = [] then (if lineDone rest then some [] else none)
  else if name = "ENC_INIT".toList then (endingLine (readAlpha rest)).map ([.encInit ·])
  else if name = "ENC_PUT".toList then (endingLine (readByte rest)).map ([.encPut ·])
  else if name = "ENC_FINAL".toList then (if lineDone rest then some [.encFinal] else none)
  else if name = "DEC_INIT".toList then (endingLine (readAlpha rest)).map ([.decInit ·])
  else if name = "DEC_NEXT".toList then (if lineDone rest then some [.decNext] else none)
  else if name = "LUT_SYM".toList then (endingLine (readAlphaAnd readByte rest)).map fun (a, v) => [.lutSym a v]
  else if name = "LUT_VAL".toList then (endingLine (readAlphaAnd readCharOperand rest)).map fun (a, c) => [.lutVal a c]
  else if name = "ENC_PUTS".toList then
    (if lineDone rest then some [] else (endingLine (readBytes rest.length rest)).map expandPuts)
  else if name = "ENC_STR".toList then
    match endingLine (readText rest) with
    | some text => expandStr text
    | none => none
  else none

/-- A program, one command per line (R85): the command words the host presents. -/
def assemble (lines : List (List Char)) : Option (List Word) :=
  (lines.mapM assembleLine).map fun is => is.flatten.map encode

/-! ### Writing a response -/

/-- A hexadecimal digit. -/
def hexDigit (n : Nat) : Char := if n < 10 then Char.ofNat ('0'.toNat + n) else Char.ofNat ('A'.toNat + (n - 10))

/-- An octet as `0x` and two digits. -/
def hexByte (b : Byte) : List Char := ['0', 'x', hexDigit (b.toNat / 16), hexDigit (b.toNat % 16)]

/-- The name of a cause (R85). -/
def Cause.spelling : Cause → String
  | .truncated => "TRUNCATED"
  | .earlyPad => "EARLY_PAD"
  | .padThenSymbol => "PAD_THEN_SYMBOL"
  | .badCount => "BAD_COUNT"

/-- The name of the place of an I/O failure (R85). -/
def IoPlace.spelling : IoPlace → String
  | .source => "SRC"
  | .sinkWrite => "SNK_WRITE"
  | .sinkFlush => "SNK_FLUSH"

/-- The name of a mode (R22). -/
def Mode.spelling : Mode → String
  | .off => "OFF"
  | .ready => "READY"
  | .failed => "FAILED"

/-- How a response is written (R85). -/
def Response.spelling : Response → List Char
  | .ok => "OK".toList
  | .data b => "DATA ".toList ++ hexByte b
  | .eod => "EOD".toList
  | .malformed c => "MALFORMED ".toList ++ c.spelling.toList
  | .ioerr p => "IOERR ".toList ++ p.spelling.toList
  | .notFound => "NOTFOUND".toList
  | .range => "RANGE".toList
  | .illegal => "ILLEGAL".toList
  | .unusable m => "UNUSABLE ".toList ++ m.spelling.toList

end Sys2Proof.Machine
end

