-- ==== Sys2Proof/Machine/Session.lean ====
section
/-! DEFINITION. The pure functions that the spec sums its engines up by (41_encoder.md R127, R142; 42_decoder.md R175, R178, R180). The
machine does not use them; claims compare it with them. -/

namespace Sys2Proof.Machine

/-- The complete groups of n items a list falls into, in order: group i is items i*n to i*n+n-1. -/
def completeGroups {α : Type} (n : Nat) (l : List α) : List (List α) :=
  (List.range (l.length / n)).map fun i => (l.drop (i * n)).take n

/-- The items after the last complete group: fewer than n. -/
def leftover {α : Type} (n : Nat) (l : List α) : List α := l.drop (l.length / n * n)

/-- The encode group that holds the given bytes, the first at position 0. -/
def groupOf (l : List Byte) : EncodeGroup := #v[l.getD 0 0, l.getD 1 0, l.getD 2 0, l.getD 3 0, l.getD 4 0]

/-- The decode group that holds the given slots, the first at position 0. -/
def slotsOf (l : List Slot) : DecodeGroup :=
  #v[l.getD 0 0, l.getD 1 0, l.getD 2 0, l.getD 3 0, l.getD 4 0, l.getD 5 0, l.getD 6 0, l.getD 7 0]

/-! ### Numbers of groups (R127, R175) -/

/-- W: the GB group bytes as one number, byte 0 most significant (R127). -/
def groupValue (a : Asel) (g : EncodeGroup) : Nat :=
  (g.toList.take (groupBytes a)).foldl (fun w b => w * 256 + b.toNat) 0

/-- s_i = W[GB*8 - 1 - BPS*i : GB*8 - BPS*(i+1)] (R127). -/
def symbolValue (a : Asel) (g : EncodeGroup) (i : Nat) : Nat :=
  groupValue a g / 2 ^ (groupBytes a * 8 - bitsPerSymbol a * (i + 1)) % 2 ^ bitsPerSymbol a

/-- V: the first k slots as one number of GB*8 bits, slot 0 most significant, zero-extended on the right (R175). -/
def slotsValue (a : Asel) (s : DecodeGroup) (k : Nat) : Nat :=
  (s.toList.take k).foldl (fun v x => v * 2 ^ bitsPerSymbol a + x.toNat) 0 *
    2 ^ (groupBytes a * 8 - bitsPerSymbol a * k)

/-- byte_j = V[GB*8 - 1 - 8j : GB*8 - 8(j+1)] (R175). -/
def byteValue (a : Asel) (s : DecodeGroup) (k j : Nat) : Byte :=
  BitVec.ofNat 8 (slotsValue a s k / 2 ^ (groupBytes a * 8 - 8 * (j + 1)))

/-! ### A whole encoding (R142) -/

/-- The symbols of the complete groups of a byte sequence. -/
def encodedGroups (a : Asel) (bs : List Byte) : List Byte :=
  (completeGroups (groupBytes a) bs).flatMap fun g => fullGroupOctets a (groupOf g)

/-- The padded symbols of the bytes after the last complete group; none if there are no such bytes (R134). -/
def encodedTail (a : Asel) (bs : List Byte) : List Byte :=
  match leftover (groupBytes a) bs with
  | [] => []
  | rest => finalGroupOctets a rest.length (groupOf rest)

/-- The symbols of a session that puts the bytes and finalizes. -/
def encoded (a : Asel) (bs : List Byte) : List Byte := encodedGroups a bs ++ encodedTail a bs

/-- The bytes the encoder holds (R24, R25). -/
def EncoderRegs.held (e : EncoderRegs) : List Byte := e.grp.toList.take e.cnt.toNat

/-! ### A whole decoding (R178, R180) -/

/-- Whether a source item counts for the decoder: any but a foreign character (R161). -/
def SourceAnswer.counts (a : Asel) : SourceAnswer → Bool
  | .chr c => classify a c != .foreign
  | _ => true

/-- The slots that characters fill, foreign ones left out (R161). -/
def slotsFilled (a : Asel) (cs : List Byte) : List Slot := cs.filterMap fun c => (classify a c).slot?

/-- The responses for complete groups, in order, and then `last`; an invalid group ends the session (R180). -/
def groupResponses (a : Asel) (last : Response) : List (List Slot) → List Response
  | [] => [last]
  | g :: gs =>
    match validate a (slotsOf g) with
    | .error cause => [.malformed cause]
    | .ok k => (unpack a (slotsOf g) k).map .data ++ groupResponses a last gs

/-- The responses up to the one that reports the end of the stream or its failure (R180): the source is the
characters `cs` and then `Err` if `broken`, `End` if not. -/
def streamResponses (a : Asel) (cs : List Byte) (broken : Bool) : List Response :=
  let slots := slotsFilled a cs
  let last : Response :=
    if broken then .ioerr .source
    else if leftover (groupSymbols a) slots = [] then .eod
    else .malformed .truncated
  groupResponses a last (completeGroups (groupSymbols a) slots)

/-- The response every DEC_NEXT gets after the last response of the stream: EOD after EOD, else UNUSABLE (R180, R206). -/
def afterStream (rs : List Response) : Response :=
  if rs.getLast? = some .eod then .eod else .unusable .failed

/-- The responses to the first m DEC_NEXT of a session (R180). -/
def decodedResponses (a : Asel) (cs : List Byte) (broken : Bool) (m : Nat) : List Response :=
  let rs := streamResponses a cs broken
  (rs ++ List.replicate m (afterStream rs)).take m

end Sys2Proof.Machine
end

