-- ==== Sys2Proof/Safety.lean ====
section
/-! DEFINITION. What claims are stated with: runs, a quiet block, the invariant of every run (10_state.md R39), and which stops
are the host's and which could only be the block's own. -/

namespace Sys2Proof.Machine

/-- `k` steps; no result once a step has no next state. -/
def runSteps : Nat → State → Host.Outcome State Fault Refusal
  | 0, s => .next s
  | k + 1, s =>
    match step s with
    | .next t => runSteps k t
    | .fault f => .fault f
    | .refused r => .refused r

/-- Between commands, and the host does nothing but serve: it presents its commands and answers requests. -/
def Quiet (s : State) : Prop := s.seq.phase = .idle ∧ s.io.schedule = []

/-- The word the step issues, if it issues one: the host serves or presents it in IDLE. -/
def State.issued (s : State) : Option Word :=
  match s.seq.phase, s.move with
  | .idle, .serve => s.io.commands.head?
  | .idle, .present w => some w
  | _, _ => none

/-- The state once a sink request was answered: the answer taken, the transaction observed. -/
def State.sinkAnswered (s : State) (e : Event) (rest : List SinkAnswer) : State :=
  { s with io := { s.io with sinkAnswers := rest, schedule := s.io.schedule.tail, trace := s.io.trace ++ [e] } }

/-- The state once a source request was answered: the item consumed, the transaction observed. -/
def State.sourceAnswered (s : State) (a : SourceAnswer) (rest : List SourceAnswer) : State :=
  { s with io := { s.io with sourceAnswers := rest, schedule := s.io.schedule.tail,
                             trace := s.io.trace ++ [.sourceRead a] } }

/-- The next state of an outcome through a function; a stop stays. -/
def mapNext (f : State → State) : Host.Outcome State Fault Refusal → Host.Outcome State Fault Refusal
  | .next s => .next (f s)
  | .fault r => .fault r
  | .refused r => .refused r

/-- The decoder reads no source item: it is not filling, and it has ended or is not READY (R52). -/
def DecoderEnded (s : State) : Prop := s.seq.phase ≠ .decFill ∧ (s.dec.mode ≠ .ready ∨ s.dec.eof = true)

/-- The source supplies foreign characters for ever (R239): every item the host still has to send is one, and the items
do not run out. -/
def UnendingForeign (s : State) : Prop :=
  (∀ x ∈ s.io.sourceAnswers, x.counts s.dec.asel = false) ∧ s.io.sourceRepeat ≠ [] ∧
    ∀ x ∈ s.io.sourceRepeat, x.counts s.dec.asel = false

/-- What holds in every run, at every phase: R39 (a) to (e), and what the phases of a command add to it. -/
structure Inv (s : State) : Prop where
  /-- R39 (b), R25. -/
  held_below_capacity : s.enc.mode = .ready → s.enc.cnt.toNat < groupBytes s.enc.asel
  /-- R39 (a). -/
  idle_queue_empty : s.seq.phase = .idle → s.seq.emitq = []
  /-- R39 (c), R29. -/
  no_slots_between_commands : s.dec.mode = .ready → s.seq.phase ≠ .decFill → s.dec.scnt = 0
  /-- R39 (d), R30. -/
  buffer_bounds : s.dec.opos.toNat ≤ s.dec.olen.toNat ∧ s.dec.olen.toNat ≤ groupBytes s.dec.asel
  /-- R39 (e). -/
  eof_buffer_empty : s.dec.eof = true → s.dec.opos = s.dec.olen
  /-- In ENC_EMIT: something is left to write (R135), at most GS octets (R34), each a symbol or `=` (R65), and the
  group is empty already (R133, R134). -/
  emitting : s.seq.phase = .encEmit →
    s.enc.mode = .ready ∧ s.enc.cnt = 0 ∧ s.seq.emitq ≠ [] ∧ s.seq.emitq.length ≤ groupSymbols s.enc.asel ∧
      ∀ c ∈ s.seq.emitq, c ∈ table s.enc.asel ∨ c = padOctet
  /-- In ENC_FLUSH: only ENC_FINAL gets here, with nothing left to write (R136). -/
  flushing : s.seq.phase = .encFlush →
    s.enc.mode = .ready ∧ s.enc.cnt = 0 ∧ s.seq.emitq = [] ∧ s.seq.flush = true
  /-- In DEC_FILL: nothing is left to write (R34), the decoder is READY, its buffer empty, its group not full, and the
  stream not ended (R160, R161). -/
  filling : s.seq.phase = .decFill →
    s.seq.emitq = [] ∧ s.dec.mode = .ready ∧ s.dec.eof = false ∧ s.dec.opos = s.dec.olen ∧ s.dec.scnt.toNat < groupSymbols s.dec.asel
  /-- A filled slot holds PAD or an index of the alphabet (R28, R31). -/
  slots_classified : s.dec.mode = .ready → ∀ i, (h : i < 8) → i < s.dec.scnt.toNat →
    s.dec.slot[i] = padSlot ∨ s.dec.slot[i].toNat < numSymbols s.dec.asel

/-- A stop no run of the block reaches: the other stops are the host's doing or the end of a run. -/
def Fault.isInternal : Fault → Bool
  | .emitQueueEmpty => true
  | .counterOutOfRange => true
  | .runEnded => false
  | .noSinkAnswer => false
  | .noSourceAnswer => false
  | .commandWhileBusy => false
  | .answerWithoutRequest => false

/-- A safe run from `s`: it never stops of the block's own accord. -/
def SafeFrom (s : State) : Prop := ∀ k f, runSteps k s = .fault f → f.isInternal = false

end Sys2Proof.Machine
end

