-- ==== Sys2Proof/Certificates/Slice0/Obligations.lean ====
section
/-! DEFINITION. The statements for the provers, in the order of spec/: reset and step, encoding, lookups, encoder,
decoder, and the rules of the whole machine. -/

open Sys2Proof Sys2Proof.Machine

/-! ### Reset and the step -/

/-- R230: reset, asserted at any time, sets every register to its reset value. -/
def Obligations.ResetSetsEveryRegister : Prop :=
  ∀ s : State, s.move = .reset → ∃ t, step s = .next t ∧
    t.enc = { mode := .off, asel := .base64, grp := #v[0, 0, 0, 0, 0], cnt := 0 } ∧
    t.dec = { mode := .off, asel := .base64, slot := #v[0, 0, 0, 0, 0, 0, 0, 0], scnt := 0,
              obuf := #v[0, 0, 0, 0, 0], olen := 0, opos := 0, eof := false } ∧
    t.seq = { phase := .idle, emitq := [], flush := false }

/-- 70_reset_and_hazards.md section 1 (R231): a reset abandons the command without a response, withdraws its request,
takes back nothing observed, and a late answer to that request changes nothing the block has. That the model counts
withdrawn requests is its own choice (log 7). -/
def Obligations.ResetAbandonsTheCommand : Prop :=
  (∀ s : State, s.move = .reset → ∃ t, step s = .next t ∧ t.request = none ∧ t.io.trace = s.io.trace ∧
    t.io.commands = s.io.commands ∧ t.io.sinkAnswers = s.io.sinkAnswers ∧
    t.io.sourceAnswers = s.io.sourceAnswers ∧ t.io.sourceRepeat = s.io.sourceRepeat ∧
    t.io.withdrawn = (if s.request = none then s.io.withdrawn else s.io.withdrawn + 1)) ∧
  (∀ s : State, s.move = .lateAnswer → s.io.withdrawn ≠ 0 → ∃ t, step s = .next t ∧
    t.enc = s.enc ∧ t.dec = s.dec ∧ t.seq = s.seq ∧ t.io.trace = s.io.trace ∧
    t.io.commands = s.io.commands ∧ t.io.sinkAnswers = s.io.sinkAnswers ∧
    t.io.sourceAnswers = s.io.sourceAnswers ∧ t.io.sourceRepeat = s.io.sourceRepeat ∧
    t.io.withdrawn + 1 = s.io.withdrawn)

/-- A step in IDLE runs the command the host serves: it is exec of the decoded instruction at the state without that
word. A word placed by `withFetchWord` is the one the next step runs. The host's lists are the model's choice (log 1,
3). -/
def Obligations.StepRunsTheDecodedCommand : Prop :=
  (∀ (s : State) (w : Word) (ws : List Word) (i : Instr),
    s.seq.phase = .idle → s.move = .serve → s.io.commands = w :: ws → decode w = .ok i →
    step s = exec i { s with io := { s.io with commands := ws, schedule := s.io.schedule.tail } }) ∧
  (∀ (s : State) (w : Word) (i : Instr),
    s.seq.phase = .idle → s.move = .present w → decode w = .ok i →
    step s = exec i { s with io := { s.io with schedule := s.io.schedule.tail } }) ∧
  (∀ (s : State) (nbits w : Nat) (i : Instr), decodeTableWord nbits w = some i →
    step (s.withFetchWord nbits w) = exec i { s with seq := { s.seq with phase := .idle } })

/-- R82: a word with a reserved OP, RSV nonzero or a field marked "0" nonzero has one effect, the response 0x7000,
whether the host serves the word or presents it in its move. -/
def Obligations.IllegalWordOnlyResponds : Prop :=
  ∀ (s : State) (w : Word) (ws : List Word), s.seq.phase = .idle →
    (s.move = .serve ∧ s.io.commands = w :: ws ∨ s.move = .present w ∧ s.io.commands = ws) →
    ((opField w = 0 ∨ 8 ≤ (opField w).toNat) ∨ rsvField w ≠ 0 ∨
      ((opField w = 1 ∨ opField w = 4) ∧ dataField w ≠ 0) ∨
      (opField w = 2 ∧ aselField w ≠ 0) ∨
      ((opField w = 3 ∨ opField w = 5) ∧ (aselField w ≠ 0 ∨ dataField w ≠ 0))) →
    step s = .next { s with
      io := { s.io with commands := ws, schedule := s.io.schedule.tail,
                        trace := s.io.trace ++ [.response 0x7000] } }

/-- 70_reset_and_hazards.md sections 3 to 5, in the model's own names: where the host gives the block no step. The
faults are the model's choice (log 4, 5, 6, 7). -/
def Obligations.WhereTheHostStopsTheRun : Prop :=
  (∀ s : State, s.seq.phase = .idle → s.move = .serve → s.io.commands = [] → step s = .fault .runEnded) ∧
  (∀ s : State, s.seq.phase = .encEmit → s.move = .serve → s.seq.emitq ≠ [] → s.io.sinkAnswers = [] →
    step s = .fault .noSinkAnswer) ∧
  (∀ s : State, s.seq.phase = .encFlush → s.move = .serve → s.io.sinkAnswers = [] → step s = .fault .noSinkAnswer) ∧
  (∀ s : State, s.seq.phase = .decFill → s.move = .serve → s.io.sourceAnswers = [] → s.io.sourceRepeat = [] →
    step s = .fault .noSourceAnswer) ∧
  (∀ (s : State) (w : Word), s.seq.phase ≠ .idle → s.move = .present w → step s = .fault .commandWhileBusy) ∧
  (∀ s : State, s.move = .lateAnswer → s.io.withdrawn = 0 → step s = .fault .answerWithoutRequest)

/-! ### Encoding -/

/-- Words written out bit by bit from 30_encoding.md section 3 decode to the commands they stand for. -/
def Obligations.WrittenWordsDecode : Prop :=
  decode 0b0001_1000_0000_0000 = .ok (.encInit .base32) ∧
  decode 0b0010_0000_1111_1111 = .ok (.encPut 0xFF) ∧
  decode 0b0011_0000_0000_0000 = .ok .encFinal ∧
  decode 0b0100_0100_0000_0000 = .ok (.decInit .base64url) ∧
  decode 0b0101_0000_0000_0000 = .ok .decNext ∧
  decode 0b0110_1100_0001_1111 = .ok (.lutSym .base32hex 31) ∧
  decode 0b0111_0000_0011_1101 = .ok (.lutVal .base64 0x3D)

/-- 30_encoding.md section 3: decoding and encoding are inverse, on every word and every command. -/
def Obligations.DecodeAndEncodeAgree : Prop :=
  ∀ (w : Word) (i : Instr), decode w = .ok i ↔ encode i = w

/-- 30_encoding.md sections 3 and 4 (R84 against R80): the decode procedure accepts a word exactly when it selects a
row of the opcode map, and then the row of the command it gives; no word selects two rows. -/
def Obligations.DecodeFollowsTheOpcodeMap : Prop :=
  (∀ w : Word, (∃ i, decode w = .ok i) ↔ wellFormedWord w = true) ∧
  (∀ (w : Word) (i : Instr), decode w = .ok i → i.row ∈ opcodeRows ∧ ∀ r ∈ opcodeRows, r.selects w = true ↔ r = i.row)

/-- 30_encoding.md section 4: of the 65536 words 2314 are commands. -/
def Obligations.LegalWordCount : Prop :=
  ((List.range 65536).countP fun n => (decode (BitVec.ofNat 16 n)).isOk) = 2314

/-- 30_encoding.md section 5, on a line of each of the seven forms and of each pseudo-command: what the assembler reads
(blanks as log 15 has them). -/
def Obligations.AssemblerLines : Prop :=
  assembleLine "ENC_INIT b64".toList = some [.encInit .base64] ∧
  assembleLine "ENC_PUT 0xFF".toList = some [.encPut 0xFF] ∧
  assembleLine "ENC_FINAL".toList = some [.encFinal] ∧
  assembleLine "DEC_INIT b32hex ; a comment".toList = some [.decInit .base32hex] ∧
  assembleLine "DEC_NEXT".toList = some [.decNext] ∧
  assembleLine "LUT_VAL b64url, 'A'".toList = some [.lutVal .base64url 0x41] ∧
  assembleLine "LUT_SYM b32, 0x1F".toList = some [.lutSym .base32 31] ∧
  assembleLine "ENC_PUTS 1, 255".toList = some [.encPut 1, .encPut 255] ∧
  assembleLine "ENC_PUTS".toList = some [] ∧
  assembleLine "ENC_STR \"fo\"".toList = some [.encPut 0x66, .encPut 0x6F] ∧
  assembleLine "ENC_PUT 256".toList = none

/-! ### Lookups -/

/-- 40_alphabet.md section 1 (R103): N entries, pairwise distinct, none equal to `=`; and the two lookups are inverse. -/
def Obligations.TablesAndLookups : Prop :=
  (∀ a, (table a).length = numSymbols a ∧ (table a).Nodup ∧ padOctet ∉ table a) ∧
  (∀ a v, v < numSymbols a → ∃ c, sym a v = some c ∧ val a c = some v) ∧
  (∀ a c v, val a c = some v → sym a v = some c)

/-- 40_alphabet.md section 2 (R105): the closed forms of the value lookup. -/
def Obligations.ValueLookupClosedForms : Prop :=
  ∀ (a : Asel) (c : Byte), val a c =
    (let n := c.toNat
     let sixtyFour : Option Nat :=
       if 0x41 ≤ n ∧ n ≤ 0x5A then some (n - 0x41)
       else if 0x61 ≤ n ∧ n ≤ 0x7A then some (n - 0x47)
       else if 0x30 ≤ n ∧ n ≤ 0x39 then some (n + 0x04)
       else none
     match a with
     | .base64 => if n = 0x2B then some 62 else if n = 0x2F then some 63 else sixtyFour
     | .base64url => if n = 0x2D then some 62 else if n = 0x5F then some 63 else sixtyFour
     | .base32 =>
       if 0x41 ≤ n ∧ n ≤ 0x5A then some (n - 0x41)
       else if 0x32 ≤ n ∧ n ≤ 0x37 then some (n - 0x18) else none
     | .base32hex =>
       if 0x30 ≤ n ∧ n ≤ 0x39 then some (n - 0x30)
       else if 0x41 ≤ n ∧ n ≤ 0x56 then some (n - 0x37) else none)

/-- R106: `=` is PAD, a character of the table is its index, any other character is foreign. -/
def Obligations.ClassifyCharacter : Prop :=
  ∀ a c, (c = 0x3D → classify a c = .pad) ∧
    (∀ i, c ≠ 0x3D → val a c = some i → classify a c = .index i) ∧
    (c ≠ 0x3D → val a c = none → classify a c = .foreign)

/-- R107: LUT_SYM responds with the octet of table entry v when v < N, else RANGE, and does nothing else. -/
def Obligations.LutSymAnswers : Prop :=
  ∀ (a : Asel) (v : Byte) (s : State),
    (v.toNat < numSymbols a → ∃ c : Byte, (table a)[v.toNat]? = some c ∧
      exec (.lutSym a v) s = .next (s.observe (.response (0x10#8 ++ c)))) ∧
    (numSymbols a ≤ v.toNat → exec (.lutSym a v) s = .next (s.observe (.response 0x6000)))

/-- R108: LUT_VAL responds with the index of the character, zero-extended to 8 bits, when it is in the table, else
NOTFOUND, and does nothing else. -/
def Obligations.LutValAnswers : Prop :=
  ∀ (a : Asel) (c : Byte) (s : State),
    (∀ i, (table a)[i]? = some c → exec (.lutVal a c) s = .next (s.observe (.response (0x10#8 ++ BitVec.ofNat 8 i)))) ∧
    (c ∉ table a → exec (.lutVal a c) s = .next (s.observe (.response 0x5000)))

/-- R109: the result of a LUT command depends only on its word, in every mode, and it changes neither engine. -/
def Obligations.LutReadsNoEngineState : Prop :=
  ∀ a x, (∃ r, ∀ s : State, exec (.lutSym a x) s = .next (s.observe (.response r))) ∧
    (∃ r, ∀ s : State, exec (.lutVal a x) s = .next (s.observe (.response r)))

/-! ### Encoder -/

/-- R121: ENC_INIT, in every mode: the new session's registers and the response OK; ENC_GRP, the decoder and the
ports are untouched. -/
def Obligations.EncInitStartsSession : Prop :=
  ∀ (a : Asel) (s : State), exec (.encInit a) s = .next { s with
    enc := { mode := .ready, asel := a, grp := s.enc.grp, cnt := 0 }
    io := { s.io with trace := s.io.trace ++ [.response 0x0000] } }

/-- R206: a command to an engine that is not READY answers UNUSABLE with its mode and changes nothing. -/
def Obligations.UnusableEngineRefuses : Prop :=
  ∀ s : State,
    (∀ i, (∃ b, i = .encPut b) ∨ i = .encFinal →
      (s.enc.mode = .off → exec i s = .next (s.observe (.response 0x8000))) ∧
      (s.enc.mode = .failed → exec i s = .next (s.observe (.response 0x8200)))) ∧
    (s.dec.mode = .off → exec .decNext s = .next (s.observe (.response 0x8000))) ∧
    (s.dec.mode = .failed → exec .decNext s = .next (s.observe (.response 0x8200)))

/-- R133, the count in its range (R25): an encoder that is not READY answers UNUSABLE; a byte that leaves room is held
and answered OK; the byte that fills the group goes with the others into SEQ_EMITQ, the group is empty, and the response
comes later. -/
def Obligations.EncPutHoldsOrFills : Prop :=
  ∀ (b : Byte) (s : State),
    (s.enc.mode ≠ .ready → exec (.encPut b) s =
      .next (s.observe (.response (0x8#4 ++ s.enc.mode.code.setWidth 4 ++ 0x00#8)))) ∧
    (s.enc.mode = .ready → s.enc.cnt.toNat + 1 < groupBytes s.enc.asel → exec (.encPut b) s = .next { s with
      enc := { s.enc with grp := s.enc.grp.setIfInBounds s.enc.cnt.toNat b, cnt := s.enc.cnt + 1 }
      io := { s.io with trace := s.io.trace ++ [.response 0x0000] } }) ∧
    (s.enc.mode = .ready → s.enc.cnt.toNat + 1 = groupBytes s.enc.asel → exec (.encPut b) s = .next { s with
      enc := { s.enc with grp := s.enc.grp.setIfInBounds s.enc.cnt.toNat b, cnt := 0 }
      seq := { phase := .encEmit, flush := false,
               emitq := (pack s.enc.asel (s.enc.grp.setIfInBounds s.enc.cnt.toNat b)).filterMap (sym s.enc.asel) } })

/-- R134, the count in its range (R25): an encoder that is not READY answers UNUSABLE; no byte held, only the flush is to
come; else the padded symbols of the k held bytes, zero-filled. The group is empty and the response comes later. -/
def Obligations.EncFinalPadsAndFlushes : Prop :=
  ∀ s : State,
    (s.enc.mode ≠ .ready → exec .encFinal s =
      .next (s.observe (.response (0x8#4 ++ s.enc.mode.code.setWidth 4 ++ 0x00#8)))) ∧
    (s.enc.mode = .ready → s.enc.cnt = 0 → exec .encFinal s = .next { s with
      enc := { s.enc with cnt := 0 }
      seq := { phase := .encFlush, flush := true, emitq := [] } }) ∧
    (s.enc.mode = .ready → s.enc.cnt ≠ 0 → s.enc.cnt.toNat < groupBytes s.enc.asel → exec .encFinal s = .next { s with
      enc := { s.enc with cnt := 0 }
      seq := { phase := .encEmit, flush := true,
               emitq := ((pack s.enc.asel (zeroFill s.enc.cnt.toNat s.enc.grp)).take
                   (realSymbols s.enc.asel s.enc.cnt.toNat)).filterMap (sym s.enc.asel) ++
                 List.replicate (groupSymbols s.enc.asel - realSymbols s.enc.asel s.enc.cnt.toNat) 0x3D } })

/-- 41_encoder.md section 2 (R127): the symbol formulas are the slices of the group taken as one number, most
significant first. -/
def Obligations.PackingIsSlicing : Prop :=
  ∀ (a : Asel) (g : EncodeGroup), pack a g = (List.range (groupSymbols a)).map (symbolValue a g)

/-- 41_encoder.md section 2 (R127, R131, R132): the octets of a full group are GS table entries, one per symbol value. -/
def Obligations.FullGroupOctets : Prop :=
  ∀ (a : Asel) (g : EncodeGroup), (fullGroupOctets a g).length = groupSymbols a ∧
    ∀ i, i < groupSymbols a → (fullGroupOctets a g)[i]? = (table a)[symbolValue a g i]? ∧
      symbolValue a g i < numSymbols a

/-- 41_encoder.md section 2 (R128 to R130): the octets of a final group of k bytes are its REAL(k) symbols, missing
bytes taken as zero, and then `=` up to GS. -/
def Obligations.FinalGroupOctets : Prop :=
  ∀ (a : Asel) (k : Nat) (g : EncodeGroup), 0 < k → k < groupBytes a →
    realSymbols a k < groupSymbols a ∧ (finalGroupOctets a k g).length = groupSymbols a ∧
    (∀ i, i < realSymbols a k →
      (finalGroupOctets a k g)[i]? = (table a)[symbolValue a (groupOf (g.toList.take k)) i]?) ∧
    (∀ i, realSymbols a k ≤ i → i < groupSymbols a → (finalGroupOctets a k g)[i]? = some 0x3D)

/-- 41_encoder.md section 2 (R128, R129): the padding tables, and the formula REAL(k) = ceil(8k / BPS). -/
def Obligations.PaddingTables : Prop :=
  (∀ a, family a = .byte → [1, 2, 3].map (realSymbols a) = [2, 3, 4]) ∧
  (∀ a, family a = .quintet → [1, 2, 3, 4, 5].map (realSymbols a) = [2, 4, 5, 7, 8]) ∧
  (∀ a k, 8 * k ≤ realSymbols a k * bitsPerSymbol a ∧ ∀ r, 8 * k ≤ r * bitsPerSymbol a → realSymbols a k ≤ r)

/-- 41_encoder.md section 4 (R135): the ENC_EMIT step writes the head of SEQ_EMITQ and acts on the answer. That SEQ_FLUSH
keeps its value where the command ends is read from the rules (log 14). -/
def Obligations.EmitStepWritesTheHead : Prop :=
  ∀ (s : State) (c : Byte) (q : List Byte) (rest : List SinkAnswer),
    s.seq.phase = .encEmit → s.move = .serve → s.seq.emitq = c :: q → s.request = some (.sinkWrite c) ∧
    (s.io.sinkAnswers = .ack :: rest → q ≠ [] →
      step s = .next { s.sinkAnswered (.sinkWrite c .ack) rest with seq := { s.seq with emitq := q } }) ∧
    (s.io.sinkAnswers = .ack :: rest → q = [] → s.seq.flush = true →
      step s = .next { s.sinkAnswered (.sinkWrite c .ack) rest with
        seq := { s.seq with emitq := [], phase := .encFlush } }) ∧
    (s.io.sinkAnswers = .ack :: rest → q = [] → s.seq.flush = false →
      step s = .next ({ s.sinkAnswered (.sinkWrite c .ack) rest with
        seq := { s.seq with emitq := [], phase := .idle } }.observe (.response 0x0000))) ∧
    (s.io.sinkAnswers = .err :: rest →
      step s = .next ({ s.sinkAnswered (.sinkWrite c .err) rest with
        enc := { s.enc with mode := .failed }
        seq := { s.seq with emitq := [], phase := .idle } }.observe (.response 0x4200)))

/-- 41_encoder.md section 4 (R136): the ENC_FLUSH step flushes the sink and acts on the answer. That SEQ_FLUSH keeps its
value where the command ends is read from the rules (log 14). -/
def Obligations.FlushStepEndsTheCommand : Prop :=
  ∀ (s : State) (rest : List SinkAnswer),
    s.seq.phase = .encFlush → s.move = .serve → s.request = some .sinkFlush ∧
    (s.io.sinkAnswers = .ack :: rest →
      step s = .next ({ s.sinkAnswered (.sinkFlush .ack) rest with
        seq := { s.seq with phase := .idle } }.observe (.response 0x0000))) ∧
    (s.io.sinkAnswers = .err :: rest →
      step s = .next ({ s.sinkAnswered (.sinkFlush .err) rest with
        enc := { s.enc with mode := .failed }
        seq := { s.seq with phase := .idle } }.observe (.response 0x4300)))

/-- 20_memory.md section 5 (R60): with every answer Ack, a command's sink transactions are the octets of SEQ_EMITQ,
head first, then for ENC_FINAL one flush, and the response comes last. That SEQ_FLUSH keeps its value at the end is read
from the rules (log 14). -/
def Obligations.TransactionsThenFlushThenResponse : Prop :=
  ∀ (s : State) (n : Nat) (rest : List SinkAnswer),
    s.seq.phase = .encEmit → s.seq.emitq ≠ [] → s.io.schedule = [] →
    n = s.seq.emitq.length + (if s.seq.flush then 1 else 0) →
    s.io.sinkAnswers = List.replicate n .ack ++ rest →
    runSteps n s = .next { s with
      seq := { s.seq with emitq := [], phase := .idle }
      io := { s.io with
        sinkAnswers := rest
        trace := s.io.trace ++ s.seq.emitq.map (.sinkWrite · .ack) ++
          (if s.seq.flush then [.sinkFlush .ack] else []) ++ [.response 0x0000] } }

/-- 41_encoder.md section 4 (R137): after j acknowledged writes an Err ends the command: those j octets stay emitted,
the octet refused and the rest do not follow, the encoder is FAILED, and the count is what the command left. That
SEQ_FLUSH keeps its value at the end is read from the rules (log 14). -/
def Obligations.EmissionStopsAtTheFirstError : Prop :=
  ∀ (s : State) (j : Nat) (rest : List SinkAnswer),
    s.seq.phase = .encEmit → s.io.schedule = [] → j < s.seq.emitq.length →
    s.io.sinkAnswers = List.replicate j .ack ++ .err :: rest →
    ∃ t, runSteps (j + 1) s = .next t ∧ t.emitted = s.emitted ++ s.seq.emitq.take j ∧
      t.responses = s.responses ++ [0x4200] ∧ t.enc = { s.enc with mode := .failed } ∧ t.dec = s.dec ∧
      t.seq = { s.seq with emitq := [], phase := .idle } ∧ t.io.sinkAnswers = rest

/-- 41_encoder.md section 5 (R138): after an ENC_FINAL that returned OK, a second one writes no symbol: it only
flushes. -/
def Obligations.FinalizeTwiceOnlyFlushes : Prop :=
  ∀ (s : State) (n : Nat) (rest : List SinkAnswer),
    Quiet s → s.enc.mode = .ready → s.enc.cnt.toNat < groupBytes s.enc.asel →
    s.io.commands = [encode .encFinal, encode .encFinal] →
    s.io.sinkAnswers = List.replicate n .ack ++ .ack :: rest →
    n = (if s.enc.cnt = 0 then 1 else groupSymbols s.enc.asel + 1) →
    ∃ k t u, runSteps k s = .next t ∧ t.io.commands = [encode .encFinal] ∧ Quiet t ∧
      t.responses = s.responses ++ [0x0000] ∧ runSteps 2 t = .next u ∧ Quiet u ∧
      u.io.trace = t.io.trace ++ [.sinkFlush .ack, .response 0x0000] ∧ u.emitted = t.emitted ∧ u.enc = t.enc

/-- 41_encoder.md section 5 (R142): a run of ENC_PUTs to a READY encoder, every sink answer Ack, writes the symbols of
the complete groups of the held bytes followed by the bytes put, answers OK to each, and holds the bytes left over. -/
def Obligations.EncoderWritesTheCompleteGroups : Prop :=
  ∀ (s : State) (xs : List Byte) (cs : List Word) (n : Nat) (rest : List SinkAnswer),
    Quiet s → s.enc.mode = .ready → s.enc.cnt.toNat < groupBytes s.enc.asel →
    s.io.commands = xs.map (fun b => encode (.encPut b)) ++ cs →
    n = (s.enc.cnt.toNat + xs.length) / groupBytes s.enc.asel * groupSymbols s.enc.asel →
    s.io.sinkAnswers = List.replicate n .ack ++ rest →
    ∃ k t, runSteps k s = .next t ∧ Quiet t ∧ t.io.commands = cs ∧ t.io.sinkAnswers = rest ∧
      t.emitted = s.emitted ++ encodedGroups s.enc.asel (s.enc.held ++ xs) ∧
      t.responses = s.responses ++ List.replicate xs.length 0x0000 ∧
      t.enc.mode = .ready ∧ t.enc.asel = s.enc.asel ∧ t.dec = s.dec ∧
      t.enc.cnt.toNat = (s.enc.cnt.toNat + xs.length) % groupBytes s.enc.asel ∧
      t.enc.held = leftover (groupBytes s.enc.asel) (s.enc.held ++ xs)

/-- 41_encoder.md section 5 (R139): a session of L ENC_PUTs and one ENC_FINAL, every answer Ack, writes exactly
ceil(L/GB)*GS octets, of which GS - REAL(L mod GB) are padding when L mod GB is not 0, and none otherwise. -/
def Obligations.PaddingLengthLaw : Prop :=
  ∀ (s : State) (a : Asel) (bs : List Byte) (n : Nat) (rest : List SinkAnswer),
    Quiet s →
    s.io.commands = encode (.encInit a) :: (bs.map (fun b => encode (.encPut b)) ++ [encode .encFinal]) →
    n = (bs.length + (groupBytes a - 1)) / groupBytes a * groupSymbols a →
    s.io.sinkAnswers = List.replicate n .ack ++ .ack :: rest →
    ∃ k t σ, runSteps k s = .next t ∧ Quiet t ∧ t.io.commands = [] ∧ t.io.sinkAnswers = rest ∧
      t.emitted = s.emitted ++ σ ∧ σ.length = n ∧
      σ.count 0x3D = (if bs.length % groupBytes a = 0 then 0
        else groupSymbols a - realSymbols a (bs.length % groupBytes a))

/-- 41_encoder.md section 5 (R142, last sentence): whatever the sink answers and however far the run has come, the
octets a session has emitted are the first ones of its encoding: none is missing, doubled or out of order. -/
def Obligations.EmittedIsAlwaysAPrefix : Prop :=
  ∀ (s t : State) (a : Asel) (bs : List Byte) (k : Nat),
    Quiet s →
    s.io.commands = encode (.encInit a) :: (bs.map (fun b => encode (.encPut b)) ++ [encode .encFinal]) →
    runSteps k s = .next t → ∃ p, t.emitted = s.emitted ++ p ∧ p <+: encoded a bs

/-- 20_memory.md section 5 (R65): every octet a step writes to the sink is of the session's alphabet or `=`. -/
def Obligations.SinkGetsOnlyAlphabetAndPadding : Prop :=
  ∀ s t : State, Inv s → step s = .next t → ∃ es, t.io.trace = s.io.trace ++ es ∧
    ∀ c a, Event.sinkWrite c a ∈ es → c ∈ table s.enc.asel ∨ c = 0x3D

/-! ### Decoder -/

/-- R151: DEC_INIT, in every mode: the new session's registers and the response OK; the encoder and the ports are
untouched. -/
def Obligations.DecInitStartsSession : Prop :=
  ∀ (a : Asel) (s : State), exec (.decInit a) s = .next { s with
    dec := { mode := .ready, asel := a, slot := s.dec.slot, scnt := 0, obuf := s.dec.obuf,
             olen := 0, opos := 0, eof := false }
    io := { s.io with trace := s.io.trace ++ [.response 0x0000] } }

/-- R160, the buffer length in its range (R30): a decoder that is not READY answers UNUSABLE; else a buffered byte, else
EOD after the end, else a fill starts and the response comes later. -/
def Obligations.DecNextServesEndsOrFills : Prop :=
  ∀ s : State,
    (s.dec.mode ≠ .ready → exec .decNext s =
      .next (s.observe (.response (0x8#4 ++ s.dec.mode.code.setWidth 4 ++ 0x00#8)))) ∧
    (s.dec.mode = .ready → s.dec.olen.toNat ≤ 5 → s.dec.opos.toNat < s.dec.olen.toNat → ∃ b, s.dec.obuf[s.dec.opos.toNat]? = some b ∧
      exec .decNext s = .next { s with
        dec := { s.dec with opos := s.dec.opos + 1 }
        io := { s.io with trace := s.io.trace ++ [.response (0x10#8 ++ b)] } }) ∧
    (s.dec.mode = .ready → s.dec.olen.toNat ≤ s.dec.opos.toNat → s.dec.eof = true →
      exec .decNext s = .next (s.observe (.response 0x2000))) ∧
    (s.dec.mode = .ready → s.dec.olen.toNat ≤ s.dec.opos.toNat → s.dec.eof = false →
      exec .decNext s = .next { s with
        dec := { s.dec with scnt := 0 }
        seq := { s.seq with phase := .decFill } })

/-- R161: a foreign character changes no register; another one fills the next slot, and the fill goes on until the
group is full, when it ends in this step (how it ends is R162 and R166). -/
def Obligations.FillStepOnACharacter : Prop :=
  ∀ (s : State) (c : Byte) (rest : List SourceAnswer),
    s.seq.phase = .decFill → s.move = .serve → s.nextSource = some (.chr c, rest) →
    s.request = some .sourceRead ∧
    (classify s.dec.asel c = .foreign → step s = .next (s.sourceAnswered (.chr c) rest)) ∧
    (∀ x, (classify s.dec.asel c = .pad ∧ x = 0x40) ∨ (∃ i, classify s.dec.asel c = .index i ∧ x = BitVec.ofNat 7 i) →
      (s.dec.scnt.toNat + 1 < groupSymbols s.dec.asel →
        step s = .next { s.sourceAnswered (.chr c) rest with
          dec := { s.dec with slot := s.dec.slot.setIfInBounds s.dec.scnt.toNat x, scnt := s.dec.scnt + 1 } }) ∧
      (s.dec.scnt.toNat + 1 = groupSymbols s.dec.asel →
        ∃ t, step s = .next t ∧ t.seq.phase = .idle ∧ t.dec.slot = s.dec.slot.setIfInBounds s.dec.scnt.toNat x))

/-- R162: the character that completes a valid group ends the command with its first byte; the others wait in the
output buffer. -/
def Obligations.ValidGroupServesItsFirstByte : Prop :=
  ∀ (s : State) (c : Byte) (rest : List SourceAnswer) (x : Slot) (k : Nat),
    s.seq.phase = .decFill → s.move = .serve → s.nextSource = some (.chr c, rest) →
    (classify s.dec.asel c).slot? = some x → s.dec.scnt.toNat + 1 = groupSymbols s.dec.asel →
    validate s.dec.asel (s.dec.slot.setIfInBounds s.dec.scnt.toNat x) = .ok k →
    ∃ t b bs, step s = .next t ∧
      unpack s.dec.asel (s.dec.slot.setIfInBounds s.dec.scnt.toNat x) k = b :: bs ∧
      (b :: bs).length = numBytes s.dec.asel k ∧
      (∀ j, j < 5 → t.dec.obuf[j]? = if j < numBytes s.dec.asel k then (b :: bs)[j]? else s.dec.obuf[j]?) ∧
      t.dec.olen.toNat = numBytes s.dec.asel k ∧ t.dec.opos = 1 ∧ t.dec.scnt = 0 ∧
      t.dec.slot = s.dec.slot.setIfInBounds s.dec.scnt.toNat x ∧ t.dec.mode = s.dec.mode ∧
      t.dec.asel = s.dec.asel ∧ t.dec.eof = s.dec.eof ∧ t.enc = s.enc ∧
      t.seq = { s.seq with phase := .idle } ∧
      t.io = ((s.sourceAnswered (.chr c) rest).observe (.response (0x10#8 ++ b))).io

/-- 42_decoder.md section 4 (R166): the character that completes an invalid group ends the command with MALFORMED and
its cause; the decoder is FAILED and no byte is output. That DEC_SCNT keeps its value, GS - 1, is read from the rules
(log 13). -/
def Obligations.InvalidGroupFails : Prop :=
  ∀ (s : State) (c : Byte) (rest : List SourceAnswer) (x : Slot) (cause : Cause),
    s.seq.phase = .decFill → s.move = .serve → s.nextSource = some (.chr c, rest) →
    (classify s.dec.asel c).slot? = some x → s.dec.scnt.toNat + 1 = groupSymbols s.dec.asel →
    validate s.dec.asel (s.dec.slot.setIfInBounds s.dec.scnt.toNat x) = .error cause →
    step s = .next ({ s.sourceAnswered (.chr c) rest with
      dec := { s.dec with slot := s.dec.slot.setIfInBounds s.dec.scnt.toNat x, mode := .failed }
      seq := { s.seq with phase := .idle } }.observe (.response (0x3#4 ++ cause.code ++ 0x00#8)))

/-- R163, R164, R165: the fill step on End with no slot filled, on End with a partial group, and on Err. -/
def Obligations.FillStepOnEndOrError : Prop :=
  ∀ (s : State) (rest : List SourceAnswer), s.seq.phase = .decFill → s.move = .serve →
    (s.nextSource = some (.endOfInput, rest) → s.dec.scnt = 0 →
      step s = .next ({ s.sourceAnswered .endOfInput rest with
        dec := { s.dec with eof := true }
        seq := { s.seq with phase := .idle } }.observe (.response 0x2000))) ∧
    (s.nextSource = some (.endOfInput, rest) → 1 ≤ s.dec.scnt.toNat →
      s.dec.scnt.toNat ≤ groupSymbols s.dec.asel - 1 →
      step s = .next ({ s.sourceAnswered .endOfInput rest with
        dec := { s.dec with mode := .failed }
        seq := { s.seq with phase := .idle } }.observe (.response 0x3100))) ∧
    (s.nextSource = some (.err, rest) →
      step s = .next ({ s.sourceAnswered .err rest with
        dec := { s.dec with mode := .failed }
        seq := { s.seq with phase := .idle } }.observe (.response 0x4100)))

/-- R158: each cause exactly when its condition is the first to hold, and TRUNCATED never; a group that passes has its
real symbols before its padding and a count the family allows. -/
def Obligations.ValidationCausesInOrder : Prop :=
  ∀ (a : Asel) (s : DecodeGroup),
    let early := s[0] = 0x40 ∨ s[1] = 0x40
    let symbolAfterPad := ∃ i j, ∃ (_ : i < j) (hj : j < 8), j < groupSymbols a ∧ s[i] = 0x40 ∧ s[j] ≠ 0x40
    let firstPad := fun k => k ≤ groupSymbols a ∧ (∀ i, (h : i < 8) → i < k → s[i] ≠ 0x40) ∧
      (∀ h : k < 8, k < groupSymbols a → s[k] = 0x40)
    let allowed := fun k => k ∈ (match family a with | .byte => [2, 3, 4] | .quintet => [2, 4, 5, 7, 8])
    (validate a s = .error .earlyPad ↔ early) ∧
    (validate a s = .error .padThenSymbol ↔ ¬ early ∧ symbolAfterPad) ∧
    (validate a s = .error .badCount ↔ ¬ early ∧ ¬ symbolAfterPad ∧ ∃ k, firstPad k ∧ ¬ allowed k) ∧
    (∀ k, validate a s = .ok k ↔ ¬ early ∧ ¬ symbolAfterPad ∧ firstPad k ∧ allowed k) ∧
    validate a s ≠ .error .truncated

/-- 42_decoder.md section 2 (R152, R156): the valid byte-family quartets are RRRR, RRRP and RRPP, and a byte-family
group never fails on its count; (R153, R157) the valid quintet-family groups are 2, 4, 5, 7 or 8 real symbols with
padding after them, and one of 3 or 6 fails on its count; the byte counts of each family; the valid counts are exactly
the real-symbol counts the encoder produces. -/
def Obligations.ValidGroupsOfEachFamily : Prop :=
  (∀ (a : Asel) (s : DecodeGroup), family a = .byte →
    ((∃ k, validate a s = .ok k) ↔ s[0] ≠ 0x40 ∧ s[1] ≠ 0x40 ∧ (s[2] = 0x40 → s[3] = 0x40)) ∧
    validate a s ≠ .error .badCount) ∧
  (∀ (a : Asel) (s : DecodeGroup), family a = .quintet →
    let leading := fun k => (∀ i, (h : i < 8) → i < k → s[i] ≠ 0x40) ∧ (∀ i, (h : i < 8) → k ≤ i → s[i] = 0x40)
    (∀ k, validate a s = .ok k ↔ k ∈ [2, 4, 5, 7, 8] ∧ leading k) ∧
    (validate a s = .error .badCount ↔ leading 3 ∨ leading 6)) ∧
  (∀ a, family a = .byte → [2, 3, 4].map (numBytes a) = [1, 2, 3]) ∧
  (∀ a, family a = .quintet → [2, 4, 5, 7, 8].map (numBytes a) = [1, 2, 3, 4, 5]) ∧
  (∀ a k, k ∈ validCounts a ↔ ∃ n, 1 ≤ n ∧ n ≤ groupBytes a ∧ k = realSymbols a n) ∧
  (∀ a n, 1 ≤ n → n ≤ groupBytes a → numBytes a (realSymbols a n) = n)

/-- 42_decoder.md section 3 (R175): the reconstruction formulas are the slices of the real symbols taken as one number. -/
def Obligations.ReconstructionIsSlicing : Prop :=
  ∀ (a : Asel) (s : DecodeGroup) (k : Nat), k ∈ validCounts a →
    (∀ i, (h : i < 8) → i < k → s[i].toNat < numSymbols a) →
    unpack a s k = (List.range (numBytes a k)).map (byteValue a s k)

/-- 42_decoder.md section 3 (R170, R172): reconstruction undoes packing, for every number n of bytes of a group: the
REAL(n) symbols of n zero-filled bytes and padding after them validate, and give back those n bytes. -/
def Obligations.ReconstructionUndoesPacking : Prop :=
  ∀ (a : Asel) (g : EncodeGroup) (n : Nat) (s : DecodeGroup), 1 ≤ n → n ≤ groupBytes a →
    (∀ i, (h : i < 8) → i < groupSymbols a →
      some s[i] = if i < realSymbols a n then ((pack a (zeroFill n g))[i]?).map (BitVec.ofNat 7) else some 0x40) →
    validate a s = .ok (realSymbols a n) ∧ unpack a s (realSymbols a n) = g.toList.take n

/-- R174: the unused low bits of a group's last real symbol do not matter: two groups that differ only there, or after
the real symbols, give the same bytes. -/
def Obligations.UnusedBitsAreIgnored : Prop :=
  ∀ (a : Asel) (s s' : DecodeGroup) (k : Nat), k ∈ validCounts a →
    (∀ i, (h : i < 8) → i + 1 < k → s[i] = s'[i]) →
    (∀ i, (h : i < 8) → i + 1 = k →
      s[i].toNat / 2 ^ (k * bitsPerSymbol a - 8 * numBytes a k) =
        s'[i].toNat / 2 ^ (k * bitsPerSymbol a - 8 * numBytes a k)) →
    unpack a s k = unpack a s' k

/-- 70_reset_and_hazards.md section 4 (R239): no bound on foreign characters: over any number of them the decoder stays
in DEC_FILL and no register changes; a fill whose source supplies foreign characters for ever takes a further step after
any number of steps and never responds; and so a DEC_NEXT that starts one never completes. That an unending source ends
in items that repeat is the model's choice (log 16). -/
def Obligations.ForeignCharactersAreNotBounded : Prop :=
  (∀ (s : State) (cs : List Byte) (rest : List SourceAnswer),
    s.seq.phase = .decFill → s.io.schedule = [] → (∀ c ∈ cs, classify s.dec.asel c = .foreign) →
    s.io.sourceAnswers = cs.map .chr ++ rest →
    runSteps cs.length s = .next { s with
      io := { s.io with sourceAnswers := rest, trace := s.io.trace ++ cs.map (fun c => .sourceRead (.chr c)) } }) ∧
  (∀ (s : State) (k : Nat), s.seq.phase = .decFill → s.io.schedule = [] → UnendingForeign s →
    ∃ t, runSteps k s = .next t ∧ t.enc = s.enc ∧ t.dec = s.dec ∧ t.seq = s.seq ∧ t.responses = s.responses ∧
      t.itemsConsumed = s.itemsConsumed + k) ∧
  (∀ (s : State) (k : Nat) (ws : List Word), Quiet s → s.io.commands = encode .decNext :: ws →
    s.dec.mode = .ready → s.dec.opos = s.dec.olen → s.dec.eof = false → UnendingForeign s →
    ∃ t, runSteps (k + 1) s = .next t ∧ t.seq.phase = .decFill ∧ t.io.commands = ws ∧ t.responses = s.responses ∧
      t.itemsConsumed = s.itemsConsumed + k)

/-- 42_decoder.md section 5 (R178): foreign octets inserted in or deleted from the source change neither the responses
to any number of DEC_NEXTs nor the decoder's state after them. -/
def Obligations.ForeignOctetsDoNotMatter : Prop :=
  ∀ (s t : State) (src : List SourceAnswer) (m k : Nat),
    Quiet s → s.io.commands = List.replicate m (encode .decNext) →
    src.filter (·.counts s.dec.asel) = s.io.sourceAnswers.filter (·.counts s.dec.asel) →
    runSteps k s = .next t → t.seq.phase = .idle → t.io.commands = [] →
    ∃ k' t', runSteps k' { s with io := { s.io with sourceAnswers := src } } = .next t' ∧
      t'.seq = t.seq ∧ t'.io.commands = [] ∧ t'.dec = t.dec ∧ t'.enc = t.enc ∧ t'.responses = t.responses ∧
      t'.io.sourceAnswers.filter (·.counts s.dec.asel) = t.io.sourceAnswers.filter (·.counts s.dec.asel)

/-- 42_decoder.md section 5 (R180): the responses to the DEC_NEXTs of a session are those of the pure function: the
bytes of each valid group, MALFORMED at the first invalid one or at a partial group, IOERR or EOD at the end, and
UNUSABLE or EOD from then on. -/
def Obligations.DecoderAnswersTheStream : Prop :=
  ∀ (s : State) (cs : List Byte) (broken : Bool) (rest : List SourceAnswer) (m : Nat),
    Quiet s → s.dec.mode = .ready → s.dec.opos = s.dec.olen → s.dec.eof = false →
    s.io.commands = List.replicate m (encode .decNext) →
    s.io.sourceAnswers = cs.map .chr ++ (if broken then .err else .endOfInput) :: rest →
    ∃ k t, runSteps k s = .next t ∧ Quiet t ∧ t.io.commands = [] ∧ t.enc = s.enc ∧
      t.responses = s.responses ++ (decodedResponses s.dec.asel cs broken m).map (·.word)

/-- 42_decoder.md section 5 (R179): for every alphabet and every byte sequence, what a session of ENC_PUTs and one
ENC_FINAL writes to the sink, read back by a decoder of that alphabet, gives those bytes and then EOD. -/
def Obligations.DecodingUndoesEncoding : Prop :=
  ∀ (a : Asel) (bs : List Byte) (s : State) (n : Nat) (restAnswers : List SinkAnswer),
    Quiet s →
    s.io.commands = encode (.encInit a) :: (bs.map (fun b => encode (.encPut b)) ++ [encode .encFinal]) →
    n = (bs.length + (groupBytes a - 1)) / groupBytes a * groupSymbols a + 1 →
    s.io.sinkAnswers = List.replicate n .ack ++ restAnswers →
    ∃ k t σ, runSteps k s = .next t ∧ Quiet t ∧ t.io.commands = [] ∧ t.emitted = s.emitted ++ σ ∧
      ∀ (u : State) (rest : List SourceAnswer), Quiet u →
        u.io.commands = encode (.decInit a) :: List.replicate (bs.length + 1) (encode .decNext) →
        u.io.sourceAnswers = σ.map .chr ++ .endOfInput :: rest →
        ∃ k' v, runSteps k' u = .next v ∧ Quiet v ∧ v.io.commands = [] ∧ v.io.sourceAnswers = rest ∧
          v.responses = u.responses ++ [0x0000] ++ bs.map (fun b => 0x10#8 ++ b) ++ [0x2000]

/-! ### Rules of the whole machine -/

/-- R52: a step reads at most one source item, only in DEC_FILL, and consumes it; after End or Err no item is read
until the next DEC_INIT. -/
def Obligations.SourceReadsAreConsumedOnce : Prop :=
  (∀ s t : State, step s = .next t → t.io.sourceRepeat = s.io.sourceRepeat ∧
    (t.itemsConsumed = s.itemsConsumed ∧ t.io.sourceAnswers = s.io.sourceAnswers ∨
     s.seq.phase = .decFill ∧ t.itemsConsumed = s.itemsConsumed + 1 ∧
       ∃ a, s.nextSource = some (a, t.io.sourceAnswers))) ∧
  (∀ (s t : State) (a : SourceAnswer) (rest : List SourceAnswer), s.seq.phase = .decFill → s.move = .serve →
    s.nextSource = some (a, rest) → a = .endOfInput ∨ a = .err → step s = .next t → DecoderEnded t) ∧
  (∀ s t : State, DecoderEnded s → (∀ w a, s.issued = some w → decode w ≠ .ok (.decInit a)) → step s = .next t →
    DecoderEnded t ∧ t.itemsConsumed = s.itemsConsumed)

/-- 20_memory.md sections 1 and 4 (R57, R58): a port transaction happens only in a step that serves the outstanding
request, it is the one requested, and there is one in each such step. -/
def Obligations.TransactionsAnswerTheRequest : Prop :=
  ∀ s t : State, step s = .next t → ∃ es, t.io.trace = s.io.trace ++ es ∧
    es.countP Event.isTransaction = (if s.move = .serve ∧ s.request ≠ none then 1 else 0) ∧
    (∀ c a, Event.sinkWrite c a ∈ es → s.request = some (.sinkWrite c)) ∧
    (∀ a, Event.sinkFlush a ∈ es → s.request = some .sinkFlush) ∧
    (∀ a, Event.sourceRead a ∈ es → s.request = some .sourceRead)

/-- 30_encoding.md section 2 (R76): a command gets one response, in the step that ends it: the block is in IDLE after
a step of a command exactly when that step gave a response, the last thing observed in it. -/
def Obligations.OneResponseEndsACommand : Prop :=
  ∀ s t : State, s.move = .serve ∨ (∃ w, s.move = .present w) → step s = .next t →
    ∃ es, t.io.trace = s.io.trace ++ es ∧
      ((t.seq.phase = .idle ∧ ∃ txns r, es = txns ++ [.response r] ∧ ∀ e ∈ txns, e.isTransaction = true) ∨
       (t.seq.phase ≠ .idle ∧ ∀ e ∈ es, e.isTransaction = true))

/-- 30_encoding.md section 2 (R77 to R79): every response word has a listed STATUS with a listed INFO, and DATA is 0
unless STATUS is DATA. -/
def Obligations.ResponseWordsAreListed : Prop :=
  ∀ (s t : State) (es : List Event) (r : Word), step s = .next t → t.io.trace = s.io.trace ++ es →
    Event.response r ∈ es →
    (r.extractLsb' 12 4, r.extractLsb' 8 4) ∈
      ([(0, 0), (1, 0), (2, 0), (3, 1), (3, 2), (3, 3), (3, 4), (4, 1), (4, 2), (4, 3), (5, 0), (6, 0), (7, 0),
        (8, 0), (8, 2)] : List (BitVec 4 × BitVec 4)) ∧
    (r.extractLsb' 12 4 ≠ 1 → r.extractLsb' 0 8 = 0)

/-- 60_exceptions.md section 3 (R205): the step in which an engine goes to FAILED responds MALFORMED or IOERR with
DATA 0, leaves the block in IDLE and changes nothing of the other engine (R208); of the encoder's own registers it
changes only the mode. -/
def Obligations.ErrorEntryIsPrecise : Prop :=
  ∀ s t : State, step s = .next t →
    (s.enc.mode ≠ .failed → t.enc.mode = .failed →
      t.seq.phase = .idle ∧ t.dec = s.dec ∧ t.enc = { s.enc with mode := .failed } ∧
      ∃ es r, t.io.trace = s.io.trace ++ es ++ [.response r] ∧ (r = 0x4200 ∨ r = 0x4300)) ∧
    (s.dec.mode ≠ .failed → t.dec.mode = .failed →
      t.seq.phase = .idle ∧ t.enc = s.enc ∧ t.dec.obuf = s.dec.obuf ∧ t.dec.olen = s.dec.olen ∧
      t.dec.opos = s.dec.opos ∧ t.dec.eof = s.dec.eof ∧ t.dec.asel = s.dec.asel ∧
      ∃ es r, t.io.trace = s.io.trace ++ es ++ [.response r] ∧
        r ∈ ([0x3100, 0x3200, 0x3300, 0x3400, 0x4100] : List Word))

/-- R207: an engine leaves FAILED only by its own INIT or by hardware reset. -/
def Obligations.OnlyInitOrResetLeavesFailed : Prop :=
  ∀ s t : State, step s = .next t →
    (s.enc.mode = .failed → t.enc.mode ≠ .failed →
      s.move = .reset ∧ t.enc.mode = .off ∨
      (∃ w a, s.issued = some w ∧ decode w = .ok (.encInit a)) ∧ t.enc.mode = .ready ∧ t.enc.cnt = 0) ∧
    (s.dec.mode = .failed → t.dec.mode ≠ .failed →
      s.move = .reset ∧ t.dec.mode = .off ∨
      (∃ w a, s.issued = some w ∧ decode w = .ok (.decInit a)) ∧ t.dec.mode = .ready ∧
        t.dec.scnt = 0 ∧ t.dec.olen = 0 ∧ t.dec.opos = 0 ∧ t.dec.eof = false)

/-- 10_state.md section 1 (R20): a command or step of one engine neither reads nor writes the other engine's
registers: with other contents there, it does the same and leaves them as they are. -/
def Obligations.EnginesShareNothing : Prop :=
  (∀ (s : State) (d : DecoderRegs) (i : Instr),
    (∃ a, i = .encInit a) ∨ (∃ b, i = .encPut b) ∨ i = .encFinal →
    exec i { s with dec := d } = mapNext (fun t => { t with dec := d }) (exec i s)) ∧
  (∀ (s : State) (e : EncoderRegs) (i : Instr), (∃ a, i = .decInit a) ∨ i = .decNext →
    exec i { s with enc := e } = mapNext (fun t => { t with enc := e }) (exec i s)) ∧
  (∀ (s : State) (d : DecoderRegs), s.seq.phase = .encEmit ∨ s.seq.phase = .encFlush → s.move = .serve →
    step { s with dec := d } = mapNext (fun t => { t with dec := d }) (step s)) ∧
  (∀ (s : State) (e : EncoderRegs), s.seq.phase = .decFill → s.move = .serve →
    step { s with enc := e } = mapNext (fun t => { t with enc := e }) (step s))

/-- 10_state.md section 7 at reset: the reset state meets the invariant of every run. -/
def Obligations.ResetMeetsTheInvariant : Prop := Inv State.reset

/-- 10_state.md section 7 (R39 (a) to (e)) with what the phases of a command add: every step keeps it, from every
state that meets it. -/
def Obligations.EveryStepKeepsTheInvariant : Prop :=
  ∀ s t : State, Inv s → step s = .next t → Inv t

/-- 10_state.md section 7, as a rule of runs: from a state of a run the block itself never stops: only the end of the
run or the host does (the stops are the model's, log 4 to 9). -/
def Obligations.RunsAreSafe : Prop := ∀ s : State, Inv s → SafeFrom s

/-- 30_encoding.md section 3: in IDLE every command completes its issue step, from every state of a run: it has its
response, or it has a request outstanding. -/
def Obligations.EveryCommandIsAccepted : Prop :=
  ∀ (s : State) (i : Instr), Inv s → s.seq.phase = .idle → ∃ t, exec i s = .next t ∧
    ((t.seq.phase = .idle ∧ t.request = none ∧ ∃ r, t.io.trace = s.io.trace ++ [.response r]) ∨
     (t.request ≠ none ∧ t.io.trace = s.io.trace))

/-- 70_reset_and_hazards.md section 5 (R241): a step that gets the answer it waits for is taken, from every state of a
run, whatever the answer. -/
def Obligations.EveryAnswerIsTaken : Prop :=
  ∀ s : State, Inv s → s.move = .serve →
    (s.seq.phase = .encEmit ∨ s.seq.phase = .encFlush → s.io.sinkAnswers ≠ []) →
    (s.seq.phase = .decFill → s.nextSource ≠ none) →
    (s.seq.phase = .idle → s.io.commands ≠ []) → ∃ t, step s = .next t
end

