-- ==== Sys2Proof/Config.lean ====
section
/-! DEFINITION. What an implementation fixes: nothing but a name. Every size of the block follows from the alphabet
selected (00_scope.md R8), every behaviour the source leaves open is decided by the spec (92_eei_decisions.md), and no
value is left free, so there is no free value here. -/

namespace Sys2Proof.Config

/-- The label by which the spec names this hardware version (R3). -/
def hardwareVersion : String := "Moka codec core, spec rev 1, from MOKA v7"

end Sys2Proof.Config
end

