-- ==== Sys2Proof/Laws/Codec.lean ====
section
/-! SUPPORT. The group computations as arithmetic on numbers (41_encoder.md R131, R132; 42_decoder.md R170, R172), so that later proofs
end in omega. -/

namespace Sys2Proof.Machine

theorem toNat_join {m n : Nat} (x : BitVec m) (y : BitVec n) : (x ++ y).toNat = x.toNat * 2 ^ n + y.toNat := by
  rw [BitVec.toNat_append, ← Nat.shiftLeft_add_eq_or_of_lt y.isLt, Nat.shiftLeft_eq]

theorem toNat_slice {m : Nat} (x : BitVec m) (lo n : Nat) : (x.extractLsb' lo n).toNat = x.toNat / 2 ^ lo % 2 ^ n := by
  simp [BitVec.extractLsb'_toNat, Nat.shiftRight_eq_div_pow]

/-! A joined value is typed with its own width, not with a sum, so each pair of widths has its lemma. -/

theorem toNat_join_2_4 (x : BitVec 2) (y : BitVec 4) : BitVec.toNat (w := 6) (x ++ y) = x.toNat * 16 + y.toNat := toNat_join x y
theorem toNat_join_4_2 (x : BitVec 4) (y : BitVec 2) : BitVec.toNat (w := 6) (x ++ y) = x.toNat * 4 + y.toNat := toNat_join x y
theorem toNat_join_3_2 (x : BitVec 3) (y : BitVec 2) : BitVec.toNat (w := 5) (x ++ y) = x.toNat * 4 + y.toNat := toNat_join x y
theorem toNat_join_1_4 (x : BitVec 1) (y : BitVec 4) : BitVec.toNat (w := 5) (x ++ y) = x.toNat * 16 + y.toNat := toNat_join x y
theorem toNat_join_4_1 (x : BitVec 4) (y : BitVec 1) : BitVec.toNat (w := 5) (x ++ y) = x.toNat * 2 + y.toNat := toNat_join x y
theorem toNat_join_2_3 (x : BitVec 2) (y : BitVec 3) : BitVec.toNat (w := 5) (x ++ y) = x.toNat * 8 + y.toNat := toNat_join x y
theorem toNat_join_6_2 (x : BitVec 6) (y : BitVec 2) : BitVec.toNat (w := 8) (x ++ y) = x.toNat * 4 + y.toNat := toNat_join x y
theorem toNat_join_4_4 (x : BitVec 4) (y : BitVec 4) : BitVec.toNat (w := 8) (x ++ y) = x.toNat * 16 + y.toNat := toNat_join x y
theorem toNat_join_2_6 (x : BitVec 2) (y : BitVec 6) : BitVec.toNat (w := 8) (x ++ y) = x.toNat * 64 + y.toNat := toNat_join x y
theorem toNat_join_5_3 (x : BitVec 5) (y : BitVec 3) : BitVec.toNat (w := 8) (x ++ y) = x.toNat * 8 + y.toNat := toNat_join x y
theorem toNat_join_3_5 (x : BitVec 3) (y : BitVec 5) : BitVec.toNat (w := 8) (x ++ y) = x.toNat * 32 + y.toNat := toNat_join x y
theorem toNat_join_2_5_1 (x : BitVec 2) (y : BitVec 5) (z : BitVec 1) :
    BitVec.toNat (w := 8) (x ++ y ++ z) = (x.toNat * 32 + y.toNat) * 2 + z.toNat := by
  refine (toNat_join (x ++ y) z).trans ?_
  rw [toNat_join x y]
  norm_num
theorem toNat_join_1_5_2 (x : BitVec 1) (y : BitVec 5) (z : BitVec 2) :
    BitVec.toNat (w := 8) (x ++ y ++ z) = (x.toNat * 32 + y.toNat) * 4 + z.toNat := by
  refine (toNat_join (x ++ y) z).trans ?_
  rw [toNat_join x y]
  norm_num

/-- The shift formulas of R131, on numbers. -/
theorem packByte_toNat (a b c : Byte) : (packByte a b c).map (·.toNat) =
    [a.toNat / 4, a.toNat % 4 * 16 + b.toNat / 16, b.toNat % 16 * 4 + c.toNat / 64, c.toNat % 64] := by
  have := a.isLt; have := b.isLt; have := c.isLt
  simp only [packByte, List.map_cons, List.map_nil, toNat_join_2_4, toNat_join_4_2, toNat_slice,
    List.cons.injEq, and_true]
  omega

/-- The shift formulas of R132, on numbers. -/
theorem packQuintet_toNat (a b c d e : Byte) : (packQuintet a b c d e).map (·.toNat) =
    [a.toNat / 8, a.toNat % 8 * 4 + b.toNat / 64, b.toNat / 2 % 32, b.toNat % 2 * 16 + c.toNat / 16,
     c.toNat % 16 * 2 + d.toNat / 128, d.toNat / 4 % 32, d.toNat % 4 * 8 + e.toNat / 32, e.toNat % 32] := by
  have := a.isLt; have := b.isLt; have := c.isLt; have := d.isLt; have := e.isLt
  simp only [packQuintet, List.map_cons, List.map_nil, toNat_join_3_2, toNat_join_1_4, toNat_join_4_1,
    toNat_join_2_3, toNat_slice, List.cons.injEq, and_true]
  omega

/-- The shift formulas of R170, on numbers. -/
theorem unpackByte_toNat (a b c d : BitVec 6) : (unpackByte a b c d).map (·.toNat) =
    [a.toNat * 4 + b.toNat / 16, b.toNat % 16 * 16 + c.toNat / 4, c.toNat % 4 * 64 + d.toNat] := by
  have := a.isLt; have := b.isLt; have := c.isLt; have := d.isLt
  simp only [unpackByte, List.map_cons, List.map_nil, toNat_join_6_2, toNat_join_4_4, toNat_join_2_6, toNat_slice,
    List.cons.injEq, and_true]
  omega

/-- The shift formulas of R172, on numbers. -/
theorem unpackQuintet_toNat (s0 s1 s2 s3 s4 s5 s6 s7 : BitVec 5) :
    (unpackQuintet s0 s1 s2 s3 s4 s5 s6 s7).map (·.toNat) =
      [s0.toNat * 8 + s1.toNat / 4,
       (s1.toNat % 4 * 32 + s2.toNat) * 2 + s3.toNat / 16,
       s3.toNat % 16 * 16 + s4.toNat / 2,
       (s4.toNat % 2 * 32 + s5.toNat) * 4 + s6.toNat / 8,
       s6.toNat % 8 * 32 + s7.toNat] := by
  have := s0.isLt; have := s1.isLt; have := s2.isLt; have := s3.isLt
  have := s4.isLt; have := s5.isLt; have := s6.isLt; have := s7.isLt
  simp only [unpackQuintet, List.map_cons, List.map_nil, toNat_join_5_3, toNat_join_2_5_1, toNat_join_4_4,
    toNat_join_1_5_2, toNat_join_3_5, toNat_slice, List.cons.injEq, and_true]
  omega

/-- Two lists of bytes with the same numbers are the same list. -/
theorem bytes_eq_of_toNat {xs ys : List Byte} (h : xs.map (·.toNat) = ys.map (·.toNat)) : xs = ys :=
  List.map_injective_iff.mpr (fun _ _ => BitVec.eq_of_toNat_eq) h

/-- A group by its five bytes. -/
theorem EncodeGroup.eq_bytes (g : EncodeGroup) : g = #v[g[0], g[1], g[2], g[3], g[4]] := by
  ext i hi
  rcases i with _ | _ | _ | _ | _ | i <;> simp
  omega

/-- A decode group by its eight slots. -/
theorem DecodeGroup.eq_slots (s : DecodeGroup) : s = #v[s[0], s[1], s[2], s[3], s[4], s[5], s[6], s[7]] := by
  ext i hi
  rcases i with _ | _ | _ | _ | _ | _ | _ | _ | i <;> simp
  omega

/-- A valid group gives NBYTES(k) bytes, at least one and at most GB (R157). -/
theorem unpack_length {a : Asel} {s : DecodeGroup} {k : Nat} (h : k ∈ validCounts a) :
    (unpack a s k).length = numBytes a k ∧ 1 ≤ numBytes a k ∧ numBytes a k ≤ groupBytes a := by
  cases a <;> simp only [validCounts, family, List.mem_cons, List.not_mem_nil, or_false] at h <;>
    rcases h with rfl | rfl | rfl | rfl | rfl <;>
    simp [unpack, family, unpackByte, unpackQuintet, numBytes, bitsPerSymbol, groupBytes]

/-- A group that validates has the count of its leading real symbols, and the family allows it (R155, R158). -/
theorem validate_ok {a : Asel} {s : DecodeGroup} {k : Nat} (h : validate a s = .ok k) :
    k = realCount a s ∧ k ∈ validCounts a := by
  simp only [validate] at h
  split at h
  · cases h
  · split at h
    · cases h
    · split at h
      · cases h; exact ⟨rfl, ‹_›⟩
      · cases h

theorem groupBytes_bounds (a : Asel) : 3 ≤ groupBytes a ∧ groupBytes a ≤ 5 := by cases a <;> decide
theorem groupSymbols_bounds (a : Asel) : 4 ≤ groupSymbols a ∧ groupSymbols a ≤ 8 := by cases a <;> decide

/-! ### Symbols, tables and the octets of a group -/

/-- A group gives GS symbol values (R127). -/
theorem pack_length (a : Asel) (g : EncodeGroup) : (pack a g).length = groupSymbols a := by cases a <;> rfl

/-- Every symbol value of a group is an index of the alphabet (R104). -/
theorem pack_lt {a : Asel} {g : EncodeGroup} : ∀ v ∈ pack a g, v < numSymbols a := by
  intro v hv
  cases a <;> simp only [pack, family, List.mem_map] at hv <;> obtain ⟨x, _, rfl⟩ := hv <;> exact x.isLt

/-- The symbol lookup has a result for every index of the alphabet (R104). -/
theorem sym_of_lt {a : Asel} {v : Nat} (h : v < numSymbols a) : ∃ c, sym a v = some c := by
  cases a <;> exact ⟨_, List.getElem?_eq_getElem h⟩

/-- A symbol is an entry of its table (R104). -/
theorem mem_table_of_sym {a : Asel} {v : Nat} {c : Byte} (h : sym a v = some c) : c ∈ table a :=
  List.mem_of_getElem? h

/-- The value lookup gives an index of the alphabet (R105). -/
theorem lt_of_val {a : Asel} {c : Byte} {i : Nat} (h : val a c = some i) : i < numSymbols a := by
  have hi : i < (table a).length := (List.findIdx?_eq_some_iff_findIdx_eq.mp h).1
  cases a <;> exact hi

/-- Every index of the alphabet gives one octet, and that octet is of the table (R131). -/
theorem symOctets_of_lt {a : Asel} : ∀ {vs : List Nat}, (∀ v ∈ vs, v < numSymbols a) →
    (symOctets a vs).length = vs.length ∧ ∀ c ∈ symOctets a vs, c ∈ table a := by
  intro vs
  induction vs with
  | nil => simp [symOctets]
  | cons v vs ih =>
    intro h
    obtain ⟨c, hc⟩ := sym_of_lt (h v (by simp))
    obtain ⟨hl, hm⟩ := ih fun w hw => h w (by simp [hw])
    simp only [symOctets] at hl hm ⊢
    rw [List.filterMap_cons_some hc]
    exact ⟨by simp [hl], by simpa [mem_table_of_sym hc] using hm⟩

/-- A full group gives GS octets of the table (R133, R65). -/
theorem fullGroupOctets_spec (a : Asel) (g : EncodeGroup) :
    (fullGroupOctets a g).length = groupSymbols a ∧ ∀ c ∈ fullGroupOctets a g, c ∈ table a := by
  obtain ⟨hl, hm⟩ := symOctets_of_lt (pack_lt (a := a) (g := g))
  exact ⟨hl.trans (pack_length a g), hm⟩

/-- At most GB bytes give at most GS real symbols (R129). -/
theorem realSymbols_le {a : Asel} {k : Nat} (h : k ≤ groupBytes a) : realSymbols a k ≤ groupSymbols a := by
  cases a <;> simp [realSymbols, groupBytes, groupSymbols, bitsPerSymbol, family] at * <;> omega

/-- A final group gives GS octets, of the table or `=` (R134, R65). -/
theorem finalGroupOctets_spec (a : Asel) (k : Nat) (g : EncodeGroup) (h : k ≤ groupBytes a) :
    (finalGroupOctets a k g).length = groupSymbols a ∧ ∀ c ∈ finalGroupOctets a k g, c ∈ table a ∨ c = padOctet := by
  have hr := realSymbols_le h
  obtain ⟨hl, hm⟩ := symOctets_of_lt (vs := (pack a (zeroFill k g)).take (realSymbols a k))
    fun v hv => pack_lt v (List.mem_of_mem_take hv)
  constructor
  · simp only [finalGroupOctets, List.length_append, hl, List.length_take, pack_length, List.length_replicate]
    omega
  · intro c hc
    simp only [finalGroupOctets, List.mem_append, List.mem_replicate] at hc
    exact hc.imp (hm c) And.right

/-- What fills a slot is PAD or an index of the alphabet (R28, R31). -/
theorem slot_of_classify {a : Asel} {c : Byte} {x : Slot} (h : (classify a c).slot? = some x) :
    x = padSlot ∨ x.toNat < numSymbols a := by
  unfold classify at h
  split at h
  · simp only [CharClass.slot?, Option.some.injEq] at h
    exact .inl h.symm
  · split at h
    · rename_i i hi
      simp only [CharClass.slot?, Option.some.injEq] at h
      subst h
      exact .inr (lt_of_le_of_lt (by simpa using Nat.mod_le i 128) (lt_of_val hi))
    · cases h

end Sys2Proof.Machine
end

