-- ==== Sys2Proof/Laws/Flags.lean ====
section
/-! SUPPORT. The word of each response (30_encoding.md R76 to R79). -/

namespace Sys2Proof.Machine

@[simp] theorem Response.word_ok : Response.word .ok = 0x0000 := rfl
@[simp] theorem Response.word_data (b : Byte) : Response.word (.data b) = 0x10#8 ++ b := by
  simp only [Response.word, Response.status, Response.info, Response.dataField]
  rfl
@[simp] theorem Response.word_eod : Response.word .eod = 0x2000 := rfl
@[simp] theorem Response.word_malformed (c : Cause) : Response.word (.malformed c) = 0x3#4 ++ c.code ++ 0x00#8 := rfl
@[simp] theorem Response.word_ioerr (p : IoPlace) : Response.word (.ioerr p) = 0x4#4 ++ p.code ++ 0x00#8 := rfl
@[simp] theorem Response.word_notFound : Response.word .notFound = 0x5000 := rfl
@[simp] theorem Response.word_range : Response.word .range = 0x6000 := rfl
@[simp] theorem Response.word_illegal : Response.word .illegal = 0x7000 := rfl
@[simp] theorem Response.word_unusable_off : Response.word (.unusable .off) = 0x8000 := rfl
@[simp] theorem Response.word_unusable_failed : Response.word (.unusable .failed) = 0x8200 := rfl

@[simp] theorem Cause.code_truncated : Cause.code .truncated = 1 := rfl
@[simp] theorem Cause.code_earlyPad : Cause.code .earlyPad = 2 := rfl
@[simp] theorem Cause.code_padThenSymbol : Cause.code .padThenSymbol = 3 := rfl
@[simp] theorem Cause.code_badCount : Cause.code .badCount = 4 := rfl
@[simp] theorem IoPlace.code_source : IoPlace.code .source = 1 := rfl
@[simp] theorem IoPlace.code_sinkWrite : IoPlace.code .sinkWrite = 2 := rfl
@[simp] theorem IoPlace.code_sinkFlush : IoPlace.code .sinkFlush = 3 := rfl

end Sys2Proof.Machine
end

