-- ==== Sys2Proof/Laws/PerInstr.lean ====
section
/-! SUPPORT. What holds of every command as syntax, one lemma per constructor: its word is well-formed and selects the
command's own row of the opcode map (30_encoding.md R80). -/

namespace Sys2Proof.Laws.RowMatch

/-- The word of a command is well-formed and selects the command's own row, which is a row of the opcode map. -/
def Statement (i : Instr) : Prop :=
  wellFormedWord (encode i) = true ∧ i.row.selects (encode i) = true ∧ i.row ∈ opcodeRows

theorem encInit (a : Asel) : Statement (.encInit a) := by
  unfold Statement
  cases a <;> decide

theorem encPut (b : Byte) : Statement (.encPut b) := by
  revert b
  unfold Statement
  decide

theorem encFinal : Statement .encFinal := by
  unfold Statement
  decide

theorem decInit (a : Asel) : Statement (.decInit a) := by
  unfold Statement
  cases a <;> decide

theorem decNext : Statement .decNext := by
  unfold Statement
  decide

theorem lutSym (a : Asel) (v : Byte) : Statement (.lutSym a v) := by
  revert v
  unfold Statement
  cases a <;> decide

theorem lutVal (a : Asel) (c : Byte) : Statement (.lutVal a c) := by
  revert c
  unfold Statement
  cases a <;> decide

end Sys2Proof.Laws.RowMatch
end

