-- ==== Sys2Proof/Laws/State.lean ====
section
/-! SUPPORT. What each update of State leaves and what it writes, one lemma per part of State, so that no later proof
unfolds an update. -/

namespace Sys2Proof.Machine

section
variable (s : State) (p : Phase) (m : Mode) (e : Event) (r : Response) (w : Word)

@[simp] theorem State.setPhase_enc : (s.setPhase p).enc = s.enc := rfl
@[simp] theorem State.setPhase_dec : (s.setPhase p).dec = s.dec := rfl
@[simp] theorem State.setPhase_seq : (s.setPhase p).seq = { s.seq with phase := p } := rfl
@[simp] theorem State.setPhase_io : (s.setPhase p).io = s.io := rfl

@[simp] theorem State.setMode_encoder_enc : (s.setMode .encoder m).enc = { s.enc with mode := m } := rfl
@[simp] theorem State.setMode_encoder_dec : (s.setMode .encoder m).dec = s.dec := rfl
@[simp] theorem State.setMode_decoder_enc : (s.setMode .decoder m).enc = s.enc := rfl
@[simp] theorem State.setMode_decoder_dec : (s.setMode .decoder m).dec = { s.dec with mode := m } := rfl
@[simp] theorem State.setMode_seq (g : Engine) : (s.setMode g m).seq = s.seq := by cases g <;> rfl
@[simp] theorem State.setMode_io (g : Engine) : (s.setMode g m).io = s.io := by cases g <;> rfl

@[simp] theorem State.observe_enc : (s.observe e).enc = s.enc := rfl
@[simp] theorem State.observe_dec : (s.observe e).dec = s.dec := rfl
@[simp] theorem State.observe_seq : (s.observe e).seq = s.seq := rfl
@[simp] theorem State.observe_io : (s.observe e).io = { s.io with trace := s.io.trace ++ [e] } := rfl

@[simp] theorem State.respond_enc : (s.respond r).enc = s.enc := rfl
@[simp] theorem State.respond_dec : (s.respond r).dec = s.dec := rfl
@[simp] theorem State.respond_seq : (s.respond r).seq = s.seq := rfl
@[simp] theorem State.respond_io :
    (s.respond r).io = { s.io with trace := s.io.trace ++ [.response r.word] } := rfl

@[simp] theorem State.finish_enc : (s.finish r).enc = s.enc := rfl
@[simp] theorem State.finish_dec : (s.finish r).dec = s.dec := rfl
@[simp] theorem State.finish_seq : (s.finish r).seq = { s.seq with phase := .idle } := rfl
@[simp] theorem State.finish_io :
    (s.finish r).io = { s.io with trace := s.io.trace ++ [.response r.word] } := rfl

@[simp] theorem State.fail_encoder_enc : (s.fail .encoder r).enc = { s.enc with mode := .failed } := rfl
@[simp] theorem State.fail_encoder_dec : (s.fail .encoder r).dec = s.dec := rfl
@[simp] theorem State.fail_decoder_enc : (s.fail .decoder r).enc = s.enc := rfl
@[simp] theorem State.fail_decoder_dec : (s.fail .decoder r).dec = { s.dec with mode := .failed } := rfl
@[simp] theorem State.fail_seq (g : Engine) : (s.fail g r).seq = { s.seq with phase := .idle } := by cases g <;> rfl
@[simp] theorem State.fail_io (g : Engine) :
    (s.fail g r).io = { s.io with trace := s.io.trace ++ [.response r.word] } := by cases g <;> rfl

@[simp] theorem State.refuseUnusable_enc (g : Engine) : (s.refuseUnusable g).enc = s.enc := rfl
@[simp] theorem State.refuseUnusable_dec (g : Engine) : (s.refuseUnusable g).dec = s.dec := rfl
@[simp] theorem State.refuseUnusable_seq (g : Engine) : (s.refuseUnusable g).seq = s.seq := rfl
@[simp] theorem State.refuseUnusable_io (g : Engine) : (s.refuseUnusable g).io =
    { s.io with trace := s.io.trace ++ [.response (Response.unusable (s.mode g)).word] } := rfl

@[simp] theorem State.afterMove_enc : s.afterMove.enc = s.enc := rfl
@[simp] theorem State.afterMove_dec : s.afterMove.dec = s.dec := rfl
@[simp] theorem State.afterMove_seq : s.afterMove.seq = s.seq := rfl
@[simp] theorem State.afterMove_io : s.afterMove.io = { s.io with schedule := s.io.schedule.tail } := rfl

@[simp] theorem State.withNextCommand_enc : (s.withNextCommand w).enc = s.enc := rfl
@[simp] theorem State.withNextCommand_dec : (s.withNextCommand w).dec = s.dec := rfl
@[simp] theorem State.withNextCommand_phase : (s.withNextCommand w).seq.phase = .idle := rfl
@[simp] theorem State.withNextCommand_commands :
    (s.withNextCommand w).io.commands = w :: s.io.commands := rfl

@[simp] theorem hardReset_enc : (hardReset s).enc = State.reset.enc := rfl
@[simp] theorem hardReset_dec : (hardReset s).dec = State.reset.dec := rfl
@[simp] theorem hardReset_seq : (hardReset s).seq = State.reset.seq := rfl
@[simp] theorem hardReset_trace : (hardReset s).io.trace = s.io.trace := rfl
@[simp] theorem hardReset_commands : (hardReset s).io.commands = s.io.commands := rfl
@[simp] theorem hardReset_sinkAnswers : (hardReset s).io.sinkAnswers = s.io.sinkAnswers := rfl
@[simp] theorem hardReset_sourceAnswers : (hardReset s).io.sourceAnswers = s.io.sourceAnswers := rfl

@[simp] theorem hardReset_sourceRepeat : (hardReset s).io.sourceRepeat = s.io.sourceRepeat := rfl

@[simp] theorem State.mode_encoder : s.mode .encoder = s.enc.mode := rfl
@[simp] theorem State.mode_decoder : s.mode .decoder = s.dec.mode := rfl

end

/-! The source's next item, by what the host still has to send. -/

section
variable {s : State} {a : SourceAnswer} {rest : List SourceAnswer}

@[simp] theorem State.afterMove_nextSource : s.afterMove.nextSource = s.nextSource := rfl
@[simp] theorem State.observe_nextSource (e : Event) : (s.observe e).nextSource = s.nextSource := rfl

theorem State.nextSource_of_cons (h : s.io.sourceAnswers = a :: rest) : s.nextSource = some (a, rest) := by
  simp [State.nextSource, h]

theorem State.nextSource_of_nil (h : s.io.sourceAnswers = []) (hr : s.io.sourceRepeat = a :: rest) :
    s.nextSource = some (a, rest) := by
  simp [State.nextSource, h, hr]

theorem State.nextSource_eq_none : s.nextSource = none ↔ s.io.sourceAnswers = [] ∧ s.io.sourceRepeat = [] := by
  unfold State.nextSource
  split <;> simp_all
  split <;> simp_all

/-- Where a property holds of every item the host has to send, it holds of the next one and of those after it. -/
theorem State.nextSource_forall {P : SourceAnswer → Prop} (h : s.nextSource = some (a, rest))
    (hs : ∀ x ∈ s.io.sourceAnswers, P x) (hr : ∀ x ∈ s.io.sourceRepeat, P x) : P a ∧ ∀ x ∈ rest, P x := by
  unfold State.nextSource at h
  split at h
  · simp_all
  · split at h <;> simp_all

end

/-! What a run observes, event by event. -/

section
variable (s : State) (c : Byte) (w : Word) (a : SinkAnswer) (x : SourceAnswer)

@[simp] theorem Event.response?_response : Event.response? (.response w) = some w := rfl
@[simp] theorem Event.response?_sinkWrite : Event.response? (.sinkWrite c a) = none := rfl
@[simp] theorem Event.response?_sinkFlush : Event.response? (.sinkFlush a) = none := rfl
@[simp] theorem Event.response?_sourceRead : Event.response? (.sourceRead x) = none := rfl
@[simp] theorem Event.emitted?_ack : Event.emitted? (.sinkWrite c .ack) = some c := rfl
@[simp] theorem Event.emitted?_err : Event.emitted? (.sinkWrite c .err) = none := rfl
@[simp] theorem Event.emitted?_response : Event.emitted? (.response w) = none := rfl
@[simp] theorem Event.emitted?_sinkFlush : Event.emitted? (.sinkFlush a) = none := rfl
@[simp] theorem Event.emitted?_sourceRead : Event.emitted? (.sourceRead x) = none := rfl
@[simp] theorem Event.isSourceRead_sourceRead : Event.isSourceRead (.sourceRead x) = true := rfl
@[simp] theorem Event.isSourceRead_response : Event.isSourceRead (.response w) = false := rfl
@[simp] theorem Event.isSourceRead_sinkWrite : Event.isSourceRead (.sinkWrite c a) = false := rfl
@[simp] theorem Event.isSourceRead_sinkFlush : Event.isSourceRead (.sinkFlush a) = false := rfl
@[simp] theorem Event.isTransaction_response : Event.isTransaction (.response w) = false := rfl
@[simp] theorem Event.isTransaction_sinkWrite : Event.isTransaction (.sinkWrite c a) = true := rfl
@[simp] theorem Event.isTransaction_sinkFlush : Event.isTransaction (.sinkFlush a) = true := rfl
@[simp] theorem Event.isTransaction_sourceRead : Event.isTransaction (.sourceRead x) = true := rfl

end

/-! What an operation adds to what was observed. -/

section
variable (s : State) (g : Engine) (e : Event) (r : Response)

@[simp] theorem State.observe_responses : (s.observe e).responses = s.responses ++ e.response?.toList := by
  cases e <;> simp [State.responses]
@[simp] theorem State.observe_emitted : (s.observe e).emitted = s.emitted ++ e.emitted?.toList := by
  cases h : e.emitted? <;> simp [State.emitted, h]
@[simp] theorem State.observe_itemsConsumed :
    (s.observe e).itemsConsumed = s.itemsConsumed + (if e.isSourceRead then 1 else 0) := by
  simp [State.itemsConsumed]

@[simp] theorem State.respond_responses : (s.respond r).responses = s.responses ++ [r.word] := s.observe_responses _
@[simp] theorem State.respond_emitted : (s.respond r).emitted = s.emitted := by simp [State.respond]
@[simp] theorem State.respond_itemsConsumed : (s.respond r).itemsConsumed = s.itemsConsumed := by simp [State.respond]

@[simp] theorem State.finish_responses : (s.finish r).responses = s.responses ++ [r.word] :=
  (s.setPhase .idle).observe_responses _
@[simp] theorem State.finish_emitted : (s.finish r).emitted = s.emitted := (s.setPhase .idle).respond_emitted r
@[simp] theorem State.finish_itemsConsumed : (s.finish r).itemsConsumed = s.itemsConsumed :=
  (s.setPhase .idle).respond_itemsConsumed r

@[simp] theorem State.fail_responses : (s.fail g r).responses = s.responses ++ [r.word] := by
  cases g <;> exact State.observe_responses _ _
@[simp] theorem State.fail_emitted : (s.fail g r).emitted = s.emitted := by
  cases g <;> exact State.respond_emitted _ r
@[simp] theorem State.fail_itemsConsumed : (s.fail g r).itemsConsumed = s.itemsConsumed := by
  cases g <;> exact State.respond_itemsConsumed _ r

end

/-! Runs. -/

@[simp] theorem runSteps_zero (s : State) : runSteps 0 s = .next s := rfl

theorem runSteps_succ_of_step {s t : State} (h : step s = .next t) (k : Nat) : runSteps (k + 1) s = runSteps k t := by
  simp [runSteps, h]

theorem runSteps_add {s t : State} (j k : Nat) (h : runSteps j s = .next t) : runSteps (j + k) s = runSteps k t := by
  induction j generalizing s with
  | zero => simp only [runSteps_zero, Host.Outcome.next.injEq] at h; simp [h]
  | succ j ih =>
    rw [Nat.succ_add]
    simp only [runSteps] at h ⊢
    split at h
    · exact ih h
    · cases h
    · cases h

end Sys2Proof.Machine
end

