-- ==== Sys2Proof/Laws/Step.lean ====
section
/-! SUPPORT. What a command, a port step and a whole step can do when they answer a next state: one lemma for each, which
later proofs cite instead of unfolding the machine. -/

namespace Sys2Proof.Machine

/-! ### The commands -/

/-- ENC_INIT has one outcome (R121). -/
theorem execEncInit_eq (a : Asel) (s : State) :
    execEncInit a s = .next ({ s with enc := { s.enc with asel := a, cnt := 0, mode := .ready } }.respond .ok) := rfl

/-- DEC_INIT has one outcome (R151). -/
theorem execDecInit_eq (a : Asel) (s : State) :
    execDecInit a s = .next ({ s with
      dec := { s.dec with asel := a, scnt := 0, olen := 0, opos := 0, eof := false, mode := .ready } }.respond .ok) := rfl

/-- What ENC_PUT can do (R133). -/
theorem execEncPut_next {b : Byte} {s t : State} (h : execEncPut b s = .next t) :
    (s.enc.mode ≠ .ready ∧ t = s.refuseUnusable .encoder) ∨
    (s.enc.mode = .ready ∧ s.enc.cnt.toNat < 5 ∧ s.enc.cnt.toNat + 1 < groupBytes s.enc.asel ∧
      t = { s with enc := { s.enc with grp := s.enc.grp.setIfInBounds s.enc.cnt.toNat b,
                                       cnt := BitVec.ofNat 3 (s.enc.cnt.toNat + 1) } }.respond .ok) ∨
    (s.enc.mode = .ready ∧ s.enc.cnt.toNat < 5 ∧ groupBytes s.enc.asel ≤ s.enc.cnt.toNat + 1 ∧
      t = { s with
        enc := { s.enc with grp := s.enc.grp.setIfInBounds s.enc.cnt.toNat b, cnt := 0 }
        seq := { phase := .encEmit, flush := false,
                 emitq := fullGroupOctets s.enc.asel
                   (s.enc.grp.setIfInBounds (groupBytes s.enc.asel - 1) b) } }) := by
  simp only [execEncPut] at h
  split at h
  · exact .inl ⟨‹_›, by simpa using h.symm⟩
  · split at h
    · cases h
    · split at h
      · exact .inr (.inl ⟨by simpa using ‹¬ s.enc.mode ≠ .ready›, by omega, ‹_›, by simpa using h.symm⟩)
      · exact .inr (.inr ⟨by simpa using ‹¬ s.enc.mode ≠ .ready›, by omega, by omega, by simpa using h.symm⟩)

/-- What ENC_FINAL can do (R134). -/
theorem execEncFinal_next {s t : State} (h : execEncFinal s = .next t) :
    (s.enc.mode ≠ .ready ∧ t = s.refuseUnusable .encoder) ∨
    (s.enc.mode = .ready ∧ s.enc.cnt.toNat = 0 ∧
      t = { s with enc := { s.enc with cnt := 0 }, seq := { phase := .encFlush, flush := true, emitq := [] } }) ∨
    (s.enc.mode = .ready ∧ s.enc.cnt.toNat ≠ 0 ∧ s.enc.cnt.toNat ≤ groupBytes s.enc.asel ∧
      t = { s with
        enc := { s.enc with cnt := 0 }
        seq := { phase := .encEmit, flush := true,
                 emitq := finalGroupOctets s.enc.asel s.enc.cnt.toNat s.enc.grp } }) := by
  simp only [execEncFinal] at h
  split at h
  · exact .inl ⟨‹_›, by simpa using h.symm⟩
  · split at h
    · cases h
    · split at h
      · exact .inr (.inl ⟨by simpa using ‹¬ s.enc.mode ≠ .ready›, ‹_›, by simpa using h.symm⟩)
      · exact .inr (.inr ⟨by simpa using ‹¬ s.enc.mode ≠ .ready›, ‹_›, by omega, by simpa using h.symm⟩)

/-- What DEC_NEXT can do (R160). -/
theorem execDecNext_next {s t : State} (h : execDecNext s = .next t) :
    (s.dec.mode ≠ .ready ∧ t = s.refuseUnusable .decoder) ∨
    (s.dec.mode = .ready ∧ s.dec.opos.toNat < s.dec.olen.toNat ∧ ∃ b, s.dec.obuf[s.dec.opos.toNat]? = some b ∧
      t = { s with dec := { s.dec with opos := s.dec.opos + 1 } }.respond (.data b)) ∨
    (s.dec.mode = .ready ∧ s.dec.olen.toNat ≤ s.dec.opos.toNat ∧ s.dec.eof = true ∧ t = s.respond .eod) ∨
    (s.dec.mode = .ready ∧ s.dec.olen.toNat ≤ s.dec.opos.toNat ∧ s.dec.eof = false ∧
      t = { s with dec := { s.dec with scnt := 0 } }.setPhase .decFill) := by
  simp only [execDecNext] at h
  split at h
  · exact .inl ⟨‹_›, by simpa using h.symm⟩
  have hr : s.dec.mode = .ready := by simpa using ‹¬ s.dec.mode ≠ .ready›
  split at h
  · split at h
    · cases h
    · exact .inr (.inl ⟨hr, ‹_›, _, ‹_›, by simpa using h.symm⟩)
  · split at h
    · exact .inr (.inr (.inl ⟨hr, by omega, ‹_›, by simpa using h.symm⟩))
    · exact .inr (.inr (.inr ⟨hr, by omega, by simpa using ‹¬ s.dec.eof = true›, by simpa using h.symm⟩))

/-- A lookup command gives one response and does nothing else (R107 to R109). -/
theorem execLutSym_responds (a : Asel) (v : Byte) (s : State) : ∃ r, execLutSym a v s = .next (s.respond r) :=
  ⟨_, rfl⟩

/-- A lookup command gives one response and does nothing else (R107 to R109). -/
theorem execLutVal_responds (a : Asel) (c : Byte) (s : State) : ∃ r, execLutVal a c s = .next (s.respond r) :=
  ⟨_, rfl⟩

/-- What a command can do, by command. -/
theorem exec_next {i : Instr} {s t : State} (h : exec i s = .next t) :
    (∃ a, i = .encInit a ∧ t = { s with enc := { s.enc with asel := a, cnt := 0, mode := .ready } }.respond .ok) ∨
    (∃ b, i = .encPut b ∧ execEncPut b s = .next t) ∨
    (i = .encFinal ∧ execEncFinal s = .next t) ∨
    (∃ a, i = .decInit a ∧ t = { s with
      dec := { s.dec with asel := a, scnt := 0, olen := 0, opos := 0, eof := false, mode := .ready } }.respond .ok) ∨
    (i = .decNext ∧ execDecNext s = .next t) ∨
    ((∃ a v, i = .lutSym a v ∨ i = .lutVal a v) ∧
      ∃ r, t = s.respond r ∧ (r = .range ∨ r = .notFound ∨ ∃ b, r = .data b)) := by
  cases i with
  | encInit a => exact .inl ⟨a, rfl, by simpa [exec, execEncInit] using h.symm⟩
  | encPut b => exact .inr (.inl ⟨b, rfl, h⟩)
  | encFinal => exact .inr (.inr (.inl ⟨rfl, h⟩))
  | decInit a => exact .inr (.inr (.inr (.inl ⟨a, rfl, by simpa [exec, execDecInit] using h.symm⟩)))
  | decNext => exact .inr (.inr (.inr (.inr (.inl ⟨rfl, h⟩))))
  | lutSym a v =>
    refine .inr (.inr (.inr (.inr (.inr ⟨⟨a, v, .inl rfl⟩, _, by simpa [exec, execLutSym] using h.symm, ?_⟩))))
    split
    · exact .inr (.inr ⟨_, rfl⟩)
    · exact .inl rfl
  | lutVal a c =>
    refine .inr (.inr (.inr (.inr (.inr ⟨⟨a, c, .inr rfl⟩, _, by simpa [exec, execLutVal] using h.symm, ?_⟩))))
    split
    · exact .inr (.inr ⟨_, rfl⟩)
    · exact .inr (.inl rfl)

/-! ### The port steps -/

/-- What an ENC_EMIT step can do (R135). -/
theorem emitAnswered_next {a : SinkAnswer} {s t : State} (h : emitAnswered a s = .next t) :
    ∃ c q, s.seq.emitq = c :: q ∧
      ((a = .ack ∧ q ≠ [] ∧ t = { s.observe (.sinkWrite c .ack) with seq := { s.seq with emitq := q } }) ∨
       (a = .ack ∧ q = [] ∧ s.seq.flush = true ∧
         t = { s.observe (.sinkWrite c .ack) with seq := { s.seq with emitq := [], phase := .encFlush } }) ∨
       (a = .ack ∧ q = [] ∧ s.seq.flush = false ∧
         t = { s.observe (.sinkWrite c .ack) with seq := { s.seq with emitq := [] } }.finish .ok) ∨
       (a = .err ∧
         t = { s.observe (.sinkWrite c .err) with seq := { s.seq with emitq := [] } }.fail .encoder (.ioerr .sinkWrite))) := by
  unfold emitAnswered at h
  split at h
  · cases h
  · rename_i c q hq
    refine ⟨c, q, hq, ?_⟩
    cases a with
    | err => exact .inr (.inr (.inr ⟨rfl, by simpa using h.symm⟩))
    | ack =>
      simp only at h
      split at h
      · exact .inl ⟨rfl, ‹_›, by simpa using h.symm⟩
      · have hn : q = [] := by simpa using ‹¬ q ≠ []›
        subst hn
        split at h
        · exact .inr (.inl ⟨rfl, rfl, by simpa using ‹_›, by simpa [State.setPhase] using h.symm⟩)
        · exact .inr (.inr (.inl ⟨rfl, rfl, by
            rename_i hf
            simpa using hf, by simpa using h.symm⟩))

/-- An ENC_FLUSH step (R136). -/
theorem flushAnswered_next {a : SinkAnswer} {s t : State} (h : flushAnswered a s = .next t) :
    (a = .ack ∧ t = (s.observe (.sinkFlush .ack)).finish .ok) ∨
    (a = .err ∧ t = (s.observe (.sinkFlush .err)).fail .encoder (.ioerr .sinkFlush)) := by
  cases a with
  | ack => exact .inl ⟨rfl, by simpa [flushAnswered] using h.symm⟩
  | err => exact .inr ⟨rfl, by simpa [flushAnswered] using h.symm⟩

/-- What completing a group can do (R162, R166). -/
theorem completeGroup_next {g : DecodeGroup} {s t : State} (h : completeGroup g s = .next t) :
    (∃ cause, validate s.dec.asel g = .error cause ∧ t = s.fail .decoder (.malformed cause)) ∨
    (∃ k b bs, validate s.dec.asel g = .ok k ∧ unpack s.dec.asel g k = b :: bs ∧
      t = { s with
        dec := { s.dec with obuf := storeBytes (b :: bs) s.dec.obuf, olen := BitVec.ofNat 3 (bs.length + 1),
                            opos := 1, scnt := 0 } }.finish (.data b)) := by
  unfold completeGroup at h
  split at h
  · exact .inl ⟨_, ‹_›, by simpa using h.symm⟩
  · split at h
    · cases h
    · exact .inr ⟨_, _, _, ‹_›, ‹_›, by simpa using h.symm⟩

/-- What a fill step can do on a slot-filling character (R161). -/
theorem fillSlot_next {x : Slot} {s t : State} (h : fillSlot x s = .next t) :
    s.dec.scnt.toNat < 8 ∧
    ((s.dec.scnt.toNat + 1 < groupSymbols s.dec.asel ∧
        t = { s with dec := { s.dec with slot := s.dec.slot.setIfInBounds s.dec.scnt.toNat x,
                                         scnt := BitVec.ofNat 4 (s.dec.scnt.toNat + 1) } }) ∨
     (groupSymbols s.dec.asel ≤ s.dec.scnt.toNat + 1 ∧
        completeGroup (s.dec.slot.setIfInBounds (groupSymbols s.dec.asel - 1) x)
          { s with dec := { s.dec with slot := s.dec.slot.setIfInBounds s.dec.scnt.toNat x } } = .next t)) := by
  simp only [fillSlot] at h
  split at h
  · cases h
  · refine ⟨by omega, ?_⟩
    split at h
    · exact .inl ⟨‹_›, by simpa using h.symm⟩
    · exact .inr ⟨by omega, h⟩

/-- What a fill step can do on `End` (R163, R164). -/
theorem fillEnd_next {s t : State} (h : fillEnd s = .next t) :
    (s.dec.scnt = 0 ∧ t = { s with dec := { s.dec with eof := true } }.finish .eod) ∨
    (s.dec.scnt ≠ 0 ∧ t = s.fail .decoder (.malformed .truncated)) := by
  unfold fillEnd at h
  split at h
  · exact .inl ⟨‹_›, by simpa using h.symm⟩
  · split at h
    · exact .inr ⟨‹_›, by simpa using h.symm⟩
    · cases h

/-- What a fill step can do (R161 to R166). -/
theorem fillAnswered_next {a : SourceAnswer} {s t : State} (h : fillAnswered a s = .next t) :
    (∃ c, a = .chr c ∧ (classify s.dec.asel c).slot? = none ∧ t = s.observe (.sourceRead a)) ∨
    (∃ c x, a = .chr c ∧ (classify s.dec.asel c).slot? = some x ∧
      fillSlot x (s.observe (.sourceRead a)) = .next t) ∨
    (a = .endOfInput ∧ fillEnd (s.observe (.sourceRead a)) = .next t) ∨
    (a = .err ∧ t = (s.observe (.sourceRead a)).fail .decoder (.ioerr .source)) := by
  cases a with
  | chr c =>
    simp only [fillAnswered, State.observe_dec] at h
    split at h
    · exact .inl ⟨c, rfl, ‹_›, by simpa using h.symm⟩
    · exact .inr (.inl ⟨c, _, rfl, ‹_›, h⟩)
  | endOfInput => exact .inr (.inr (.inl ⟨rfl, h⟩))
  | err => exact .inr (.inr (.inr ⟨rfl, by simpa [fillAnswered] using h.symm⟩))

/-! ### The whole step -/

/-- What a step can do. -/
theorem step_cases {s t : State} (h : step s = .next t) :
    (s.move = .reset ∧ t = hardReset s.afterMove) ∨
    (s.move = .lateAnswer ∧ s.io.withdrawn ≠ 0 ∧
      t = { s.afterMove with io := { s.afterMove.io with withdrawn := s.io.withdrawn - 1 } }) ∨
    (s.seq.phase = .idle ∧ ∃ w cs,
      (s.move = .serve ∧ s.io.commands = w :: cs ∨ s.move = .present w ∧ s.io.commands = cs) ∧
      issue w { s with io := { s.io with commands := cs, schedule := s.io.schedule.tail } } = .next t) ∨
    (s.move = .serve ∧ s.seq.phase = .encEmit ∧ ∃ a rest, s.io.sinkAnswers = a :: rest ∧
      emitAnswered a { s with io := { s.io with sinkAnswers := rest, schedule := s.io.schedule.tail } } = .next t) ∨
    (s.move = .serve ∧ s.seq.phase = .encFlush ∧ ∃ a rest, s.io.sinkAnswers = a :: rest ∧
      flushAnswered a { s with io := { s.io with sinkAnswers := rest, schedule := s.io.schedule.tail } } = .next t) ∨
    (s.move = .serve ∧ s.seq.phase = .decFill ∧ ∃ a rest, s.nextSource = some (a, rest) ∧
      fillAnswered a { s with io := { s.io with sourceAnswers := rest, schedule := s.io.schedule.tail } } = .next t) := by
  unfold step at h
  split at h
  · rename_i hm
    unfold serve at h
    simp only [State.afterMove_seq] at h
    split at h
    · rename_i hp
      unfold State.takeCommand at h
      simp only [State.afterMove_io] at h
      cases hc : s.io.commands with
      | nil => rw [hc] at h; cases h
      | cons w cs =>
        rw [hc] at h
        exact .inr (.inr (.inl ⟨hp, w, cs, .inl ⟨hm, rfl⟩, h⟩))
    · rename_i hp
      unfold encEmitStep at h
      split at h
      · cases h
      · unfold State.takeSinkAnswer at h
        simp only [State.afterMove_io] at h
        cases hc : s.io.sinkAnswers with
        | nil => rw [hc] at h; cases h
        | cons a rest => rw [hc] at h; exact .inr (.inr (.inr (.inl ⟨hm, hp, a, rest, rfl, h⟩)))
    · rename_i hp
      unfold encFlushStep State.takeSinkAnswer at h
      simp only [State.afterMove_io] at h
      cases hc : s.io.sinkAnswers with
      | nil => rw [hc] at h; cases h
      | cons a rest => rw [hc] at h; exact .inr (.inr (.inr (.inr (.inl ⟨hm, hp, a, rest, rfl, h⟩))))
    · rename_i hp
      unfold decFillStep State.takeSourceAnswer at h
      simp only [State.afterMove_nextSource] at h
      cases hc : s.nextSource with
      | none => rw [hc] at h; cases h
      | some p => rw [hc] at h; exact .inr (.inr (.inr (.inr (.inr ⟨hm, hp, p.1, p.2, rfl, h⟩))))
  · rename_i hm
    exact .inl ⟨hm, by simpa using h.symm⟩
  · rename_i hm
    unfold lateAnswer at h
    split at h
    · cases h
    · exact .inr (.inl ⟨hm, by simpa using ‹¬ _›, by simpa using h.symm⟩)
  · rename_i w hm
    split at h
    · rename_i hp
      exact .inr (.inr (.inl ⟨hp, w, s.io.commands, .inr ⟨hm, rfl⟩, h⟩))
    · cases h

/-- A step in IDLE issues the word the host serves. -/
theorem step_serve_idle {s : State} {w : Word} {cs : List Word} (hp : s.seq.phase = .idle) (hm : s.move = .serve)
    (hc : s.io.commands = w :: cs) :
    step s = issue w { s with io := { s.io with commands := cs, schedule := s.io.schedule.tail } } := by
  simp [step, hm, serve, hp, State.takeCommand, hc, State.afterMove]

/-- A step in ENC_EMIT with something to write acts on the next sink answer. -/
theorem step_serve_emit {s : State} {a : SinkAnswer} {rest : List SinkAnswer} (hp : s.seq.phase = .encEmit)
    (hm : s.move = .serve) (hq : s.seq.emitq ≠ []) (ha : s.io.sinkAnswers = a :: rest) :
    step s = emitAnswered a { s with io := { s.io with sinkAnswers := rest, schedule := s.io.schedule.tail } } := by
  simp [step, hm, serve, hp, encEmitStep, hq, State.takeSinkAnswer, ha, State.afterMove]

/-- A step in ENC_FLUSH acts on the next sink answer. -/
theorem step_serve_flush {s : State} {a : SinkAnswer} {rest : List SinkAnswer} (hp : s.seq.phase = .encFlush)
    (hm : s.move = .serve) (ha : s.io.sinkAnswers = a :: rest) :
    step s = flushAnswered a { s with io := { s.io with sinkAnswers := rest, schedule := s.io.schedule.tail } } := by
  simp [step, hm, serve, hp, encFlushStep, State.takeSinkAnswer, ha, State.afterMove]

/-- A step in DEC_FILL acts on the next source answer. -/
theorem step_serve_fill {s : State} {a : SourceAnswer} {rest : List SourceAnswer} (hp : s.seq.phase = .decFill)
    (hm : s.move = .serve) (ha : s.nextSource = some (a, rest)) :
    step s = fillAnswered a { s with io := { s.io with sourceAnswers := rest, schedule := s.io.schedule.tail } } := by
  have hn : s.afterMove.nextSource = some (a, rest) := ha
  simp [step, hm, serve, hp, decFillStep, State.takeSourceAnswer, hn]

/-- With nothing left in its schedule the host serves. -/
theorem move_of_schedule_nil {s : State} (h : s.io.schedule = []) : s.move = .serve := by
  simp [State.move, h]

/-- Issuing a word runs its command, or only responds ILLEGAL (R82, R84). -/
theorem issue_cases {w : Word} {s t : State} (h : issue w s = .next t) :
    (∃ i, decode w = .ok i ∧ exec i s = .next t) ∨ (∃ e, decode w = .error e ∧ t = s.respond .illegal) := by
  unfold issue at h
  split at h
  · exact .inl ⟨_, ‹_›, h⟩
  · exact .inr ⟨_, ‹_›, by simpa [respondIllegal] using h.symm⟩

end Sys2Proof.Machine
end

