-- ==== Sys2Proof/Tests/Slice0.lean ====
section
/-! SUPPORT. The model's own tests: words written out from 30_encoding.md, ill-formed words and lines, one step of each command and
port step against 95_test_vectors.md, and for each obligation with hypotheses a state and operands that meet them. -/

namespace Sys2Proof.Tests

open Sys2Proof.Machine

/-! ### States to test on -/

/-- The next state of an outcome. -/
def nextOf : Outcome → Option State
  | .next s => some s
  | .fault _ => none
  | .refused _ => none

theorem eq_next {o : Outcome} {t : State} (h : nextOf o = some t) : o = .next t := by
  cases o <;> simp_all [nextOf]

/-- The host's part of a state: what it presents and answers. -/
def host (cmds : List Word) (snk : List SinkAnswer) (src : List SourceAnswer) (moves : List HostMove := [])
    (forever : List SourceAnswer := []) : Channels :=
  { commands := cmds, sinkAnswers := snk, sourceAnswers := src, sourceRepeat := forever, schedule := moves,
    withdrawn := 0, trace := [] }

/-- After reset, with the host's inputs. -/
def fresh (io : Channels) : State := { State.reset with io := io }

/-- A READY encoder that holds the given bytes. -/
def encoding (a : Asel) (held : List Byte) (io : Channels) : State :=
  { fresh io with enc := { mode := .ready, asel := a, grp := groupOf held, cnt := BitVec.ofNat 3 held.length } }

/-- A READY encoder in the middle of writing the given octets. -/
def emitting (a : Asel) (q : List Byte) (flush : Bool) (io : Channels) : State :=
  { encoding a [] io with seq := { phase := .encEmit, emitq := q, flush := flush } }

/-- A READY encoder that only has to flush. -/
def flushing (io : Channels) : State :=
  { encoding .base64 [] io with seq := { phase := .encFlush, emitq := [], flush := true } }

/-- A READY decoder with the given bytes still to serve. -/
def decoding (a : Asel) (buffered : List Byte) (io : Channels) : State :=
  { fresh io with dec := { State.reset.dec with
      mode := .ready, asel := a, obuf := groupOf buffered, olen := BitVec.ofNat 3 buffered.length } }

/-- A decoder filling its group, with the given slots filled. -/
def filling (a : Asel) (slots : List Slot) (io : Channels) : State :=
  { fresh io with
    dec := { State.reset.dec with mode := .ready, asel := a, slot := slotsOf slots, scnt := BitVec.ofNat 4 slots.length }
    seq := { State.reset.seq with phase := .decFill } }

/-- What a test looks at after one command: the last response, the two modes, the phase and the queue. -/
def seen (o : Outcome) : Option (Option Word × Mode × Mode × Phase × List Byte) :=
  (nextOf o).map fun t => (t.responses.getLast?, t.enc.mode, t.dec.mode, t.seq.phase, t.seq.emitq)

/-! ### Decoding: words written out from R80 and R81, one per command, and its assembler line (R85) -/

theorem test_word_encInit : decode 0b0001_1100_0000_0000 = .ok (.encInit .base32hex) ∧
    assembleLine "ENC_INIT b32hex".toList = some [.encInit .base32hex] := by decide
theorem test_word_encPut : decode 0b0010_0000_0100_1101 = .ok (.encPut 0x4D) ∧
    assembleLine "ENC_PUT 0x4D".toList = some [.encPut 0x4D] := by decide
theorem test_word_encFinal : decode 0b0011_0000_0000_0000 = .ok .encFinal ∧
    assembleLine "ENC_FINAL".toList = some [.encFinal] := by decide
theorem test_word_decInit : decode 0b0100_1000_0000_0000 = .ok (.decInit .base32) ∧
    assembleLine "DEC_INIT b32".toList = some [.decInit .base32] := by decide
theorem test_word_decNext : decode 0b0101_0000_0000_0000 = .ok .decNext ∧
    assembleLine "DEC_NEXT".toList = some [.decNext] := by decide
theorem test_word_lutSym : decode 0b0110_1100_0001_1111 = .ok (.lutSym .base32hex 31) ∧
    assembleLine "LUT_SYM b32hex, 31".toList = some [.lutSym .base32hex 31] := by decide
theorem test_word_lutVal : decode 0b0111_0100_0100_0001 = .ok (.lutVal .base64url 0x41) ∧
    assembleLine "LUT_VAL b64url, 'A'".toList = some [.lutVal .base64url 0x41] := by decide

/-- A table word is the command word itself (30_encoding.md R70). -/
theorem test_table_word : decodeTableWord 16 0x20FF = some (.encPut 0xFF) ∧ decodeTableWord 16 0x0000 = none := by decide

/-! ### Ill-formed words and lines: one for each check (R82; V-CMD-1 to 20) -/

theorem test_refuses_reserved_opcode :
    wellFormedWord 0x0000 = false ∧ decode 0x0000 = .error .reservedOpcode ∧
    wellFormedWord 0x8000 = false ∧ decode 0x8000 = .error .reservedOpcode ∧ wellFormedWord 0xF000 = false := by decide
theorem test_refuses_reserved_bits :
    wellFormedWord 0x1100 = false ∧ decode 0x1100 = .error .reservedBits ∧
    wellFormedWord 0x5200 = false ∧ wellFormedWord 0x7F00 = false ∧ decode 0x7F00 = .error .reservedBits := by decide
theorem test_refuses_data_of_init :
    wellFormedWord 0x1001 = false ∧ decode 0x1001 = .error .nonzeroUnusedField ∧ wellFormedWord 0x4001 = false := by decide
theorem test_refuses_asel_of_put :
    wellFormedWord 0x2C41 = false ∧ decode 0x2C41 = .error .nonzeroUnusedField := by decide
theorem test_refuses_operands_of_final_and_next :
    wellFormedWord 0x3001 = false ∧ wellFormedWord 0x3400 = false ∧
    wellFormedWord 0x5001 = false ∧ wellFormedWord 0x5400 = false := by decide
theorem test_accepts_a_written_word : wellFormedWord 0x6C1F = true := by decide
/-- Two words of one line, a number past 255 and an alphabet the syntax does not have are no lines of R85. -/
theorem test_refuses_ill_formed_lines :
    assembleLine "ENC_PUT 1, 2".toList = none ∧ assembleLine "ENC_PUT 256".toList = none ∧
    assembleLine "ENC_INIT b16".toList = none ∧ assembleLine "LUT_SYM b64 0".toList = none := by decide
/-- P3, lines 1 to 8: the two lines with `ENC_STR` in place of lines 2 to 7. -/
theorem test_assembles_P3 : assemble ["ENC_INIT b32".toList, "ENC_STR \"foobar\"".toList, "ENC_FINAL".toList] =
    some [0x1800, 0x2066, 0x206F, 0x206F, 0x2062, 0x2061, 0x2072, 0x3000] := by decide
/-- How 95_test_vectors.md spells responses. -/
theorem test_spelling : Response.spelling (.data 0x4D) = "DATA 0x4D".toList ∧
    Response.spelling (.malformed .padThenSymbol) = "MALFORMED PAD_THEN_SYMBOL".toList ∧
    Response.spelling (.ioerr .sinkFlush) = "IOERR SNK_FLUSH".toList ∧
    Response.spelling (.unusable .off) = "UNUSABLE OFF".toList := by decide

/-! ### One step of each command -/

/-- The word at the head of `withFetchWord` runs as the first command after reset (V-CMD-17). -/
theorem test_first_step : seen (step (State.reset.withFetchWord 16 0x6C1F)) =
    some (some 0x1056, .off, .off, .idle, []) := by decide
/-- V-CMD-3. -/
theorem test_illegal : seen (step (fresh (host [0xFFFF] [] []))) = some (some 0x7000, .off, .off, .idle, []) := by decide
/-- V-ERR-12: the held byte is discarded. -/
theorem test_encInit : seen (exec (.encInit .base32) (encoding .base64 [0x4D] (host [] [] []))) =
      some (some 0x0000, .ready, .off, .idle, []) ∧
    (nextOf (exec (.encInit .base32) (encoding .base64 [0x4D] (host [] [] [])))).map (·.enc.cnt) = some 0 := by decide
/-- S1. -/
theorem test_encPut_fills : seen (exec (.encPut 0x6E) (encoding .base64 [0x4D, 0x61] (host [] [] []))) =
    some (none, .ready, .off, .encEmit, [0x54, 0x57, 0x46, 0x75]) := by decide
/-- V-B32-8: all ones. -/
theorem test_encPut_fills_five : seen (exec (.encPut 0xFF) (encoding .base32 [0xFF, 0xFF, 0xFF, 0xFF] (host [] [] []))) =
    some (none, .ready, .off, .encEmit, [0x37, 0x37, 0x37, 0x37, 0x37, 0x37, 0x37, 0x37]) := by decide
/-- V-B32H-5. -/
theorem test_encFinal_pads : seen (exec .encFinal (encoding .base32hex [0x66, 0x6F, 0x6F, 0x62] (host [] [] []))) =
    some (none, .ready, .off, .encEmit, [0x43, 0x50, 0x4E, 0x4D, 0x55, 0x4F, 0x47, 0x3D]) := by decide
/-- V-B64-1. -/
theorem test_encFinal_empty : seen (exec .encFinal (encoding .base64 [] (host [] [] []))) =
    some (none, .ready, .off, .encFlush, []) := by decide
/-- V-ERR-9: out of FAILED. -/
theorem test_decInit : seen (exec (.decInit .base64) ((decoding .base32 [1, 2] (host [] [] [])).setMode .decoder .failed)) =
    some (some 0x0000, .off, .ready, .idle, []) := by decide
/-- P2, command 3. -/
theorem test_decNext_serves : seen (exec .decNext (decoding .base64 [0x65, 0x6C] (host [] [] []))) =
    some (some 0x1065, .off, .ready, .idle, []) := by decide
/-- V-B64-20: a fill starts. -/
theorem test_decNext_fills : seen (exec .decNext (decoding .base64 [] (host [] [] []))) =
    some (none, .off, .ready, .decFill, []) := by decide
/-- V-LUT-8 and V-LUT-9. -/
theorem test_lutSym : seen (exec (.lutSym .base64 63) State.reset) = some (some 0x102F, .off, .off, .idle, []) ∧
    seen (exec (.lutSym .base64 64) State.reset) = some (some 0x6000, .off, .off, .idle, []) :=
  ⟨by decide, by decide⟩
/-- V-LUT-45 and V-LUT-46. -/
theorem test_lutVal : seen (exec (.lutVal .base32hex 0x56) State.reset) = some (some 0x101F, .off, .off, .idle, []) ∧
    seen (exec (.lutVal .base32hex 0x57) State.reset) = some (some 0x5000, .off, .off, .idle, []) :=
  ⟨by decide, by decide⟩

/-! ### One port step of each kind -/

/-- V-ERR-3: the first write refused. -/
theorem test_emit_refused : seen (step (emitting .base64 [0x54, 0x57] false (host [] [.err] []))) =
    some (some 0x4200, .failed, .off, .idle, []) := by decide
/-- V-ERR-5: the flush refused. -/
theorem test_flush_refused : seen (step (flushing (host [] [.err] []))) = some (some 0x4300, .failed, .off, .idle, []) := by
  decide
/-- V-B64-22: `=` completes `TWE=`. -/
theorem test_fill_valid : seen (step (filling .base64 [19, 22, 4] (host [] [] [.chr 0x3D]))) =
      some (some 0x104D, .off, .ready, .idle, []) ∧
    (nextOf (step (filling .base64 [19, 22, 4] (host [] [] [.chr 0x3D])))).map
      (fun t => (t.dec.obuf.toList.take 2, t.dec.olen, t.dec.opos)) = some ([0x4D, 0x61], 2, 1) := by decide
/-- V-PRI-3: a symbol after padding and a bad count. -/
theorem test_fill_invalid : seen (step (filling .base32 [12, 25, 23, 64, 64, 22, 64] (host [] [] [.chr 0x3D]))) =
    some (some 0x3300, .off, .failed, .idle, []) := by decide
/-- V-UP-6 and V-UP-7: every bit of a quintet group. -/
theorem test_unpack : unpack .base32 (slotsOf [31, 31, 31, 31, 31, 31, 31, 31]) 8 = [0xFF, 0xFF, 0xFF, 0xFF, 0xFF] ∧
    unpack .base32 (slotsOf [16, 0, 0, 0, 0, 0, 0, 1]) 8 = [0x80, 0, 0, 0, 1] := by decide
/-- V-PK-7 and V-PK-9. -/
theorem test_pack : pack .base32 (groupOf [0x74, 0x65, 0x73, 0x74, 0x31]) = [14, 17, 18, 23, 6, 29, 1, 17] ∧
    pack .base32 (groupOf [0x80, 0, 0, 0, 1]) = [16, 0, 0, 0, 0, 0, 0, 1] := by decide

/-! ### Witnesses: reset, step and encoding -/

/-- A reset in the middle of an emission (V-RST-1). -/
def emittingReset : State := emitting .base64 [0x46, 0x75] false (host [] [] [] [.reset])

theorem witness_ResetSetsEveryRegister : emittingReset.move = .reset := by decide
theorem witness_ResetAbandonsTheCommand :
    emittingReset.move = .reset ∧ emittingReset.request = some (.sinkWrite 0x46) ∧
    (State.reset.withFetchWord 16 0).request = none ∧
    (let s : State := { State.reset with io := { host [] [] [] [.lateAnswer] with withdrawn := 1 } }
     s.move = .lateAnswer ∧ s.io.withdrawn ≠ 0) := by decide
theorem witness_StepRunsTheDecodedCommand :
    (let s := fresh (host [0x5000] [] [])
     s.seq.phase = .idle ∧ s.move = .serve ∧ s.io.commands = [0x5000] ∧ decode 0x5000 = .ok .decNext) ∧
    (let s := fresh (host [] [] [] [.present 0x7000])
     s.seq.phase = .idle ∧ s.move = .present 0x7000 ∧ decode 0x7000 = .ok (.lutVal .base64 0)) ∧
    decodeTableWord 16 0x3000 = some .encFinal := by decide
theorem witness_IllegalWordOnlyResponds :
    (let s := fresh (host [0x0FFF] [] [])
     s.seq.phase = .idle ∧ s.move = .serve ∧ s.io.commands = [0x0FFF]) ∧
    (let s := fresh (host [0x1000] [] [] [.present 0x0FFF])
     s.seq.phase = .idle ∧ s.move = .present 0x0FFF ∧ s.io.commands = [0x1000]) ∧
    opField 0x0FFF = 0 ∧ 8 ≤ (opField 0x8000).toNat ∧ 8 ≤ (opField 0xFFFF).toNat ∧ rsvField 0x1100 ≠ 0 ∧
    (opField 0x1001 = 1 ∧ dataField 0x1001 ≠ 0) ∧ (opField 0x4080 = 4 ∧ dataField 0x4080 ≠ 0) ∧
    (opField 0x2C41 = 2 ∧ aselField 0x2C41 ≠ 0) ∧ (opField 0x3400 = 3 ∧ aselField 0x3400 ≠ 0) ∧
    (opField 0x5001 = 5 ∧ dataField 0x5001 ≠ 0) := by decide
theorem witness_WhereTheHostStopsTheRun :
    (State.reset.seq.phase = .idle ∧ State.reset.move = .serve ∧ State.reset.io.commands = []) ∧
    (let s := emitting .base64 [0x41] true (host [] [] [])
     s.seq.phase = .encEmit ∧ s.move = .serve ∧ s.seq.emitq ≠ [] ∧ s.io.sinkAnswers = []) ∧
    (let s := flushing (host [] [] [])
     s.seq.phase = .encFlush ∧ s.move = .serve ∧ s.io.sinkAnswers = []) ∧
    (let s := filling .base64 [] (host [] [] [])
     s.seq.phase = .decFill ∧ s.move = .serve ∧ s.io.sourceAnswers = [] ∧ s.io.sourceRepeat = []) ∧
    (let s := flushing (host [] [] [] [.present 0x1000])
     s.seq.phase ≠ .idle ∧ s.move = .present 0x1000) ∧
    (let s := fresh (host [] [] [] [.lateAnswer])
     s.move = .lateAnswer ∧ s.io.withdrawn = 0) := by decide
theorem witness_DecodeFollowsTheOpcodeMap : decode 0x1C00 = .ok (.encInit .base32hex) := by decide

/-! ### Witnesses: lookups -/

theorem witness_TablesAndLookups :
    63 < numSymbols .base64url ∧ 31 < numSymbols .base32 ∧ val .base64url 0x5F = some 63 ∧ val .base32 0x37 = some 31 := by
  decide
theorem witness_ClassifyCharacter :
    padOctet = 0x3D ∧ val .base64 0x2F = some 63 ∧ (0x2F : Byte) ≠ 0x3D ∧ val .base64 0x0A = none ∧ (0x0A : Byte) ≠ 0x3D := by
  decide
theorem witness_LutSymAnswers :
    (63 : Byte).toNat < numSymbols .base64 ∧ numSymbols .base64 ≤ (64 : Byte).toNat ∧
    (31 : Byte).toNat < numSymbols .base32hex ∧ numSymbols .base32hex ≤ (32 : Byte).toNat := by decide
theorem witness_LutValAnswers :
    (table .base64)[63]? = some 0x2F ∧ (table .base32)[0]? = some 0x41 ∧ (0x3D : Byte) ∉ table .base64 ∧
    (0x61 : Byte) ∉ table .base32 := by decide

/-! ### Witnesses: encoder -/

theorem witness_UnusableEngineRefuses :
    State.reset.enc.mode = .off ∧ State.reset.dec.mode = .off ∧ (State.reset.setMode .encoder .failed).enc.mode = .failed ∧
    (State.reset.setMode .decoder .failed).dec.mode = .failed := by decide
theorem witness_EncPutHoldsOrFills :
    State.reset.enc.mode ≠ .ready ∧
    (let s := encoding .base64 [1] (host [] [] [])
     s.enc.mode = .ready ∧ s.enc.cnt.toNat + 1 < groupBytes s.enc.asel) ∧
    (let s := encoding .base64 [1, 2] (host [] [] [])
     s.enc.mode = .ready ∧ s.enc.cnt.toNat + 1 = groupBytes s.enc.asel) ∧
    (let s := encoding .base32 [1, 2, 3, 4] (host [] [] [])
     s.enc.mode = .ready ∧ s.enc.cnt.toNat + 1 = groupBytes s.enc.asel) := by decide
theorem witness_EncFinalPadsAndFlushes :
    State.reset.enc.mode ≠ .ready ∧
    (let s := encoding .base32 [] (host [] [] [])
     s.enc.mode = .ready ∧ s.enc.cnt = 0) ∧
    (let s := encoding .base32 [1, 2, 3, 4] (host [] [] [])
     s.enc.mode = .ready ∧ s.enc.cnt ≠ 0 ∧ s.enc.cnt.toNat < groupBytes s.enc.asel) := by decide
theorem witness_FullGroupOctets : 3 < groupSymbols .base64 ∧ 7 < groupSymbols .base32 := by decide
theorem witness_FinalGroupOctets :
    2 < groupBytes .base64 ∧ 4 < groupBytes .base32 ∧ 1 < realSymbols .base32 1 ∧
    realSymbols .base32 1 ≤ 7 ∧ 7 < groupSymbols .base32 := by decide
theorem witness_PaddingTables : family .base64url = .byte ∧ family .base32hex = .quintet := by decide
theorem witness_EmitStepWritesTheHead :
    (let s := emitting .base64 [0x54, 0x57] true (host [] [.ack, .err] [])
     s.seq.phase = .encEmit ∧ s.move = .serve ∧ s.seq.emitq = [0x54, 0x57] ∧ s.io.sinkAnswers = [.ack, .err]) ∧
    (let s := emitting .base64 [0x3D] true (host [] [.ack] [])
     s.seq.phase = .encEmit ∧ s.move = .serve ∧ s.seq.emitq = [0x3D] ∧ s.seq.flush = true ∧ s.io.sinkAnswers = [.ack]) ∧
    (let s := emitting .base64 [0x75] false (host [] [.ack] [])
     s.seq.phase = .encEmit ∧ s.move = .serve ∧ s.seq.emitq = [0x75] ∧ s.seq.flush = false ∧ s.io.sinkAnswers = [.ack]) ∧
    (let s := emitting .base64 [0x75] false (host [] [.err] [])
     s.seq.phase = .encEmit ∧ s.move = .serve ∧ s.seq.emitq = [0x75] ∧ s.io.sinkAnswers = [.err]) := by decide
theorem witness_FlushStepEndsTheCommand :
    (let s := flushing (host [] [.ack] [])
     s.seq.phase = .encFlush ∧ s.move = .serve ∧ s.io.sinkAnswers = [.ack]) ∧
    (let s := flushing (host [] [.err] [])
     s.seq.phase = .encFlush ∧ s.move = .serve ∧ s.io.sinkAnswers = [.err]) := by decide
theorem witness_TransactionsThenFlushThenResponse :
    (let s := emitting .base64 [0x54, 0x51] true (host [] [.ack, .ack, .ack, .err] [])
     s.seq.phase = .encEmit ∧ s.seq.emitq ≠ [] ∧ s.io.schedule = [] ∧
     3 = s.seq.emitq.length + (if s.seq.flush then 1 else 0) ∧ s.io.sinkAnswers = List.replicate 3 .ack ++ [.err]) ∧
    (let s := emitting .base64 [0x54, 0x51] false (host [] [.ack, .ack] [])
     s.seq.phase = .encEmit ∧ s.seq.emitq ≠ [] ∧ s.io.schedule = [] ∧
     2 = s.seq.emitq.length + (if s.seq.flush then 1 else 0) ∧ s.io.sinkAnswers = List.replicate 2 .ack ++ []) := by decide
theorem witness_EmissionStopsAtTheFirstError :
    (let s := emitting .base64 [0x54, 0x57, 0x46, 0x75] false (host [] [.ack, .ack, .ack, .err] [])
     s.seq.phase = .encEmit ∧ s.io.schedule = [] ∧ 3 < s.seq.emitq.length ∧
     s.io.sinkAnswers = List.replicate 3 .ack ++ .err :: []) ∧
    (let s := emitting .base64 [0x54] false (host [] [.err] [])
     s.seq.phase = .encEmit ∧ s.io.schedule = [] ∧ 0 < s.seq.emitq.length ∧
     s.io.sinkAnswers = List.replicate 0 .ack ++ .err :: []) := by decide
theorem witness_FinalizeTwiceOnlyFlushes :
    (let s := encoding .base64 [1, 2] (host [0x3000, 0x3000] (List.replicate 6 .ack) [])
     (s.seq.phase = .idle ∧ s.io.schedule = []) ∧ s.enc.mode = .ready ∧ s.enc.cnt.toNat < groupBytes s.enc.asel ∧
     s.io.commands = [encode .encFinal, encode .encFinal] ∧ s.io.sinkAnswers = List.replicate 5 .ack ++ .ack :: [] ∧
     5 = (if s.enc.cnt = 0 then 1 else groupSymbols s.enc.asel + 1)) ∧
    (let s := encoding .base32 [] (host [0x3000, 0x3000] (List.replicate 2 .ack) [])
     (s.seq.phase = .idle ∧ s.io.schedule = []) ∧ s.enc.mode = .ready ∧ s.enc.cnt.toNat < groupBytes s.enc.asel ∧
     s.io.commands = [encode .encFinal, encode .encFinal] ∧ s.io.sinkAnswers = List.replicate 1 .ack ++ .ack :: [] ∧
     1 = (if s.enc.cnt = 0 then 1 else groupSymbols s.enc.asel + 1)) := by decide
theorem witness_EncoderWritesTheCompleteGroups :
    let s := encoding .base64 [0x4D] (host [0x2061, 0x206E, 0x204D, 0x3000] (List.replicate 5 .ack) [])
    Quiet s ∧ s.enc.mode = .ready ∧ s.enc.cnt.toNat < groupBytes s.enc.asel ∧
      s.io.commands = ([0x61, 0x6E, 0x4D] : List Byte).map (fun b => encode (.encPut b)) ++ [encode .encFinal] ∧
      4 = (s.enc.cnt.toNat + ([0x61, 0x6E, 0x4D] : List Byte).length) / groupBytes s.enc.asel * groupSymbols s.enc.asel ∧
      s.io.sinkAnswers = List.replicate 4 .ack ++ [.ack] := by
  refine ⟨⟨?_, ?_⟩, ?_⟩ <;> decide

/-- A whole session of the encoder, from reset: `4D 61 6E 4D` in Base64, nine sink answers (P1). -/
def session : State :=
  fresh (host [0x1000, 0x204D, 0x2061, 0x206E, 0x204D, 0x3000] (List.replicate 9 .ack)
    ([0x54, 0x57, 0x46, 0x75].map .chr ++ [.endOfInput]))

theorem witness_PaddingLengthLaw :
    Quiet session ∧
    session.io.commands =
      encode (.encInit .base64) :: (([0x4D, 0x61, 0x6E, 0x4D] : List Byte).map (fun b => encode (.encPut b)) ++ [encode .encFinal]) ∧
    8 = (([0x4D, 0x61, 0x6E, 0x4D] : List Byte).length + (groupBytes .base64 - 1)) / groupBytes .base64 * groupSymbols .base64 ∧
    session.io.sinkAnswers = List.replicate 8 .ack ++ .ack :: [] := by
  refine ⟨⟨?_, ?_⟩, ?_⟩ <;> decide
theorem witness_EmittedIsAlwaysAPrefix : ∃ t,
    Quiet session ∧
    session.io.commands =
      encode (.encInit .base64) :: (([0x4D, 0x61, 0x6E, 0x4D] : List Byte).map (fun b => encode (.encPut b)) ++ [encode .encFinal]) ∧
    runSteps 6 session = .next t ∧ t.emitted = [0x54, 0x57] :=
  ⟨(nextOf (runSteps 6 session)).getD State.reset, ⟨by decide, by decide⟩, by decide, eq_next (by decide), by decide⟩
theorem inv_emitting : Inv (emitting .base64 [0x46, 0x75] false (host [] [.ack, .ack] [])) := by
  constructor <;> decide
theorem witness_SinkGetsOnlyAlphabetAndPadding : ∃ s t, Inv s ∧ step s = .next t ∧ t.io.trace = [.sinkWrite 0x46 .ack] :=
  ⟨_, (nextOf (step (emitting .base64 [0x46, 0x75] false (host [] [.ack, .ack] [])))).getD State.reset, inv_emitting,
    eq_next (by decide), by decide⟩

/-! ### Witnesses: decoder -/

theorem witness_DecNextServesEndsOrFills :
    State.reset.dec.mode ≠ .ready ∧
    (let s := decoding .base32 [1, 2, 3, 4, 5] (host [] [] [])
     s.dec.mode = .ready ∧ s.dec.olen.toNat ≤ 5 ∧ s.dec.opos.toNat < s.dec.olen.toNat) ∧
    (let s := decoding .base64 [] (host [] [] [])
     s.dec.mode = .ready ∧ s.dec.olen.toNat ≤ s.dec.opos.toNat ∧ s.dec.eof = false) ∧
    (let d := (decoding .base64 [] (host [] [] [])).dec
     let s : State := { State.reset with dec := { d with eof := true } }
     s.dec.mode = .ready ∧ s.dec.olen.toNat ≤ s.dec.opos.toNat ∧ s.dec.eof = true) := by decide

/-- A fill step whose source answers the given item, with no more of them to come. -/
abbrev FillsOn (s : State) (a : SourceAnswer) : Prop :=
  s.seq.phase = .decFill ∧ s.move = .serve ∧ s.nextSource = some (a, [])

theorem witness_FillStepOnACharacter :
    (let s := filling .base64 [19, 22] (host [] [] [.chr 0x0A])
     FillsOn s (.chr 0x0A) ∧ classify s.dec.asel 0x0A = .foreign) ∧
    (let s := filling .base64 [19, 22] (host [] [] [.chr 0x3D])
     FillsOn s (.chr 0x3D) ∧ classify s.dec.asel 0x3D = .pad ∧ s.dec.scnt.toNat + 1 < groupSymbols s.dec.asel) ∧
    (let s := filling .base32 [1, 2, 3, 4, 5, 6, 7] (host [] [] [.chr 0x37])
     FillsOn s (.chr 0x37) ∧ classify s.dec.asel 0x37 = .index 31 ∧
     s.dec.scnt.toNat + 1 = groupSymbols s.dec.asel) := by decide
theorem witness_ValidGroupServesItsFirstByte :
    (let s := filling .base64 [19, 22, 5] (host [] [] [.chr 0x75])
     FillsOn s (.chr 0x75) ∧ (classify s.dec.asel 0x75).slot? = some 46 ∧ s.dec.scnt.toNat + 1 = groupSymbols s.dec.asel ∧
     validate s.dec.asel (s.dec.slot.setIfInBounds s.dec.scnt.toNat 46) = .ok 4) ∧
    (let s := filling .base32 [12, 25, 64, 64, 64, 64, 64] (host [] [] [.chr 0x3D])
     FillsOn s (.chr 0x3D) ∧ (classify s.dec.asel 0x3D).slot? = some 64 ∧ s.dec.scnt.toNat + 1 = groupSymbols s.dec.asel ∧
     validate s.dec.asel (s.dec.slot.setIfInBounds s.dec.scnt.toNat 64) = .ok 2) := by decide
theorem witness_InvalidGroupFails :
    (let s := filling .base32 [12, 25, 23, 22, 30, 24, 64] (host [] [] [.chr 0x3D])
     FillsOn s (.chr 0x3D) ∧ (classify s.dec.asel 0x3D).slot? = some 64 ∧ s.dec.scnt.toNat + 1 = groupSymbols s.dec.asel ∧
     validate s.dec.asel (s.dec.slot.setIfInBounds s.dec.scnt.toNat 64) = .error .badCount) ∧
    (let s := filling .base64 [64, 0, 64] (host [] [] [.chr 0x3D])
     FillsOn s (.chr 0x3D) ∧ (classify s.dec.asel 0x3D).slot? = some 64 ∧ s.dec.scnt.toNat + 1 = groupSymbols s.dec.asel ∧
     validate s.dec.asel (s.dec.slot.setIfInBounds s.dec.scnt.toNat 64) = .error .earlyPad) := by decide
theorem witness_FillStepOnEndOrError :
    (let s := filling .base64 [] (host [] [] [.endOfInput])
     FillsOn s .endOfInput ∧ s.dec.scnt = 0) ∧
    (let s := filling .base64 [19, 22, 5] (host [] [] [.endOfInput])
     FillsOn s .endOfInput ∧ 1 ≤ s.dec.scnt.toNat ∧ s.dec.scnt.toNat ≤ groupSymbols s.dec.asel - 1) ∧
    (let s := filling .base32 [19] (host [] [] [.endOfInput])
     FillsOn s .endOfInput ∧ 1 ≤ s.dec.scnt.toNat ∧ s.dec.scnt.toNat ≤ groupSymbols s.dec.asel - 1) ∧
    FillsOn (filling .base64 [19] (host [] [] [.err])) .err := by decide
/-- A group for each outcome of R158: V-B64-31, V-B64-32, V-B32-25 and a full one. -/
theorem witness_ValidationCausesInOrder :
    validate .base64 (slotsOf [64, 64, 64, 64]) = .error .earlyPad ∧
    validate .base64 (slotsOf [19, 16, 64, 46]) = .error .padThenSymbol ∧
    validate .base32 (slotsOf [12, 25, 23, 64, 64, 64, 64, 64]) = .error .badCount ∧
    validate .base32 (slotsOf [1, 2, 3, 4, 5, 6, 7, 8]) = .ok 8 := by decide
theorem witness_ValidGroupsOfEachFamily :
    family .base64 = .byte ∧ family .base32 = .quintet ∧ 1 ≤ groupBytes .base64 ∧
    validate .base64 (slotsOf [19, 16, 64, 64]) = .ok 2 ∧
    validate .base32 (slotsOf [12, 25, 64, 64, 64, 64, 64, 64]) = .ok 2 ∧
    validate .base32 (slotsOf [12, 25, 23, 22, 30, 24, 64, 64]) = .error .badCount := by decide
theorem witness_ReconstructionIsSlicing :
    7 ∈ validCounts .base32 ∧
    (∀ i, (h : i < 8) → i < 7 → (slotsOf [31, 0, 31, 1, 2, 3, 16, 64])[i].toNat < numSymbols .base32) := by decide
theorem witness_ReconstructionUndoesPacking :
    2 ≤ groupBytes .base64 ∧
    (∀ i, (h : i < 8) → i < groupSymbols .base64 → some (slotsOf [19, 22, 4, 64])[i] =
      if i < realSymbols .base64 2 then ((pack .base64 (zeroFill 2 (groupOf [0x4D, 0x61])))[i]?).map (BitVec.ofNat 7)
      else some 0x40) := by decide
/-- `TWF=` and `TWE=` (R174). -/
theorem witness_UnusedBitsAreIgnored :
    3 ∈ validCounts .base64 ∧
    (∀ i, (h : i < 8) → i + 1 < 3 → (slotsOf [19, 22, 5, 64])[i] = (slotsOf [19, 22, 4, 64])[i]) ∧
    (∀ i, (h : i < 8) → i + 1 = 3 →
      (slotsOf [19, 22, 5, 64])[i].toNat / 2 ^ (3 * bitsPerSymbol .base64 - 8 * numBytes .base64 3) =
        (slotsOf [19, 22, 4, 64])[i].toNat / 2 ^ (3 * bitsPerSymbol .base64 - 8 * numBytes .base64 3)) := by decide
theorem witness_ForeignCharactersAreNotBounded :
    (let s := filling .base32 [1] (host [] [] [.chr 0x0D, .chr 0x0A, .endOfInput])
     s.seq.phase = .decFill ∧ s.io.schedule = [] ∧ (∀ c ∈ ([0x0D, 0x0A] : List Byte), classify s.dec.asel c = .foreign) ∧
     s.io.sourceAnswers = ([0x0D, 0x0A] : List Byte).map .chr ++ [.endOfInput]) ∧
    (let s := filling .base64 [19, 22] (host [] [] [.chr 0x0D] [] [.chr 0x20, .chr 0x0A])
     s.seq.phase = .decFill ∧ s.io.schedule = [] ∧ UnendingForeign s) ∧
    (let s := decoding .base64 [] (host [0x5000] [] [] [] [.chr 0x20])
     Quiet s ∧ s.io.commands = encode .decNext :: [] ∧ s.dec.mode = .ready ∧ s.dec.opos = s.dec.olen ∧
     s.dec.eof = false ∧ UnendingForeign s) := by
  refine ⟨?_, ⟨?_, ?_, ?_, ?_⟩, ⟨?_, ?_⟩, ?_, ?_, ?_, ?_, ?_, ?_⟩ <;> decide
/-- A read past the listed items starts the repeated ones again (R239). -/
theorem test_source_repeats :
    (filling .base64 [] (host [] [] [] [] [.chr 0x20, .chr 0x0A])).nextSource = some (.chr 0x20, [.chr 0x0A]) := by decide

/-- A READY decoder before two DEC_NEXTs, its source `TQ==` with a foreign octet (V-B64-23). -/
def reading : State :=
  decoding .base64 [] (host [0x5000, 0x5000] [] [.chr 0x54, .chr 0x0A, .chr 0x51, .chr 0x3D, .chr 0x3D, .endOfInput])

theorem witness_ForeignOctetsDoNotMatter : ∃ t,
    Quiet reading ∧ reading.io.commands = List.replicate 2 (encode .decNext) ∧
    ([.chr 0x54, .chr 0x51, .chr 0x3D, .chr 0x3D, .endOfInput] : List SourceAnswer).filter (·.counts reading.dec.asel) =
      reading.io.sourceAnswers.filter (·.counts reading.dec.asel) ∧
    runSteps 8 reading = .next t ∧ t.seq.phase = .idle ∧ t.io.commands = [] :=
  ⟨(nextOf (runSteps 8 reading)).getD State.reset, ⟨by decide, by decide⟩, by decide, by decide, eq_next (by decide),
    by decide, by decide⟩
theorem witness_DecoderAnswersTheStream :
    (Quiet reading ∧ reading.dec.mode = .ready ∧ reading.dec.opos = reading.dec.olen ∧ reading.dec.eof = false ∧
     reading.io.commands = List.replicate 2 (encode .decNext) ∧
     reading.io.sourceAnswers = ([0x54, 0x0A, 0x51, 0x3D, 0x3D] : List Byte).map .chr ++ (if false then .err else .endOfInput) :: []) ∧
    (let s := decoding .base32 [] (host [0x5000] [] [.chr 0x4D, .err])
     s.io.sourceAnswers = ([0x4D] : List Byte).map .chr ++ (if true then .err else .endOfInput) :: []) := by
  refine ⟨⟨⟨?_, ?_⟩, ?_⟩, ?_⟩ <;> decide
/-- The session and a decoder that reads back `TWFuTQ==`. -/
theorem witness_DecodingUndoesEncoding :
    Quiet session ∧
    session.io.commands =
      encode (.encInit .base64) :: (([0x4D, 0x61, 0x6E, 0x4D] : List Byte).map (fun b => encode (.encPut b)) ++ [encode .encFinal]) ∧
    9 = (([0x4D, 0x61, 0x6E, 0x4D] : List Byte).length + (groupBytes .base64 - 1)) / groupBytes .base64 * groupSymbols .base64 + 1 ∧
    session.io.sinkAnswers = List.replicate 9 .ack ++ [] ∧
    (let u := fresh (host (0x4000 :: List.replicate 5 0x5000) []
       (([0x54, 0x57, 0x46, 0x75, 0x54, 0x51, 0x3D, 0x3D] : List Byte).map .chr ++ [.endOfInput]))
     (u.seq.phase = .idle ∧ u.io.schedule = []) ∧
     u.io.commands = encode (.decInit .base64) :: List.replicate (4 + 1) (encode .decNext)) := by
  refine ⟨⟨?_, ?_⟩, ?_⟩ <;> decide

/-! ### Witnesses: rules of the whole machine -/

/-- A fill step that meets `End`. -/
def ending : State := filling .base64 [] (host [] [] [.endOfInput])

theorem witness_SourceReadsAreConsumedOnce :
    (∃ t, ending.seq.phase = .decFill ∧ ending.move = .serve ∧ ending.nextSource = some (.endOfInput, []) ∧
      step ending = .next t) ∧
    (∃ t, DecoderEnded (fresh (host [0x5000] [] [])) ∧
      (∀ w a, (fresh (host [0x5000] [] [])).issued = some w → decode w ≠ .ok (.decInit a)) ∧
      step (fresh (host [0x5000] [] [])) = .next t) := by
  refine ⟨⟨(nextOf (step ending)).getD State.reset, by decide, by decide, by decide, eq_next (by decide)⟩,
    ⟨(nextOf (step (fresh (host [0x5000] [] [])))).getD State.reset, ⟨by decide, .inl (by decide)⟩, ?_, eq_next (by decide)⟩⟩
  intro w a h
  have hw : w = 0x5000 := by simpa [State.issued, fresh, host, State.reset, State.move] using h.symm
  subst hw
  cases a <;> decide
theorem witness_TransactionsAnswerTheRequest : ∃ t,
    step (flushing (host [] [.ack] [])) = .next t ∧ (flushing (host [] [.ack] [])).request = some .sinkFlush :=
  ⟨(nextOf (step (flushing (host [] [.ack] [])))).getD State.reset, eq_next (by decide), by decide⟩
theorem witness_OneResponseEndsACommand :
    (∃ t, ending.move = .serve ∧ step ending = .next t ∧ t.seq.phase = .idle) ∧
    (∃ t, (fresh (host [] [] [] [.present 0x6000])).move = .present 0x6000 ∧
      step (fresh (host [] [] [] [.present 0x6000])) = .next t ∧ t.seq.phase = .idle) :=
  ⟨⟨(nextOf (step ending)).getD State.reset, by decide, eq_next (by decide), by decide⟩,
    ⟨(nextOf (step (fresh (host [] [] [] [.present 0x6000])))).getD State.reset, by decide, eq_next (by decide), by decide⟩⟩
theorem witness_ResponseWordsAreListed : ∃ t es r,
    step ending = .next t ∧ t.io.trace = ending.io.trace ++ es ∧ Event.response r ∈ es ∧ r = 0x2000 :=
  ⟨(nextOf (step ending)).getD State.reset, [.sourceRead .endOfInput, .response 0x2000], 0x2000, eq_next (by decide),
    by decide, by decide, rfl⟩
theorem witness_ErrorEntryIsPrecise :
    (∃ t, step (flushing (host [] [.err] [])) = .next t ∧ (flushing (host [] [.err] [])).enc.mode ≠ .failed ∧
      t.enc.mode = .failed) ∧
    (∃ t, step (filling .base64 [19] (host [] [] [.endOfInput])) = .next t ∧
      (filling .base64 [19] (host [] [] [.endOfInput])).dec.mode ≠ .failed ∧ t.dec.mode = .failed) :=
  ⟨⟨(nextOf (step (flushing (host [] [.err] [])))).getD State.reset, eq_next (by decide), by decide, by decide⟩,
    ⟨(nextOf (step (filling .base64 [19] (host [] [] [.endOfInput])))).getD State.reset, eq_next (by decide), by decide,
      by decide⟩⟩

/-- A state with both engines FAILED, in which the host presents the given word or moves as given. -/
def bothFailed (io : Channels) : State := ((fresh io).setMode .encoder .failed).setMode .decoder .failed

theorem witness_OnlyInitOrResetLeavesFailed :
    (∃ t, step (bothFailed (host [0x1000] [] [])) = .next t ∧ (bothFailed (host [0x1000] [] [])).enc.mode = .failed ∧
      t.enc.mode = .ready) ∧
    (∃ t, step (bothFailed (host [0x4000] [] [])) = .next t ∧ (bothFailed (host [0x4000] [] [])).dec.mode = .failed ∧
      t.dec.mode = .ready) ∧
    (∃ t, step (bothFailed (host [] [] [] [.reset])) = .next t ∧ t.enc.mode = .off ∧ t.dec.mode = .off) :=
  ⟨⟨(nextOf (step (bothFailed (host [0x1000] [] [])))).getD State.reset, eq_next (by decide), by decide, by decide⟩,
    ⟨(nextOf (step (bothFailed (host [0x4000] [] [])))).getD State.reset, eq_next (by decide), by decide, by decide⟩,
    ⟨(nextOf (step (bothFailed (host [] [] [] [.reset])))).getD State.reset, eq_next (by decide), by decide, by decide⟩⟩
theorem witness_EnginesShareNothing :
    (let s := emitting .base64 [0x54] true (host [] [.ack] [])
     s.seq.phase = .encEmit ∧ s.move = .serve) ∧
    ((flushing (host [] [.ack] [])).seq.phase = .encFlush ∧ (flushing (host [] [.ack] [])).move = .serve) ∧
    (ending.seq.phase = .decFill ∧ ending.move = .serve) := by decide
/-- The invariant in each phase, beside `inv_emitting`. -/
theorem inv_flushing : Inv (flushing (host [] [.ack] [])) := by constructor <;> decide
theorem inv_filling : Inv (filling .base32 [12, 64, 31] (host [] [] [.chr 0x41])) := by constructor <;> decide
theorem inv_serving : Inv (decoding .base32 [1, 2, 3, 4, 5] (host [0x5000] [] [])) := by constructor <;> decide
theorem witness_EveryStepKeepsTheInvariant : ∃ s t, Inv s ∧ step s = .next t ∧ t.dec.scnt = 4 :=
  ⟨_, (nextOf (step (filling .base32 [12, 64, 31] (host [] [] [.chr 0x41])))).getD State.reset, inv_filling,
    eq_next (by decide), by decide⟩
theorem witness_RunsAreSafe : ∃ s, Inv s ∧ s.seq.phase = .encFlush := ⟨_, inv_flushing, by decide⟩
theorem witness_EveryCommandIsAccepted : ∃ s, Inv s ∧ s.seq.phase = .idle ∧ s.dec.mode = .ready := ⟨_, inv_serving, by decide⟩
theorem witness_EveryAnswerIsTaken :
    (∃ s, Inv s ∧ s.move = .serve ∧ s.seq.phase = .encEmit ∧ s.io.sinkAnswers ≠ []) ∧
    (∃ s, Inv s ∧ s.move = .serve ∧ s.seq.phase = .encFlush ∧ s.io.sinkAnswers ≠ []) ∧
    (∃ s, Inv s ∧ s.move = .serve ∧ s.seq.phase = .decFill ∧ s.nextSource ≠ none) ∧
    (∃ s, Inv s ∧ s.move = .serve ∧ s.seq.phase = .idle ∧ s.io.commands ≠ []) :=
  ⟨⟨_, inv_emitting, by decide⟩, ⟨_, inv_flushing, by decide⟩, ⟨_, inv_filling, by decide⟩, ⟨_, inv_serving, by decide⟩⟩

end Sys2Proof.Tests
end

