-- ==== Sys2Proof/Proofs/SourceReads.lean ====
section
/-! PROOF. Reading the source (20_memory.md R52): what a step takes from the source, and that the decoder stays ended after
`End` or `Err` until the next DEC_INIT. -/

namespace Sys2Proof.Machine

/-- The source as reads change it: how many items were read, the items still to come and the repeated ones (R52). -/
def Channels.source (io : Channels) : Nat × List SourceAnswer × List SourceAnswer :=
  (io.trace.countP Event.isSourceRead, io.sourceAnswers, io.sourceRepeat)

theorem source_eq_iff {s t : State} : t.io.source = s.io.source ↔
    t.itemsConsumed = s.itemsConsumed ∧ t.io.sourceAnswers = s.io.sourceAnswers ∧
      t.io.sourceRepeat = s.io.sourceRepeat := by
  simp [Channels.source, State.itemsConsumed]

/-! ### Operations that leave the source as it is -/

section
variable (s : State) (g : Engine) (r : Response)

theorem State.observe_source {e : Event} (he : e.isSourceRead = false) : (s.observe e).io.source = s.io.source := by
  simp [Channels.source, he]

theorem State.respond_source : (s.respond r).io.source = s.io.source := s.observe_source rfl
theorem State.finish_source : (s.finish r).io.source = s.io.source := (s.setPhase .idle).respond_source r
theorem State.fail_source : (s.fail g r).io.source = s.io.source := by cases g <;> exact State.respond_source _ r
theorem State.refuseUnusable_source : (s.refuseUnusable g).io.source = s.io.source := s.respond_source _
theorem hardReset_source : (hardReset s).io.source = s.io.source := rfl

end

section
variable {s t : State}

theorem execEncPut_source {b : Byte} (h : execEncPut b s = .next t) : t.io.source = s.io.source := by
  obtain ⟨-, rfl⟩ | ⟨-, -, -, rfl⟩ | ⟨-, -, -, rfl⟩ := execEncPut_next h
  · exact State.refuseUnusable_source _ _
  · exact State.respond_source _ _
  · rfl

theorem execEncFinal_source (h : execEncFinal s = .next t) : t.io.source = s.io.source := by
  obtain ⟨-, rfl⟩ | ⟨-, -, rfl⟩ | ⟨-, -, -, rfl⟩ := execEncFinal_next h
  · exact State.refuseUnusable_source _ _
  · rfl
  · rfl

theorem execDecNext_source (h : execDecNext s = .next t) : t.io.source = s.io.source := by
  obtain ⟨-, rfl⟩ | ⟨-, -, b, -, rfl⟩ | ⟨-, -, -, rfl⟩ | ⟨-, -, -, rfl⟩ := execDecNext_next h
  · exact State.refuseUnusable_source _ _
  · exact State.respond_source _ _
  · exact State.respond_source _ _
  · rfl

/-- No command reads the source itself: DEC_NEXT leaves that to the DEC_FILL steps (R52, R160). -/
theorem exec_source {i : Instr} (h : exec i s = .next t) : t.io.source = s.io.source := by
  obtain ⟨a, -, rfl⟩ | ⟨b, -, h⟩ | ⟨-, h⟩ | ⟨a, -, rfl⟩ | ⟨-, h⟩ | ⟨-, r, rfl, -⟩ := exec_next h
  · exact State.respond_source _ _
  · exact execEncPut_source h
  · exact execEncFinal_source h
  · exact State.respond_source _ _
  · exact execDecNext_source h
  · exact State.respond_source _ _

theorem issue_source {w : Word} (h : issue w s = .next t) : t.io.source = s.io.source := by
  obtain ⟨i, -, h⟩ | ⟨e, -, rfl⟩ := issue_cases h
  · exact exec_source h
  · exact State.respond_source _ _

theorem emitAnswered_source {a : SinkAnswer} (h : emitAnswered a s = .next t) : t.io.source = s.io.source := by
  obtain ⟨c, q, -, ⟨-, -, rfl⟩ | ⟨-, -, -, rfl⟩ | ⟨-, -, -, rfl⟩ | ⟨-, rfl⟩⟩ := emitAnswered_next h
  · exact State.observe_source _ rfl
  · exact State.observe_source _ rfl
  · exact (State.finish_source _ _).trans (State.observe_source _ rfl)
  · exact (State.fail_source _ _ _).trans (State.observe_source _ rfl)

theorem flushAnswered_source {a : SinkAnswer} (h : flushAnswered a s = .next t) : t.io.source = s.io.source := by
  obtain ⟨-, rfl⟩ | ⟨-, rfl⟩ := flushAnswered_next h
  · exact (State.finish_source _ _).trans (State.observe_source _ rfl)
  · exact (State.fail_source _ _ _).trans (State.observe_source _ rfl)

theorem completeGroup_source {g : DecodeGroup} (h : completeGroup g s = .next t) : t.io.source = s.io.source := by
  obtain ⟨cause, -, rfl⟩ | ⟨k, b, bs, -, -, rfl⟩ := completeGroup_next h
  · exact State.fail_source _ _ _
  · exact State.finish_source _ _

theorem fillSlot_source {x : Slot} (h : fillSlot x s = .next t) : t.io.source = s.io.source := by
  obtain ⟨-, ⟨-, rfl⟩ | ⟨-, h⟩⟩ := fillSlot_next h
  · rfl
  · exact (completeGroup_source h :)

theorem fillEnd_source (h : fillEnd s = .next t) : t.io.source = s.io.source := by
  obtain ⟨-, rfl⟩ | ⟨-, rfl⟩ := fillEnd_next h
  · exact State.finish_source _ _
  · exact State.fail_source _ _ _

/-! ### The one operation that reads -/

/-- Acting on a source answer observes the one read and nothing more of the source (R161). -/
theorem fillAnswered_source {a : SourceAnswer} (h : fillAnswered a s = .next t) :
    t.io.source = (s.observe (.sourceRead a)).io.source := by
  obtain ⟨c, -, -, rfl⟩ | ⟨c, x, -, -, h⟩ | ⟨-, h⟩ | ⟨-, rfl⟩ := fillAnswered_next h
  · rfl
  · exact fillSlot_source h
  · exact fillEnd_source h
  · exact State.fail_source _ _ _

/-- A step leaves the source as it is, or it is in DEC_FILL and takes the source's next item (R52). -/
theorem step_source (h : step s = .next t) : t.io.source = s.io.source ∨
    s.seq.phase = .decFill ∧ ∃ a rest, s.nextSource = some (a, rest) ∧
      t.io.source = (s.itemsConsumed + 1, rest, s.io.sourceRepeat) := by
  obtain ⟨-, rfl⟩ | ⟨-, -, rfl⟩ | ⟨-, w, cs, -, h⟩ | ⟨-, -, a, rest, -, h⟩ | ⟨-, -, a, rest, -, h⟩ |
    ⟨-, hp, a, rest, ha, h⟩ := step_cases h
  · exact .inl (hardReset_source s.afterMove)
  · exact .inl rfl
  · exact .inl (issue_source h :)
  · exact .inl (emitAnswered_source h :)
  · exact .inl (flushAnswered_source h :)
  · refine .inr ⟨hp, a, rest, ha, (fillAnswered_source h).trans ?_⟩
    simp [Channels.source, State.itemsConsumed]

/-! ### The decoder once it has ended -/

/-- Whether the decoder has ended is read from its registers and SEQ_PHASE alone. -/
theorem DecoderEnded.of_dec_eq (hs : DecoderEnded s) (hd : t.dec = s.dec) (hp : t.seq.phase ≠ .decFill) :
    DecoderEnded t := by
  rw [DecoderEnded, hd]
  exact ⟨hp, hs.2⟩

theorem fillEnd_ended (h : fillEnd s = .next t) : DecoderEnded t := by
  obtain ⟨-, rfl⟩ | ⟨-, rfl⟩ := fillEnd_next h
  · exact ⟨by simp, .inr rfl⟩
  · exact ⟨by simp, .inl (by simp)⟩

/-- Reading `End` or `Err` ends the decoder (R163 to R165). -/
theorem fillAnswered_ended {a : SourceAnswer} (ha : a = .endOfInput ∨ a = .err) (h : fillAnswered a s = .next t) :
    DecoderEnded t := by
  obtain ⟨c, rfl, -, -⟩ | ⟨c, x, rfl, -, -⟩ | ⟨-, h⟩ | ⟨-, rfl⟩ := fillAnswered_next h
  · simp at ha
  · simp at ha
  · exact fillEnd_ended h
  · exact ⟨by simp, .inl (by simp)⟩

theorem execEncPut_keeps_ended {b : Byte} (h : execEncPut b s = .next t) (hs : DecoderEnded s) : DecoderEnded t := by
  obtain ⟨-, rfl⟩ | ⟨-, -, -, rfl⟩ | ⟨-, -, -, rfl⟩ := execEncPut_next h
  · exact hs.of_dec_eq rfl hs.1
  · exact hs.of_dec_eq rfl hs.1
  · exact hs.of_dec_eq rfl (by simp)

theorem execEncFinal_keeps_ended (h : execEncFinal s = .next t) (hs : DecoderEnded s) : DecoderEnded t := by
  obtain ⟨-, rfl⟩ | ⟨-, -, rfl⟩ | ⟨-, -, -, rfl⟩ := execEncFinal_next h
  · exact hs.of_dec_eq rfl hs.1
  · exact hs.of_dec_eq rfl (by simp)
  · exact hs.of_dec_eq rfl (by simp)

/-- DEC_NEXT starts a fill only when the decoder is READY without DEC_EOF, so not once it has ended (R160). -/
theorem execDecNext_keeps_ended (h : execDecNext s = .next t) (hs : DecoderEnded s) : DecoderEnded t := by
  obtain ⟨-, rfl⟩ | ⟨-, -, b, -, rfl⟩ | ⟨-, -, -, rfl⟩ | ⟨hr, -, he, -⟩ := execDecNext_next h
  · exact hs.of_dec_eq rfl hs.1
  · exact hs
  · exact hs.of_dec_eq rfl hs.1
  · simp [DecoderEnded, hr, he] at hs

/-- Every command but DEC_INIT leaves an ended decoder ended. -/
theorem exec_keeps_ended {i : Instr} (h : exec i s = .next t) (hs : DecoderEnded s) (hi : ∀ a, i ≠ .decInit a) :
    DecoderEnded t := by
  obtain ⟨a, -, rfl⟩ | ⟨b, -, h⟩ | ⟨-, h⟩ | ⟨a, rfl, -⟩ | ⟨-, h⟩ | ⟨-, r, rfl, -⟩ := exec_next h
  · exact hs.of_dec_eq rfl hs.1
  · exact execEncPut_keeps_ended h hs
  · exact execEncFinal_keeps_ended h hs
  · exact absurd rfl (hi a)
  · exact execDecNext_keeps_ended h hs
  · exact hs.of_dec_eq rfl hs.1

theorem issue_keeps_ended {w : Word} (h : issue w s = .next t) (hs : DecoderEnded s)
    (hw : ∀ a, decode w ≠ .ok (.decInit a)) : DecoderEnded t := by
  obtain ⟨i, hd, h⟩ | ⟨e, -, rfl⟩ := issue_cases h
  · exact exec_keeps_ended h hs fun a hi => hw a (hi ▸ hd)
  · exact hs.of_dec_eq rfl hs.1

theorem emitAnswered_keeps_ended {a : SinkAnswer} (h : emitAnswered a s = .next t) (hs : DecoderEnded s) :
    DecoderEnded t := by
  obtain ⟨c, q, -, ⟨-, -, rfl⟩ | ⟨-, -, -, rfl⟩ | ⟨-, -, -, rfl⟩ | ⟨-, rfl⟩⟩ := emitAnswered_next h
  · exact hs.of_dec_eq rfl hs.1
  · exact hs.of_dec_eq rfl (by simp)
  · exact hs.of_dec_eq rfl (by simp)
  · exact hs.of_dec_eq rfl (by simp)

theorem flushAnswered_keeps_ended {a : SinkAnswer} (h : flushAnswered a s = .next t) (hs : DecoderEnded s) :
    DecoderEnded t := by
  obtain ⟨-, rfl⟩ | ⟨-, rfl⟩ := flushAnswered_next h
  · exact hs.of_dec_eq rfl (by simp)
  · exact hs.of_dec_eq rfl (by simp)

/-- The word a step takes from the host in IDLE is the word it issues. -/
theorem State.issued_of_idle {w : Word} {cs : List Word} (hp : s.seq.phase = .idle)
    (hw : s.move = .serve ∧ s.io.commands = w :: cs ∨ s.move = .present w ∧ s.io.commands = cs) :
    s.issued = some w := by
  obtain ⟨hm, hc⟩ | ⟨hm, -⟩ := hw
  · simp [State.issued, hp, hm, hc]
  · simp [State.issued, hp, hm]

/-- A step that issues no DEC_INIT leaves an ended decoder ended; a reset switches it off (R52, R230). -/
theorem step_keeps_ended (h : step s = .next t) (hs : DecoderEnded s)
    (hi : ∀ w a, s.issued = some w → decode w ≠ .ok (.decInit a)) : DecoderEnded t := by
  obtain ⟨-, rfl⟩ | ⟨-, -, rfl⟩ | ⟨hp, w, cs, hw, h⟩ | ⟨-, -, a, rest, -, h⟩ | ⟨-, -, a, rest, -, h⟩ |
    ⟨-, hp, -⟩ := step_cases h
  · exact ⟨by simp [State.reset], .inl (by simp [State.reset])⟩
  · exact hs.of_dec_eq rfl hs.1
  · exact issue_keeps_ended h hs fun a => hi w a (State.issued_of_idle hp hw)
  · exact emitAnswered_keeps_ended h hs
  · exact flushAnswered_keeps_ended h hs
  · exact absurd hp hs.1

/-- An ended decoder reads no item: only a step in DEC_FILL does. -/
theorem DecoderEnded.step_itemsConsumed (hs : DecoderEnded s) (h : step s = .next t) :
    t.itemsConsumed = s.itemsConsumed := by
  obtain hsrc | ⟨hp, -⟩ := step_source h
  · exact (source_eq_iff.mp hsrc).1
  · exact absurd hp hs.1

end

/-- Settles O49: what a step takes is `step_source`, the end is `fillAnswered_ended`, and it lasts by `step_keeps_ended`. -/
theorem sourceReadsAreConsumedOnce : Obligations.SourceReadsAreConsumedOnce := by
  unfold Obligations.SourceReadsAreConsumedOnce
  refine ⟨fun s t h => ?_, fun s t a rest hp hm hn ha h => ?_, fun s t hs hi h => ?_⟩
  · obtain hsrc | ⟨hp, a, rest, hn, hsrc⟩ := step_source h
    · obtain ⟨hitems, hans, hrep⟩ := source_eq_iff.mp hsrc
      exact ⟨hrep, .inl ⟨hitems, hans⟩⟩
    · obtain ⟨hitems, hans, hrep⟩ : t.itemsConsumed = s.itemsConsumed + 1 ∧ t.io.sourceAnswers = rest ∧
          t.io.sourceRepeat = s.io.sourceRepeat := by simpa [Channels.source, State.itemsConsumed] using hsrc
      exact ⟨hrep, .inr ⟨hp, hitems, a, hans ▸ hn⟩⟩
  · rw [step_serve_fill hp hm hn] at h
    exact fillAnswered_ended ha h
  · exact ⟨step_keeps_ended h hs hi, hs.step_itemsConsumed h⟩

end Sys2Proof.Machine
end

