-- ==== Sys2Proof/Proofs/IllegalWords.lean ====
section
/-! PROOF. An ILLEGAL word (30_encoding.md R82): why decoding rejects it in each of the three cases, and that a step that takes it from
the host only responds. -/

namespace Sys2Proof.Machine

/-! ### The three cases of R82 -/

section
variable {w : Word}

/-- R82 (b). -/
theorem decode_of_rsv_ne_zero (h : rsvField w ≠ 0) : decode w = .error .reservedBits :=
  if_pos (bne_iff_ne.mpr h)

/-- R82 (a), in a word that is not already rejected by (b). -/
theorem decode_of_reserved_op (hr : rsvField w = 0) (h : opField w = 0 ∨ 8 ≤ (opField w).toNat) :
    decode w = .error .reservedOpcode := by
  obtain hz | hge := h
  · simp [decode, hr, hz]
  · simp only [decode, hr, bne_self_eq_false, Bool.false_eq_true, if_false]
    split
    case h_8 => rfl
    all_goals omega

/-- R82 (c): a field that the opcode map marks 0 for the word's OP. -/
theorem decode_of_unused_field_ne_zero (hr : rsvField w = 0)
    (h : ((opField w = 1 ∨ opField w = 4) ∧ dataField w ≠ 0) ∨ (opField w = 2 ∧ aselField w ≠ 0) ∨
      ((opField w = 3 ∨ opField w = 5) ∧ (aselField w ≠ 0 ∨ dataField w ≠ 0))) :
    decode w = .error .nonzeroUnusedField := by
  obtain ⟨hop | hop, hd⟩ | ⟨hop, ha⟩ | ⟨hop | hop, hz⟩ := h
  · simpa [decode, hr, hop, requireZero] using hd
  · simpa [decode, hr, hop, requireZero] using hd
  · simpa [decode, hr, hop, requireZero] using ha
  · simpa [decode, hr, hop, requireZero, imp_iff_not_or] using hz
  · simpa [decode, hr, hop, requireZero, imp_iff_not_or] using hz

end

/-! ### What the step does with it -/

/-- A step in IDLE issues the word it takes from the host, served or presented. -/
theorem step_issues {s : State} {w : Word} {cs : List Word} (hp : s.seq.phase = .idle)
    (hw : s.move = .serve ∧ s.io.commands = w :: cs ∨ s.move = .present w ∧ s.io.commands = cs) :
    step s = issue w { s with io := { s.io with commands := cs, schedule := s.io.schedule.tail } } := by
  obtain ⟨hm, hc⟩ | ⟨hm, rfl⟩ := hw
  · exact step_serve_idle hp hm hc
  · simp [step, hm, hp, State.afterMove]

theorem issue_of_decode_error {w : Word} {e : Illegal} (h : decode w = .error e) (s : State) :
    issue w s = .next (s.respond .illegal) := by
  simp [issue, h, respondIllegal]

/-- Settles O4: the word is issued (`step_issues`), and each case of R82 makes it one that decoding rejects. -/
theorem illegalWordOnlyResponds : Obligations.IllegalWordOnlyResponds := by
  unfold Obligations.IllegalWordOnlyResponds
  intro s w ws hp hw hill
  obtain ⟨e, he⟩ : ∃ e, decode w = .error e := by
    by_cases hr : rsvField w = 0
    · obtain hop | hrsv | hfield := hill
      · exact ⟨_, decode_of_reserved_op hr hop⟩
      · exact absurd hr hrsv
      · exact ⟨_, decode_of_unused_field_ne_zero hr hfield⟩
    · exact ⟨_, decode_of_rsv_ne_zero hr⟩
  rw [step_issues hp hw, issue_of_decode_error he]
  rfl

end Sys2Proof.Machine
end

