-- ==== Sys2Proof/Proofs/Lookups.lean ====
section
/-! PROOF. The lookups (40_alphabet.md R103 to R109): what the alphabet tables say of the symbol and the value lookup, the decoder's
classification, and the two lookup commands. -/

namespace Sys2Proof.Machine

/-! ### The two lookups and the table -/

section
variable {a : Asel} {c : Byte} {i v : Nat}

theorem table_length (a : Asel) : (table a).length = numSymbols a := by cases a <;> rfl

theorem table_nodup (a : Asel) : (table a).Nodup := by cases a <;> decide

/-- Past the N indices of the alphabet the symbol lookup has no result (R104). -/
theorem sym_eq_none_iff : sym a v = none ↔ numSymbols a ≤ v := by
  rw [sym, List.getElem?_eq_none_iff, table_length]

/-- The value lookup gives the first index of the octet, and the entries being distinct (R103) there is no other. -/
theorem val_eq_some_iff : val a c = some i ↔ (table a)[i]? = some c := by
  simp only [val, List.findIdx?_eq_some_iff_getElem, List.getElem?_eq_some_iff, beq_iff_eq]
  constructor
  · rintro ⟨hi, hc, -⟩
    exact ⟨hi, hc⟩
  · rintro ⟨hi, hc⟩
    refine ⟨hi, hc, fun j hj hjc => ?_⟩
    have hij : j = i := ((table_nodup a).getElem_inj_iff).mp (hjc.trans hc.symm)
    omega

theorem val_eq_none_iff : val a c = none ↔ c ∉ table a := by
  simp only [val, List.findIdx?_eq_none_iff, beq_eq_false_iff_ne]
  exact ⟨fun h hc => h c hc rfl, fun h x hx hxc => h (hxc ▸ hx)⟩

/-! ### The decoder's classification (R106) -/

theorem classify_padOctet (a : Asel) : classify a padOctet = .pad := if_pos rfl

theorem classify_of_val_some (hc : c ≠ padOctet) (h : val a c = some i) : classify a c = .index i := by
  rw [classify, if_neg hc, h]

theorem classify_of_val_none (hc : c ≠ padOctet) (h : val a c = none) : classify a c = .foreign := by
  rw [classify, if_neg hc, h]

end

/-! ### The lookup commands: the result of the lookup gives the response (R107, R108) -/

section
variable {a : Asel} {v c : Byte}

theorem exec_lutSym_of_sym_some (h : sym a v.toNat = some c) (s : State) :
    exec (.lutSym a v) s = .next (s.observe (.response (0x10#8 ++ c))) := by
  simp [exec, execLutSym, h, State.respond]

theorem exec_lutSym_of_sym_none (h : sym a v.toNat = none) (s : State) :
    exec (.lutSym a v) s = .next (s.observe (.response 0x6000)) := by
  simp [exec, execLutSym, h, State.respond]

theorem exec_lutVal_of_val_some {i : Nat} (h : val a c = some i) (s : State) :
    exec (.lutVal a c) s = .next (s.observe (.response (0x10#8 ++ BitVec.ofNat 8 i))) := by
  simp [exec, execLutVal, h, State.respond]

theorem exec_lutVal_of_val_none (h : val a c = none) (s : State) :
    exec (.lutVal a c) s = .next (s.observe (.response 0x5000)) := by
  simp [exec, execLutVal, h, State.respond]

end

/-- Settles O13, by the three cases of R106. -/
theorem classifyCharacter : Obligations.ClassifyCharacter := by
  unfold Obligations.ClassifyCharacter
  intro a c
  exact ⟨fun hc => hc ▸ classify_padOctet a, fun _ => classify_of_val_some, classify_of_val_none⟩

/-- Settles O14: an index below N has a symbol (`sym_of_lt`), any other has none (`sym_eq_none_iff`). -/
theorem lutSymAnswers : Obligations.LutSymAnswers := by
  unfold Obligations.LutSymAnswers
  refine fun a v s => ⟨fun hv => ?_, fun hv => exec_lutSym_of_sym_none (sym_eq_none_iff.mpr hv) s⟩
  obtain ⟨c, hc⟩ := sym_of_lt hv
  exact ⟨c, hc, exec_lutSym_of_sym_some hc s⟩

/-- Settles O15: the value lookup is the index of the octet in the table (`val_eq_some_iff`), or there is none. -/
theorem lutValAnswers : Obligations.LutValAnswers := by
  unfold Obligations.LutValAnswers
  exact fun a c s => ⟨fun i hi => exec_lutVal_of_val_some (val_eq_some_iff.mpr hi) s,
    fun hc => exec_lutVal_of_val_none (val_eq_none_iff.mpr hc) s⟩

/-- Settles O16: the result of the lookup, which is of the word alone, fixes the response in every state. -/
theorem lutReadsNoEngineState : Obligations.LutReadsNoEngineState := by
  unfold Obligations.LutReadsNoEngineState
  refine fun a x => ⟨?_, ?_⟩
  · cases h : sym a x.toNat with
    | some c => exact ⟨_, exec_lutSym_of_sym_some h⟩
    | none => exact ⟨_, exec_lutSym_of_sym_none h⟩
  · cases h : val a x with
    | some i => exact ⟨_, exec_lutVal_of_val_some h⟩
    | none => exact ⟨_, exec_lutVal_of_val_none h⟩

end Sys2Proof.Machine
end

