-- ==== Sys2Proof/Proofs/EncoderCommands.lean ====
section
/-! PROOF. The three encoder commands (41_encoder.md R121, R133, R134, and R206 for an encoder that is not READY): what each answers,
one lemma per branch. -/

namespace Sys2Proof.Machine

/-- UNUSABLE carries the engine's mode in INFO (R78, R206). -/
theorem State.refuseUnusable_eq (s : State) (e : Engine) :
    s.refuseUnusable e = s.observe (.response (0x8#4 ++ (s.mode e).code.setWidth 4 ++ 0x00#8)) := rfl

section
variable {s : State} {b : Byte}

/-! ### ENC_INIT -/

theorem exec_encInit (a : Asel) (s : State) :
    exec (.encInit a) s = .next ({ s with enc := { s.enc with asel := a, cnt := 0, mode := .ready } }.respond .ok) :=
  execEncInit_eq a s

/-! ### ENC_PUT, by the mode and the room left in the group -/

theorem exec_encPut_of_not_ready (h : s.enc.mode ≠ .ready) :
    exec (.encPut b) s = .next (s.refuseUnusable .encoder) := if_pos h

theorem exec_encPut_of_room (hm : s.enc.mode = .ready) (hc : s.enc.cnt.toNat + 1 < groupBytes s.enc.asel) :
    exec (.encPut b) s = .next ({ s with enc := { s.enc with
      grp := s.enc.grp.setIfInBounds s.enc.cnt.toNat b, cnt := s.enc.cnt + 1 } }.respond .ok) := by
  obtain ⟨-, hgb⟩ := groupBytes_bounds s.enc.asel
  have hcnt : BitVec.ofNat 3 (s.enc.cnt.toNat + 1) = s.enc.cnt + 1 := by simp [BitVec.ofNat_add]
  have hlt : ¬ 5 ≤ s.enc.cnt.toNat := by omega
  simp [exec, execEncPut, hm, hlt, hc, hcnt]

theorem exec_encPut_of_full (hm : s.enc.mode = .ready) (hc : s.enc.cnt.toNat + 1 = groupBytes s.enc.asel) :
    exec (.encPut b) s = .next { s with
      enc := { s.enc with grp := s.enc.grp.setIfInBounds s.enc.cnt.toNat b, cnt := 0 }
      seq := { phase := .encEmit, flush := false,
               emitq := fullGroupOctets s.enc.asel (s.enc.grp.setIfInBounds s.enc.cnt.toNat b) } } := by
  obtain ⟨-, hgb⟩ := groupBytes_bounds s.enc.asel
  have hlt : ¬ 5 ≤ s.enc.cnt.toNat := by omega
  simp [exec, execEncPut, hm, hlt, ← hc]

/-! ### ENC_FINAL, by the mode and the number of bytes held -/

theorem exec_encFinal_of_not_ready (h : s.enc.mode ≠ .ready) :
    exec .encFinal s = .next (s.refuseUnusable .encoder) := if_pos h

theorem exec_encFinal_of_none_held (hm : s.enc.mode = .ready) (hc : s.enc.cnt = 0) :
    exec .encFinal s = .next { s with
      enc := { s.enc with cnt := 0 }
      seq := { phase := .encFlush, flush := true, emitq := [] } } := by
  simp [exec, execEncFinal, hm, hc]

theorem exec_encFinal_of_held (hm : s.enc.mode = .ready) (hc : s.enc.cnt ≠ 0)
    (hle : s.enc.cnt.toNat ≤ groupBytes s.enc.asel) :
    exec .encFinal s = .next { s with
      enc := { s.enc with cnt := 0 }
      seq := { phase := .encEmit, flush := true,
               emitq := finalGroupOctets s.enc.asel s.enc.cnt.toNat s.enc.grp } } := by
  have hk : s.enc.cnt.toNat ≠ 0 := fun h => hc (BitVec.eq_of_toNat_eq h)
  simp [exec, execEncFinal, hm, hk, Nat.not_lt.mpr hle]

end

/-- Settles O17, by the one outcome of ENC_INIT (`exec_encInit`) and the word of OK. -/
theorem encInitStartsSession : Obligations.EncInitStartsSession := by
  unfold Obligations.EncInitStartsSession
  intro a s
  rw [exec_encInit, State.respond, Response.word_ok]
  rfl

/-- Settles O19: not READY (R206), a byte that leaves room, and a byte that fills the group (R133). -/
theorem encPutHoldsOrFills : Obligations.EncPutHoldsOrFills := by
  unfold Obligations.EncPutHoldsOrFills
  refine fun b s => ⟨fun hm => ?_, fun hm hc => ?_, exec_encPut_of_full⟩
  · rw [exec_encPut_of_not_ready hm, State.refuseUnusable_eq, State.mode_encoder]
  · rw [exec_encPut_of_room hm hc, State.respond, Response.word_ok]
    rfl

/-- Settles O20: not READY (R206), no byte held, and a partial group of k bytes, 0 < k < GB (R134). -/
theorem encFinalPadsAndFlushes : Obligations.EncFinalPadsAndFlushes := by
  unfold Obligations.EncFinalPadsAndFlushes
  refine fun s => ⟨fun hm => ?_, exec_encFinal_of_none_held, fun hm hc hlt => exec_encFinal_of_held hm hc hlt.le⟩
  rw [exec_encFinal_of_not_ready hm, State.refuseUnusable_eq, State.mode_encoder]

end Sys2Proof.Machine
end

