-- ==== Sys2Proof/Proofs/DecodeGroups.lean ====
section
/-! PROOF. A completed decode group: which outcome validation has (42_decoder.md R154 to R158), and the unused low bits
of its last real symbol (R171, R173, R174). -/

namespace Sys2Proof.Machine

section
variable {a : Asel} {s : DecodeGroup} {k : Nat}

/-! ### The slots that validation reads -/

/-- The GS slots of a group that its family uses (R28, R158). -/
def usedSlots (a : Asel) (s : DecodeGroup) : List Slot := s.toList.take (groupSymbols a)

@[simp] theorem usedSlots_length (a : Asel) (s : DecodeGroup) : (usedSlots a s).length = groupSymbols a := by
  simp [usedSlots, (groupSymbols_bounds a).2]

@[simp] theorem usedSlots_getElem {i : Nat} (h : i < (usedSlots a s).length) :
    (usedSlots a s)[i] = s[i]'(by rw [usedSlots_length] at h; have := (groupSymbols_bounds a).2; omega) := by
  simp [usedSlots]

theorem realCount_eq_findIdx (a : Asel) (s : DecodeGroup) :
    realCount a s = (usedSlots a s).findIdx (· == padSlot) := rfl

/-! ### The count of leading real symbols (R155) -/

theorem realCount_le (a : Asel) (s : DecodeGroup) : realCount a s ≤ groupSymbols a := by
  rw [realCount_eq_findIdx, ← usedSlots_length a s]
  exact List.findIdx_le_length

theorem slot_ne_pad_of_lt_realCount {i : Nat} (h : i < 8) (hi : i < realCount a s) : s[i] ≠ padSlot := by
  simpa using List.not_of_lt_findIdx (xs := usedSlots a s) hi

theorem slot_realCount_eq_pad (h : realCount a s < 8) (hlt : realCount a s < groupSymbols a) :
    s[realCount a s] = padSlot := by
  have hw : (usedSlots a s).findIdx (· == padSlot) < (usedSlots a s).length := by rwa [usedSlots_length]
  simpa [← realCount_eq_findIdx] using List.findIdx_getElem (w := hw)

/-- The count is the index of the first PAD among the GS slots, and GS where there is none. -/
theorem realCount_eq_iff : realCount a s = k ↔ k ≤ groupSymbols a ∧
    (∀ i, (h : i < 8) → i < k → s[i] ≠ padSlot) ∧ (∀ h : k < 8, k < groupSymbols a → s[k] = padSlot) := by
  have hgs := (groupSymbols_bounds a).2
  have hle := realCount_le a s
  constructor
  · rintro rfl
    exact ⟨hle, fun _ h => slot_ne_pad_of_lt_realCount h, slot_realCount_eq_pad⟩
  · rintro ⟨hk, hbefore, hat⟩
    obtain hlt | heq | hgt := Nat.lt_trichotomy (realCount a s) k
    · exact absurd (slot_realCount_eq_pad (by omega) (by omega)) (hbefore _ (by omega) hlt)
    · exact heq
    · exact absurd (hat (by omega) (by omega)) (slot_ne_pad_of_lt_realCount (by omega) hgt)

/-! ### A real symbol after a PAD (R154) -/

/-- Some slot after a PAD of the group holds a real symbol. -/
def SymbolAfterPad (a : Asel) (s : DecodeGroup) : Prop :=
  ∃ i j, ∃ (_ : i < j) (hj : j < 8), j < groupSymbols a ∧ s[i] = padSlot ∧ s[j] ≠ padSlot

/-- Validation looks after the first PAD only, which is enough: any other PAD stands after it. -/
theorem any_drop_realCount_iff :
    (((usedSlots a s).drop (realCount a s + 1)).any (· != padSlot)) = true ↔ SymbolAfterPad a s := by
  have hgs := (groupSymbols_bounds a).2
  simp only [List.any_eq_true, List.mem_drop_iff_getElem, bne_iff_ne, usedSlots_length, usedSlots_getElem]
  constructor
  · rintro ⟨_, ⟨j, hj, rfl⟩, hne⟩
    exact ⟨realCount a s, realCount a s + 1 + j, by omega, by omega, by omega,
      slot_realCount_eq_pad (by omega) (by omega), hne⟩
  · rintro ⟨i, j, hij, hj, hjgs, hpad, hne⟩
    have hi : realCount a s ≤ i := by
      by_contra hlt
      exact slot_ne_pad_of_lt_realCount (a := a) (by omega) (by omega) hpad
    refine ⟨s[j], ⟨j - (realCount a s + 1), by omega, ?_⟩, hne⟩
    congr 1
    omega

/-! ### The outcome of validation (R158) -/

/-- PAD stands in slot 0 or 1. -/
def EarlyPad (s : DecodeGroup) : Prop := s[0] = padSlot ∨ s[1] = padSlot

/-- The four outcomes of validation, each with the conditions that come before it denied. -/
theorem validate_cases (a : Asel) (s : DecodeGroup) :
    (EarlyPad s ∧ validate a s = .error .earlyPad) ∨
    (¬ EarlyPad s ∧ SymbolAfterPad a s ∧ validate a s = .error .padThenSymbol) ∨
    (¬ EarlyPad s ∧ ¬ SymbolAfterPad a s ∧ realCount a s ∉ validCounts a ∧ validate a s = .error .badCount) ∨
    (¬ EarlyPad s ∧ ¬ SymbolAfterPad a s ∧ realCount a s ∈ validCounts a ∧ validate a s = .ok (realCount a s)) := by
  generalize hv : validate a s = outcome
  simp only [validate] at hv
  split at hv
  case isTrue he => exact .inl ⟨he, hv.symm⟩
  case isFalse he =>
    split at hv
    case isTrue hs => exact .inr (.inl ⟨he, any_drop_realCount_iff.mp hs, hv.symm⟩)
    case isFalse hs =>
      have hs' := mt any_drop_realCount_iff.mpr hs
      split at hv
      case isTrue hk => exact .inr (.inr (.inr ⟨he, hs', hk, hv.symm⟩))
      case isFalse hk => exact .inr (.inr (.inl ⟨he, hs', hk, hv.symm⟩))

end

/-- Settles O40: the conditions of R158 are those of `validate_cases`, which are exclusive and leave out nothing, and
the first PAD is where `realCount_eq_iff` has it. -/
theorem validationCausesInOrder : Obligations.ValidationCausesInOrder := by
  unfold Obligations.ValidationCausesInOrder
  intro a s early symbolAfterPad firstPad allowed
  have hearly : early ↔ EarlyPad s := Iff.rfl
  have hafter : symbolAfterPad ↔ SymbolAfterPad a s := Iff.rfl
  have hcount : ∀ k, firstPad k ↔ realCount a s = k := fun _ => realCount_eq_iff.symm
  have hallowed : ∀ k, allowed k ↔ k ∈ validCounts a := fun _ => Iff.rfl
  simp only [hearly, hafter, hcount, hallowed]
  obtain ⟨he, hv⟩ | ⟨he, hs, hv⟩ | ⟨he, hs, hk, hv⟩ | ⟨he, hs, hk, hv⟩ := validate_cases a s
  · simp [hv, he]
  · simp [hv, he, hs]
  · simp [hv, he, hs, hk]
  · simp [hv, he, hs, hk]

/-! ### The bytes of a group as numbers -/

/-- A statement about the eight slot positions, position by position. -/
theorem forall_slots {P : ∀ i, i < 8 → Prop} : (∀ i h, P i h) ↔
    P 0 (by decide) ∧ P 1 (by decide) ∧ P 2 (by decide) ∧ P 3 (by decide) ∧
    P 4 (by decide) ∧ P 5 (by decide) ∧ P 6 (by decide) ∧ P 7 (by decide) := by
  refine ⟨fun h => ⟨h _ _, h _ _, h _ _, h _ _, h _ _, h _ _, h _ _, h _ _⟩, ?_⟩
  rintro ⟨h0, h1, h2, h3, h4, h5, h6, h7⟩ i hi
  interval_cases i <;> assumption

section
variable {a : Asel} {k : Nat}

theorem mem_validCounts_of_byte (h : family a = .byte) : k ∈ validCounts a ↔ k = 2 ∨ k = 3 ∨ k = 4 := by
  simp [validCounts, h]

theorem mem_validCounts_of_quintet (h : family a = .quintet) :
    k ∈ validCounts a ↔ k = 2 ∨ k = 4 ∨ k = 5 ∨ k = 7 ∨ k = 8 := by
  simp [validCounts, h]

/-- The bytes of a byte-family group as numbers (R170, R171). -/
theorem unpack_toNat_of_byte (h : family a = .byte) (s : DecodeGroup) (k : Nat) :
    (unpack a s k).map (·.toNat) = ([
      s[0].toNat % 64 * 4 + s[1].toNat % 64 / 16,
      s[1].toNat % 64 % 16 * 16 + s[2].toNat % 64 / 4,
      s[2].toNat % 64 % 4 * 64 + s[3].toNat % 64] : List Nat).take (numBytes a k) := by
  simp [unpack, h, List.map_take, unpackByte_toNat]

/-- The bytes of a quintet-family group as numbers (R172, R173). -/
theorem unpack_toNat_of_quintet (h : family a = .quintet) (s : DecodeGroup) (k : Nat) :
    (unpack a s k).map (·.toNat) = ([
      s[0].toNat % 32 * 8 + s[1].toNat % 32 / 4,
      (s[1].toNat % 32 % 4 * 32 + s[2].toNat % 32) * 2 + s[3].toNat % 32 / 16,
      s[3].toNat % 32 % 16 * 16 + s[4].toNat % 32 / 2,
      (s[4].toNat % 32 % 2 * 32 + s[5].toNat % 32) * 4 + s[6].toNat % 32 / 8,
      s[6].toNat % 32 % 8 * 32 + s[7].toNat % 32] : List Nat).take (numBytes a k) := by
  simp [unpack, h, List.map_take, unpackQuintet_toNat]

end

/-- Settles O44, by the numbers of the bytes: the first NBYTES(k) of them read the slots before the last real one whole,
and of the last one only the bits above its unused ones. -/
theorem unusedBitsAreIgnored : Obligations.UnusedBitsAreIgnored := by
  unfold Obligations.UnusedBitsAreIgnored
  intro a s s' k hk hbefore hlast
  have hwhole : ∀ i, (h : i < 8) → i + 1 < k → s[i].toNat = s'[i].toNat :=
    fun i h hi => congrArg BitVec.toNat (hbefore i h hi)
  simp only [forall_slots] at hwhole hlast
  apply bytes_eq_of_toNat
  cases hf : family a with
  | byte =>
    simp only [unpack_toNat_of_byte hf]
    rcases (mem_validCounts_of_byte hf).mp hk with rfl | rfl | rfl <;>
      simp [numBytes, bitsPerSymbol, hf] at hwhole hlast ⊢ <;> omega
  | quintet =>
    simp only [unpack_toNat_of_quintet hf]
    rcases (mem_validCounts_of_quintet hf).mp hk with rfl | rfl | rfl | rfl | rfl <;>
      simp [numBytes, bitsPerSymbol, hf] at hwhole hlast ⊢ <;> omega

end Sys2Proof.Machine
end

