-- ==== Sys2Proof/Proofs/DecoderCommands.lean ====
section
/-! PROOF. The decoder's commands and its fill step (42_decoder.md R151, R160 to R165, and R206 for a decoder that is not
READY): what each answers, one lemma per branch. -/

namespace Sys2Proof.Machine

section
variable {s : State}

/-! ### DEC_INIT -/

theorem exec_decInit (a : Asel) (s : State) : exec (.decInit a) s = .next ({ s with
    dec := { s.dec with asel := a, scnt := 0, olen := 0, opos := 0, eof := false, mode := .ready } }.respond .ok) :=
  execDecInit_eq a s

/-! ### DEC_NEXT, by the mode, the buffer and DEC_EOF -/

theorem exec_decNext_of_not_ready (h : s.dec.mode ≠ .ready) :
    exec .decNext s = .next (s.refuseUnusable .decoder) := if_pos h

theorem exec_decNext_of_buffered {b : Byte} (hm : s.dec.mode = .ready) (hlt : s.dec.opos.toNat < s.dec.olen.toNat)
    (hb : s.dec.obuf[s.dec.opos.toNat]? = some b) :
    exec .decNext s = .next ({ s with dec := { s.dec with opos := s.dec.opos + 1 } }.respond (.data b)) := by
  simp [exec, execDecNext, hm, hlt, hb]

theorem exec_decNext_of_eof (hm : s.dec.mode = .ready) (hle : s.dec.olen.toNat ≤ s.dec.opos.toNat)
    (he : s.dec.eof = true) : exec .decNext s = .next (s.respond .eod) := by
  simp [exec, execDecNext, hm, Nat.not_lt.mpr hle, he]

theorem exec_decNext_of_empty (hm : s.dec.mode = .ready) (hle : s.dec.olen.toNat ≤ s.dec.opos.toNat)
    (he : s.dec.eof = false) :
    exec .decNext s = .next ({ s with dec := { s.dec with scnt := 0 } }.setPhase .decFill) := by
  simp [exec, execDecNext, hm, Nat.not_lt.mpr hle, he]

end

/-! ### The state once the source's item is taken -/

section
variable (s : State) (a : SourceAnswer) (rest : List SourceAnswer)

@[simp] theorem State.sourceAnswered_enc : (s.sourceAnswered a rest).enc = s.enc := rfl
@[simp] theorem State.sourceAnswered_dec : (s.sourceAnswered a rest).dec = s.dec := rfl
@[simp] theorem State.sourceAnswered_seq : (s.sourceAnswered a rest).seq = s.seq := rfl

end

/-! ### The fill step, by the source's item -/

section
variable {s : State} {c : Byte} {x : Slot} {rest : List SourceAnswer}

/-- The request that stands in DEC_FILL (R161). -/
theorem State.request_of_decFill (hp : s.seq.phase = .decFill) : s.request = some .sourceRead := by
  simp [State.request, hp]

theorem step_fill_foreign (hp : s.seq.phase = .decFill) (hm : s.move = .serve)
    (hn : s.nextSource = some (.chr c, rest)) (hc : (classify s.dec.asel c).slot? = none) :
    step s = .next (s.sourceAnswered (.chr c) rest) := by
  rw [step_serve_fill hp hm hn]
  simp [fillAnswered, hc, State.observe, State.sourceAnswered]

theorem step_fill_slot (hp : s.seq.phase = .decFill) (hm : s.move = .serve)
    (hn : s.nextSource = some (.chr c, rest)) (hc : (classify s.dec.asel c).slot? = some x) :
    step s = fillSlot x (s.sourceAnswered (.chr c) rest) := by
  rw [step_serve_fill hp hm hn]
  simp [fillAnswered, hc, State.observe, State.sourceAnswered]

theorem step_fill_endOfInput (hp : s.seq.phase = .decFill) (hm : s.move = .serve)
    (hn : s.nextSource = some (.endOfInput, rest)) : step s = fillEnd (s.sourceAnswered .endOfInput rest) :=
  step_serve_fill hp hm hn

theorem step_fill_err (hp : s.seq.phase = .decFill) (hm : s.move = .serve) (hn : s.nextSource = some (.err, rest)) :
    step s = .next ((s.sourceAnswered .err rest).fail .decoder (.ioerr .source)) :=
  step_serve_fill hp hm hn

/-! ### A slot-filling character, by the room left in the group (R161) -/

theorem fillSlot_of_room (h : s.dec.scnt.toNat + 1 < groupSymbols s.dec.asel) : fillSlot x s = .next { s with
    dec := { s.dec with slot := s.dec.slot.setIfInBounds s.dec.scnt.toNat x, scnt := s.dec.scnt + 1 } } := by
  obtain ⟨-, hgs⟩ := groupSymbols_bounds s.dec.asel
  have hcnt : BitVec.ofNat 4 (s.dec.scnt.toNat + 1) = s.dec.scnt + 1 := by simp [BitVec.ofNat_add]
  have hlt : ¬ 8 ≤ s.dec.scnt.toNat := by omega
  simp [fillSlot, hlt, h, hcnt]

theorem fillSlot_of_last (h : s.dec.scnt.toNat + 1 = groupSymbols s.dec.asel) : fillSlot x s =
    completeGroup (s.dec.slot.setIfInBounds s.dec.scnt.toNat x)
      { s with dec := { s.dec with slot := s.dec.slot.setIfInBounds s.dec.scnt.toNat x } } := by
  obtain ⟨-, hgs⟩ := groupSymbols_bounds s.dec.asel
  have hlt : ¬ 8 ≤ s.dec.scnt.toNat := by omega
  simp [fillSlot, hlt, ← h]

/-- The character that fills the last slot completes the group in its own step. -/
theorem step_fill_last (hp : s.seq.phase = .decFill) (hm : s.move = .serve)
    (hn : s.nextSource = some (.chr c, rest)) (hc : (classify s.dec.asel c).slot? = some x)
    (hlast : s.dec.scnt.toNat + 1 = groupSymbols s.dec.asel) :
    step s = completeGroup (s.dec.slot.setIfInBounds s.dec.scnt.toNat x)
      { s.sourceAnswered (.chr c) rest with
        dec := { s.dec with slot := s.dec.slot.setIfInBounds s.dec.scnt.toNat x } } :=
  (step_fill_slot hp hm hn hc).trans (fillSlot_of_last (s := s.sourceAnswered (.chr c) rest) hlast)

/-! ### A completed group, by the outcome of validation -/

/-- A group that validates gives a first byte (R157). -/
theorem unpack_of_validate_ok {a : Asel} {g : DecodeGroup} {k : Nat} (h : validate a g = .ok k) :
    ∃ b bs, unpack a g k = b :: bs ∧ (b :: bs).length = numBytes a k := by
  obtain ⟨hlen, hpos, -⟩ := unpack_length (s := g) (validate_ok h).2
  obtain ⟨b, bs, hb⟩ := List.exists_cons_of_length_pos (hlen ▸ hpos : 0 < (unpack a g k).length)
  exact ⟨b, bs, hb, hb ▸ hlen⟩

theorem completeGroup_of_error {g : DecodeGroup} {cause : Cause} (h : validate s.dec.asel g = .error cause) :
    completeGroup g s = .next (s.fail .decoder (.malformed cause)) := by
  simp [completeGroup, h]

theorem completeGroup_of_ok {g : DecodeGroup} {k : Nat} {b : Byte} {bs : List Byte}
    (h : validate s.dec.asel g = .ok k) (hb : unpack s.dec.asel g k = b :: bs) :
    completeGroup g s = .next ({ s with
      dec := { s.dec with obuf := storeBytes (b :: bs) s.dec.obuf, olen := BitVec.ofNat 3 (bs.length + 1),
                          opos := 1, scnt := 0 } }.finish (.data b)) := by
  simp [completeGroup, h, hb]

/-- Either way the command ends, and the slots stay as they were filled (R162, R166). -/
theorem completeGroup_ends (g : DecodeGroup) (s : State) :
    ∃ t, completeGroup g s = .next t ∧ t.seq.phase = .idle ∧ t.dec.slot = s.dec.slot := by
  cases h : validate s.dec.asel g with
  | error cause => exact ⟨_, completeGroup_of_error h, by simp, by simp⟩
  | ok k =>
    obtain ⟨b, bs, hb, -⟩ := unpack_of_validate_ok h
    exact ⟨_, completeGroup_of_ok h hb, by simp, by simp⟩

/-- The first entries of the buffer are the bytes stored, the others stay (R162). -/
theorem storeBytes_getElem? (bs : List Byte) (o : Vector Byte 5) {j : Nat} (hj : j < 5) :
    (storeBytes bs o)[j]? = if j < bs.length then bs[j]? else o[j]? := by
  have hget : (storeBytes bs o)[j] = bs.getD j o[j] := by
    interval_cases j <;> rfl
  rw [Vector.getElem?_eq_getElem hj, hget, List.getD_eq_getElem?_getD]
  split
  case isTrue h => simp [h]
  case isFalse h => simp [Nat.not_lt.mp h, hj]

/-! ### The end of the source (R163, R164) -/

theorem fillEnd_of_no_slot (h : s.dec.scnt = 0) :
    fillEnd s = .next ({ s with dec := { s.dec with eof := true } }.finish .eod) := if_pos h

theorem fillEnd_of_partial (h : s.dec.scnt ≠ 0) (hlt : s.dec.scnt.toNat < groupSymbols s.dec.asel) :
    fillEnd s = .next (s.fail .decoder (.malformed .truncated)) := by
  rw [fillEnd, if_neg h, if_pos hlt]

end

/-- Settles O34, by the one outcome of DEC_INIT (`exec_decInit`) and the word of OK. -/
theorem decInitStartsSession : Obligations.DecInitStartsSession := by
  unfold Obligations.DecInitStartsSession
  intro a s
  rw [exec_decInit, State.respond, Response.word_ok]
  rfl

/-- Settles O35: not READY (R206), a byte left in the buffer, the end seen, and the start of a fill (R160). -/
theorem decNextServesEndsOrFills : Obligations.DecNextServesEndsOrFills := by
  unfold Obligations.DecNextServesEndsOrFills
  refine fun s => ⟨fun hm => ?_, fun hm hlen hlt => ?_, exec_decNext_of_eof, exec_decNext_of_empty⟩
  · rw [exec_decNext_of_not_ready hm, State.refuseUnusable_eq, State.mode_decoder]
  · have hb : s.dec.obuf[s.dec.opos.toNat]? = some s.dec.obuf[s.dec.opos.toNat] :=
      Vector.getElem?_eq_getElem (by omega)
    refine ⟨_, hb, ?_⟩
    rw [exec_decNext_of_buffered hm hlt hb, State.respond, Response.word_data]
    rfl

/-- Settles O36: what the character is to the decoder (R106) says whether it fills a slot, and the room left in the
group whether the fill goes on (`fillSlot_of_room`) or ends (`completeGroup_ends`). -/
theorem fillStepOnACharacter : Obligations.FillStepOnACharacter := by
  unfold Obligations.FillStepOnACharacter
  refine fun s c rest hp hm hn => ⟨State.request_of_decFill hp, fun hc => ?_, fun x hx => ?_⟩
  · exact step_fill_foreign hp hm hn (by simp [hc, CharClass.slot?])
  · have hslot : (classify s.dec.asel c).slot? = some x := by
      obtain ⟨hc, rfl⟩ | ⟨i, hc, rfl⟩ := hx
      · simp [hc, CharClass.slot?, padSlot]
      · simp [hc, CharClass.slot?]
    refine ⟨fun hroom => ?_, fun hlast => ?_⟩
    · rw [step_fill_slot hp hm hn hslot]
      exact fillSlot_of_room (s := s.sourceAnswered (.chr c) rest) hroom
    · rw [step_fill_last hp hm hn hslot hlast]
      exact completeGroup_ends _ _

/-- Settles O37: the step completes the group (`step_fill_last`), which unpacks to NBYTES(k) bytes, the first of them
answered and all of them in the buffer (`storeBytes_getElem?`). -/
theorem validGroupServesItsFirstByte : Obligations.ValidGroupServesItsFirstByte := by
  unfold Obligations.ValidGroupServesItsFirstByte
  intro s c rest x k hp hm hn hc hlast hv
  obtain ⟨b, bs, hb, hlen⟩ := unpack_of_validate_ok hv
  have hle : numBytes s.dec.asel k ≤ 5 :=
    (unpack_length (s := s.dec.slot) (validate_ok hv).2).2.2.trans (groupBytes_bounds _).2
  have hstep := (step_fill_last hp hm hn hc hlast).trans (completeGroup_of_ok hv hb)
  refine ⟨_, b, bs, hstep, hb, hlen, fun j hj => ?_, ?_, rfl, rfl, rfl, rfl, rfl, rfl, rfl, rfl, ?_⟩
  · rw [← hlen]
    exact storeBytes_getElem? _ _ hj
  · simp only [State.finish_dec, BitVec.toNat_ofNat]
    simp only [List.length_cons] at hlen
    omega
  · simp

/-- Settles O39, by the lemmas for `End` with no slot filled, `End` with a partial group, and `Err`. -/
theorem fillStepOnEndOrError : Obligations.FillStepOnEndOrError := by
  unfold Obligations.FillStepOnEndOrError
  refine fun s rest hp hm => ⟨fun hn h0 => ?_, fun hn hpos hlt => ?_, step_fill_err hp hm⟩
  · rw [step_fill_endOfInput hp hm hn]
    exact fillEnd_of_no_slot h0
  · have h0 : s.dec.scnt ≠ 0 := fun h => by simp [h] at hpos
    have hgs := (groupSymbols_bounds s.dec.asel).1
    rw [step_fill_endOfInput hp hm hn]
    exact fillEnd_of_partial h0 (by simp only [State.sourceAnswered_dec]; omega)

end Sys2Proof.Machine
end

