-- ==== Sys2Proof/Proofs/UnusableEngines.lean ====
section
/-! PROOF. An engine that is not READY (60_exceptions.md R206, R207): what it answers to a command, and how it leaves
FAILED. -/

namespace Sys2Proof.Machine

section
variable {s t : State} {g : Engine}

/-! ### The answer of an engine that is OFF or FAILED (R206) -/

theorem State.refuseUnusable_of_off (h : s.mode g = .off) : s.refuseUnusable g = s.observe (.response 0x8000) := by
  rw [State.refuseUnusable, h, State.respond, Response.word_unusable_off]

theorem State.refuseUnusable_of_failed (h : s.mode g = .failed) :
    s.refuseUnusable g = s.observe (.response 0x8200) := by
  rw [State.refuseUnusable, h, State.respond, Response.word_unusable_failed]

/-! ### Commands that leave both modes as they are -/

theorem execEncPut_mode {b : Byte} (h : execEncPut b s = .next t) : t.mode g = s.mode g := by
  obtain ⟨-, rfl⟩ | ⟨-, -, -, rfl⟩ | ⟨-, -, -, rfl⟩ := execEncPut_next h
  · rfl
  · rfl
  · rfl

theorem execEncFinal_mode (h : execEncFinal s = .next t) : t.mode g = s.mode g := by
  obtain ⟨-, rfl⟩ | ⟨-, -, rfl⟩ | ⟨-, -, -, rfl⟩ := execEncFinal_next h
  · rfl
  · rfl
  · rfl

theorem execDecNext_mode (h : execDecNext s = .next t) : t.mode g = s.mode g := by
  obtain ⟨-, rfl⟩ | ⟨-, -, b, -, rfl⟩ | ⟨-, -, -, rfl⟩ | ⟨-, -, -, rfl⟩ := execDecNext_next h
  · rfl
  · rfl
  · rfl
  · rfl

/-! ### The INIT of an engine -/

/-- The one command that starts a session of the engine (R121, R151). -/
def Engine.init : Engine → Asel → Instr
  | .encoder => .encInit
  | .decoder => .decInit

/-- A command is the engine's INIT or leaves the engine's mode as it is. -/
theorem exec_mode {i : Instr} (h : exec i s = .next t) : (∃ a, i = g.init a) ∨ t.mode g = s.mode g := by
  obtain ⟨a, rfl, rfl⟩ | ⟨b, -, h⟩ | ⟨-, h⟩ | ⟨a, rfl, rfl⟩ | ⟨-, h⟩ | ⟨-, r, rfl, -⟩ := exec_next h
  · cases g with
    | encoder => exact .inl ⟨a, rfl⟩
    | decoder => exact .inr rfl
  · exact .inr (execEncPut_mode h)
  · exact .inr (execEncFinal_mode h)
  · cases g with
    | encoder => exact .inr rfl
    | decoder => exact .inl ⟨a, rfl⟩
  · exact .inr (execDecNext_mode h)
  · exact .inr rfl

/-! ### Port steps keep an engine FAILED: their only write to a mode is the error entry (R205) -/

theorem State.fail_keeps_failed (e : Engine) (r : Response) (hf : s.mode g = .failed) :
    (s.fail e r).mode g = .failed := by
  cases e <;> cases g
  · rfl
  · exact hf
  · exact hf
  · rfl

theorem emitAnswered_keeps_failed {a : SinkAnswer} (h : emitAnswered a s = .next t) (hf : s.mode g = .failed) :
    t.mode g = .failed := by
  obtain ⟨c, q, -, ⟨-, -, rfl⟩ | ⟨-, -, -, rfl⟩ | ⟨-, -, -, rfl⟩ | ⟨-, rfl⟩⟩ := emitAnswered_next h
  · exact hf
  · exact hf
  · exact hf
  · exact State.fail_keeps_failed _ _ hf

theorem flushAnswered_keeps_failed {a : SinkAnswer} (h : flushAnswered a s = .next t) (hf : s.mode g = .failed) :
    t.mode g = .failed := by
  obtain ⟨-, rfl⟩ | ⟨-, rfl⟩ := flushAnswered_next h
  · exact hf
  · exact State.fail_keeps_failed _ _ hf

theorem completeGroup_keeps_failed {x : DecodeGroup} (h : completeGroup x s = .next t) (hf : s.mode g = .failed) :
    t.mode g = .failed := by
  obtain ⟨cause, -, rfl⟩ | ⟨k, b, bs, -, -, rfl⟩ := completeGroup_next h
  · exact State.fail_keeps_failed _ _ hf
  · exact hf

theorem fillSlot_keeps_failed {x : Slot} (h : fillSlot x s = .next t) (hf : s.mode g = .failed) :
    t.mode g = .failed := by
  obtain ⟨-, ⟨-, rfl⟩ | ⟨-, h⟩⟩ := fillSlot_next h
  · exact hf
  · exact completeGroup_keeps_failed h hf

theorem fillEnd_keeps_failed (h : fillEnd s = .next t) (hf : s.mode g = .failed) : t.mode g = .failed := by
  obtain ⟨-, rfl⟩ | ⟨-, rfl⟩ := fillEnd_next h
  · exact hf
  · exact State.fail_keeps_failed _ _ hf

theorem fillAnswered_keeps_failed {a : SourceAnswer} (h : fillAnswered a s = .next t) (hf : s.mode g = .failed) :
    t.mode g = .failed := by
  obtain ⟨c, -, -, rfl⟩ | ⟨c, x, -, -, h⟩ | ⟨-, h⟩ | ⟨-, rfl⟩ := fillAnswered_next h
  · exact hf
  · exact fillSlot_keeps_failed h hf
  · exact fillEnd_keeps_failed h hf
  · exact State.fail_keeps_failed _ _ hf

/-! ### The ways out of FAILED (R207) -/

/-- A step out of FAILED is a reset, or it runs the engine's INIT, decoded from the word it issues. -/
theorem step_leaves_failed (h : step s = .next t) (hf : s.mode g = .failed) (ht : t.mode g ≠ .failed) :
    s.move = .reset ∧ t = hardReset s.afterMove ∨
    ∃ w a s', s.issued = some w ∧ decode w = .ok (g.init a) ∧ exec (g.init a) s' = .next t := by
  obtain hreset | ⟨-, -, rfl⟩ | ⟨hp, w, cs, hw, h⟩ | ⟨-, -, a, rest, -, h⟩ | ⟨-, -, a, rest, -, h⟩ |
    ⟨-, -, a, rest, -, h⟩ := step_cases h
  · exact .inl hreset
  · exact absurd hf ht
  · obtain ⟨i, hd, h⟩ | ⟨e, -, rfl⟩ := issue_cases h
    · obtain ⟨a, rfl⟩ | hmode := exec_mode (g := g) h
      · exact .inr ⟨w, a, _, State.issued_of_idle hp hw, hd, h⟩
      · exact absurd (hmode.trans hf) ht
    · exact absurd hf ht
  · exact absurd (emitAnswered_keeps_failed h hf) ht
  · exact absurd (flushAnswered_keeps_failed h hf) ht
  · exact absurd (fillAnswered_keeps_failed h hf) ht

end

/-- Settles O54: the ways out are those of `step_leaves_failed`, and what each leaves is `hardReset` or the one outcome of
the engine's INIT. -/
theorem onlyInitOrResetLeavesFailed : Obligations.OnlyInitOrResetLeavesFailed := by
  unfold Obligations.OnlyInitOrResetLeavesFailed
  refine fun s t h => ⟨fun hf ht => ?_, fun hf ht => ?_⟩
  · obtain ⟨hm, rfl⟩ | ⟨w, a, s', hw, hd, hexec⟩ := step_leaves_failed (g := .encoder) h hf ht
    · exact .inl ⟨hm, rfl⟩
    · obtain rfl := Host.Outcome.next.inj ((exec_encInit a s').symm.trans hexec)
      exact .inr ⟨⟨w, a, hw, hd⟩, rfl, rfl⟩
  · obtain ⟨hm, rfl⟩ | ⟨w, a, s', hw, hd, hexec⟩ := step_leaves_failed (g := .decoder) h hf ht
    · exact .inl ⟨hm, rfl⟩
    · obtain rfl := Host.Outcome.next.inj ((exec_decInit a s').symm.trans hexec)
      exact .inr ⟨⟨w, a, hw, hd⟩, rfl, rfl, rfl, rfl, rfl⟩

/-- Settles O18: each of the three commands refuses unless its engine is READY, and the refusal names the mode. -/
theorem unusableEngineRefuses : Obligations.UnusableEngineRefuses := by
  unfold Obligations.UnusableEngineRefuses
  refine fun s => ⟨fun i hi => ?_, fun hm => ?_, fun hm => ?_⟩
  · have hrefuse : s.enc.mode ≠ .ready → exec i s = .next (s.refuseUnusable .encoder) := by
      obtain ⟨b, rfl⟩ | rfl := hi
      · exact exec_encPut_of_not_ready
      · exact exec_encFinal_of_not_ready
    refine ⟨fun hm => ?_, fun hm => ?_⟩
    · rw [hrefuse (by simp [hm]), State.refuseUnusable_of_off (g := .encoder) hm]
    · rw [hrefuse (by simp [hm]), State.refuseUnusable_of_failed (g := .encoder) hm]
  · rw [exec_decNext_of_not_ready (by simp [hm]), State.refuseUnusable_of_off (g := .decoder) hm]
  · rw [exec_decNext_of_not_ready (by simp [hm]), State.refuseUnusable_of_failed (g := .decoder) hm]

end Sys2Proof.Machine
end

