-- ==== Sys2Proof/Proofs/Reset.lean ====
section
/-! PROOF. Hardware reset (70_reset_and_hazards.md R230): the step in which the host asserts it, and what it leaves in the
registers. -/

namespace Sys2Proof.Machine

/-- A step in which the host asserts reset is the reset, whatever the block is doing (R230). -/
theorem step_of_reset {s : State} (hm : s.move = .reset) : step s = .next (hardReset s.afterMove) := by
  simp only [step, hm]

/-- Settles O1: the step is the hardware reset, whose three register files are those of `State.reset`. -/
theorem resetSetsEveryRegister : Obligations.ResetSetsEveryRegister := by
  unfold Obligations.ResetSetsEveryRegister
  exact fun s hm => ⟨hardReset s.afterMove, step_of_reset hm, hardReset_enc _, hardReset_dec _, hardReset_seq _⟩

end Sys2Proof.Machine
end

