-- ==== Sys2Proof/Proofs/Words.lean ====
section
/-! PROOF. Command words (30_encoding.md R70 to R86): a word and its four fields, decoding against encoding and against the
opcode map, how many words are commands, and lines of assembler text. -/

namespace Sys2Proof

/-! ### A word and its fields (R70 to R75) -/

section
variable (op : BitVec 4) (asel : BitVec 2) (data : Byte) (w m : Word)

/-- A command word as a number: OP, ASEL, RSV (zero) and DATA, most significant first (R70). -/
theorem commandWord_toNat : (commandWord op asel data).toNat = op.toNat * 4096 + asel.toNat * 1024 + data.toNat := by
  refine (Machine.toNat_join (op ++ asel ++ 0#2) data).trans ?_
  rw [Machine.toNat_join (op ++ asel) 0#2, Machine.toNat_join op asel]
  simp only [BitVec.toNat_zero]
  ring

@[simp] theorem opField_commandWord : opField (commandWord op asel data) = op := by
  have := op.isLt; have := asel.isLt; have := data.isLt
  apply BitVec.eq_of_toNat_eq
  rw [opField, Machine.toNat_slice, commandWord_toNat]
  omega

@[simp] theorem aselField_commandWord : aselField (commandWord op asel data) = asel := by
  have := op.isLt; have := asel.isLt; have := data.isLt
  apply BitVec.eq_of_toNat_eq
  rw [aselField, Machine.toNat_slice, commandWord_toNat]
  omega

@[simp] theorem rsvField_commandWord : rsvField (commandWord op asel data) = 0 := by
  have := op.isLt; have := asel.isLt; have := data.isLt
  apply BitVec.eq_of_toNat_eq
  rw [rsvField, Machine.toNat_slice, commandWord_toNat]
  change _ = 0
  omega

@[simp] theorem dataField_commandWord : dataField (commandWord op asel data) = data := by
  have := op.isLt; have := asel.isLt; have := data.isLt
  apply BitVec.eq_of_toNat_eq
  rw [dataField, Machine.toNat_slice, commandWord_toNat]
  omega

variable {w}

/-- A word with RSV zero is the command word of its other fields. -/
theorem commandWord_fields (h : rsvField w = 0) : commandWord (opField w) (aselField w) (dataField w) = w := by
  have hw := w.isLt
  have hr : w.toNat / 2 ^ 8 % 2 ^ 2 = 0 := by rw [← Machine.toNat_slice]; exact congrArg BitVec.toNat h
  apply BitVec.eq_of_toNat_eq
  rw [commandWord_toNat, opField, aselField, dataField, Machine.toNat_slice, Machine.toNat_slice, Machine.toNat_slice]
  omega

end

@[simp] theorem Asel.ofCode_code (a : Asel) : Asel.ofCode a.code = a := by cases a <;> rfl

@[simp] theorem Asel.code_ofCode (c : BitVec 2) : (Asel.ofCode c).code = c := by
  revert c
  decide

/-! ### Decoding is the inverse of encoding (R80, R84) -/

theorem decode_encode (i : Instr) : decode (encode i) = .ok i := by
  cases i <;> simp [decode, encode, requireZero]

theorem requireZero_eq_ok {zero : Bool} {i j : Instr} : requireZero zero i = .ok j ↔ zero = true ∧ i = j := by
  cases zero <;> simp [requireZero]

/-- A word that decodes is the word of the command it decodes to. -/
theorem encode_of_decode {w : Word} {i : Instr} (h : decode w = .ok i) : encode i = w := by
  by_cases hr : rsvField w = 0
  case neg => rw [Machine.decode_of_rsv_ne_zero hr] at h; cases h
  have hop {n : Nat} (hn : (opField w).toNat = n) : opField w = BitVec.ofNat 4 n := by
    rw [← hn, BitVec.ofNat_toNat, BitVec.setWidth_eq]
  rw [← commandWord_fields hr]
  simp only [decode, hr, bne_self_eq_false, Bool.false_eq_true, if_false] at h
  split at h
  case h_8 => cases h
  all_goals
    rename_i hn
    simp only [requireZero_eq_ok, Bool.and_eq_true, beq_iff_eq, Except.ok.injEq] at h
    simp only [hop hn, encode]
  case h_1 | h_4 => obtain ⟨hd, rfl⟩ := h; simp [hd]
  case h_2 => obtain ⟨ha, rfl⟩ := h; simp [ha]
  case h_3 | h_5 => obtain ⟨⟨ha, hd⟩, rfl⟩ := h; simp [ha, hd]
  case h_6 | h_7 => subst h; simp

/-- Settles O7, by the two inverse laws. -/
theorem decodeAndEncodeAgree : Obligations.DecodeAndEncodeAgree := by
  unfold Obligations.DecodeAndEncodeAgree
  exact fun w i => ⟨encode_of_decode, fun h => h ▸ decode_encode i⟩

/-! ### The opcode map (R80) -/

/-- What R82 denies, row by row: the bits a row fixes are those of its pattern, field by field. -/
theorem OpcodeRow.fields_of_selects {r : OpcodeRow} {w : Word} (h : r.selects w = true) :
    opField w &&& opField r.mask = opField r.pattern ∧ aselField w &&& aselField r.mask = aselField r.pattern ∧
    rsvField w &&& rsvField r.mask = rsvField r.pattern ∧ dataField w &&& dataField r.mask = dataField r.pattern := by
  have hp : w &&& r.mask = r.pattern := by simpa [OpcodeRow.selects] using h
  simp [← hp, opField, aselField, rsvField, dataField, BitVec.extractLsb'_and]

/-- Every row fixes OP and RSV whole, its RSV is zero, and its OP is its own. -/
theorem OpcodeRow.fixes_op_and_rsv : ∀ r ∈ opcodeRows, opField r.mask = .allOnes 4 ∧ rsvField r.mask = .allOnes 2 ∧
    rsvField r.pattern = 0 ∧ ∀ r' ∈ opcodeRows, opField r.pattern = opField r'.pattern → r = r' := by
  decide

/-- A field that a row fixes whole is that of its pattern. -/
theorem eq_of_and_eq {n : Nat} {x m p : BitVec n} (hm : m = .allOnes n) (h : x &&& m = p) : x = p := by
  rw [← h, hm, BitVec.and_allOnes]

theorem OpcodeRow.opField_of_selects {r : OpcodeRow} {w : Word} (hr : r ∈ opcodeRows) (h : r.selects w = true) :
    opField w = opField r.pattern :=
  eq_of_and_eq (fixes_op_and_rsv r hr).1 (fields_of_selects h).1

theorem OpcodeRow.rsvField_of_selects {r : OpcodeRow} {w : Word} (hr : r ∈ opcodeRows) (h : r.selects w = true) :
    rsvField w = 0 := by
  obtain ⟨-, hm, hp, -⟩ := fixes_op_and_rsv r hr
  obtain ⟨-, -, hrsv, -⟩ := fields_of_selects h
  exact eq_of_and_eq hm (hrsv.trans hp)

/-- A word selects one row only. -/
theorem OpcodeRow.eq_of_selects {r r' : OpcodeRow} {w : Word} (hr : r ∈ opcodeRows) (hr' : r' ∈ opcodeRows)
    (h : r.selects w = true) (h' : r'.selects w = true) : r = r' := by
  obtain ⟨-, -, -, hown⟩ := fixes_op_and_rsv r hr
  exact hown r' hr' ((opField_of_selects hr h).symm.trans (opField_of_selects hr' h'))

/-- The word of each command selects the command's own row. -/
theorem row_selects_encode (i : Instr) :
    wellFormedWord (encode i) = true ∧ i.row.selects (encode i) = true ∧ i.row ∈ opcodeRows := by
  cases i with
  | encInit a => exact Laws.RowMatch.encInit a
  | encPut b => exact Laws.RowMatch.encPut b
  | encFinal => exact Laws.RowMatch.encFinal
  | decInit a => exact Laws.RowMatch.decInit a
  | decNext => exact Laws.RowMatch.decNext
  | lutSym a v => exact Laws.RowMatch.lutSym a v
  | lutVal a c => exact Laws.RowMatch.lutVal a c

/-- A word that selects a row is the word of a command of that row. -/
theorem exists_encode_of_wellFormed {w : Word} (h : wellFormedWord w = true) : ∃ i, encode i = w := by
  obtain ⟨r, hr, hw⟩ : ∃ r ∈ opcodeRows, r.selects w = true := by simpa only [wellFormedWord, List.any_eq_true] using h
  have hop := OpcodeRow.opField_of_selects hr hw
  obtain ⟨-, hasel, -, hdata⟩ := OpcodeRow.fields_of_selects hw
  rw [← commandWord_fields (OpcodeRow.rsvField_of_selects hr hw), hop]
  simp only [opcodeRows, List.mem_cons, List.not_mem_nil, or_false] at hr
  obtain rfl | rfl | rfl | rfl | rfl | rfl | rfl := hr
  · exact ⟨.encInit (.ofCode (aselField w)), by rw [encode, Asel.code_ofCode, eq_of_and_eq rfl hdata]; rfl⟩
  · exact ⟨.encPut (dataField w), by rw [encode, eq_of_and_eq rfl hasel]; rfl⟩
  · exact ⟨.encFinal, by rw [encode, eq_of_and_eq rfl hasel, eq_of_and_eq rfl hdata]; rfl⟩
  · exact ⟨.decInit (.ofCode (aselField w)), by rw [encode, Asel.code_ofCode, eq_of_and_eq rfl hdata]; rfl⟩
  · exact ⟨.decNext, by rw [encode, eq_of_and_eq rfl hasel, eq_of_and_eq rfl hdata]; rfl⟩
  · exact ⟨.lutSym (.ofCode (aselField w)) (dataField w), by rw [encode, Asel.code_ofCode]; rfl⟩
  · exact ⟨.lutVal (.ofCode (aselField w)) (dataField w), by rw [encode, Asel.code_ofCode]; rfl⟩

/-- Settles O8: both sides say that the word is that of a command (`encode_of_decode`, `exists_encode_of_wellFormed`),
and its row is the only one it selects (`OpcodeRow.eq_of_selects`). -/
theorem decodeFollowsTheOpcodeMap : Obligations.DecodeFollowsTheOpcodeMap := by
  unfold Obligations.DecodeFollowsTheOpcodeMap
  refine ⟨fun w => ⟨?_, fun h => ?_⟩, fun w i h => ?_⟩
  · rintro ⟨i, h⟩
    exact encode_of_decode h ▸ (row_selects_encode i).1
  · obtain ⟨i, rfl⟩ := exists_encode_of_wellFormed h
    exact ⟨i, decode_encode i⟩
  · obtain ⟨-, hsel, hmem⟩ := row_selects_encode i
    rw [encode_of_decode h] at hsel
    exact ⟨hmem, fun r hr => ⟨fun hrw => OpcodeRow.eq_of_selects hr hmem hrw hsel, fun hri => hri ▸ hsel⟩⟩

/-! ### How many words are commands -/

def everyAsel : List Asel := [.base64, .base64url, .base32, .base32hex]
def everyByte : List Byte := (List.range 256).map (BitVec.ofNat 8)

/-- Every command once. -/
def everyInstr : List Instr :=
  everyAsel.map .encInit ++ everyByte.map .encPut ++ [.encFinal] ++ everyAsel.map .decInit ++ [.decNext] ++
    everyAsel.flatMap (fun a => everyByte.map (.lutSym a)) ++ everyAsel.flatMap (fun a => everyByte.map (.lutVal a))

theorem mem_everyAsel (a : Asel) : a ∈ everyAsel := by cases a <;> decide
theorem mem_everyByte (b : Byte) : b ∈ everyByte :=
  List.mem_map.mpr ⟨b.toNat, List.mem_range.mpr b.isLt, BitVec.ofNat_toNat .. |>.trans (BitVec.setWidth_eq b)⟩

theorem mem_everyInstr (i : Instr) : i ∈ everyInstr := by
  cases i <;> simp [everyInstr, mem_everyAsel, mem_everyByte]

theorem everyByte_nodup : everyByte.Nodup := by
  refine List.Nodup.map_on (fun m hm n hn h => ?_) List.nodup_range
  rw [List.mem_range] at hm hn
  have := congrArg BitVec.toNat h
  simp only [BitVec.toNat_ofNat] at this
  omega

theorem everyInstr_nodup : everyInstr.Nodup := by
  have ha : everyAsel.Nodup := by decide
  have hb := everyByte_nodup
  have hlut (f : Asel → Byte → Instr) (hf : ∀ a b a' b', f a b = f a' b' → a = a' ∧ b = b') :
      (everyAsel.flatMap fun a => everyByte.map (f a)).Nodup := by
    refine List.nodup_flatMap.mpr ⟨fun a _ => hb.map fun b b' h => (hf _ _ _ _ h).2, ha.imp fun hne => ?_⟩
    simp only [Function.onFun, List.disjoint_left, List.mem_map]
    rintro i ⟨b, -, rfl⟩ ⟨b', -, h⟩
    exact hne (hf _ _ _ _ h).1.symm
  simp [everyInstr, List.nodup_append, ha.map fun _ _ => Instr.encInit.inj, ha.map fun _ _ => Instr.decInit.inj,
    hb.map fun _ _ => Instr.encPut.inj, hlut .lutSym fun _ _ _ _ => Instr.lutSym.inj, hlut .lutVal fun _ _ _ _ => Instr.lutVal.inj]
  -- what is left: a command of one form is none of another
  grind

theorem everyInstr_length : everyInstr.length = 2314 := by
  simp [everyInstr, everyAsel, everyByte]

/-- A number below 65536 is a command's exactly when it is the word of one. -/
theorem decode_isOk_iff {n : Nat} (hn : n < 65536) :
    (decode (BitVec.ofNat 16 n)).isOk = true ↔ ∃ i, (encode i).toNat = n := by
  constructor
  · intro h
    cases hd : decode (BitVec.ofNat 16 n) with
    | error e => rw [hd] at h; cases h
    | ok i => exact ⟨i, by rw [encode_of_decode hd, BitVec.toNat_ofNat]; omega⟩
  · rintro ⟨i, rfl⟩
    rw [BitVec.ofNat_toNat, BitVec.setWidth_eq, decode_encode]
    rfl

theorem encode_toNat_injective : Function.Injective fun i => (encode i).toNat := by
  intro i j h
  have := (decode_encode i).symm.trans (BitVec.eq_of_toNat_eq h ▸ decode_encode j)
  exact Except.ok.inj this

/-- Settles O9: the numbers counted are those of the words of `everyInstr`, each once. -/
theorem legalWordCount : Obligations.LegalWordCount := by
  unfold Obligations.LegalWordCount
  have hperm : ((List.range 65536).filter fun n => (decode (BitVec.ofNat 16 n)).isOk).Perm
      (everyInstr.map fun i => (encode i).toNat) := by
    refine (List.perm_ext_iff_of_nodup (List.nodup_range.filter _)
      (everyInstr_nodup.map encode_toNat_injective)).mpr fun n => ?_
    simp only [List.mem_filter, List.mem_range, List.mem_map, mem_everyInstr, true_and]
    refine ⟨fun ⟨hn, h⟩ => (decode_isOk_iff hn).mp h, fun ⟨i, h⟩ => ?_⟩
    have hn : n < 65536 := h ▸ (encode i).isLt
    exact ⟨hn, (decode_isOk_iff hn).mpr ⟨i, h⟩⟩
  rw [List.countP_eq_length_filter, hperm.length_eq, List.length_map, everyInstr_length]

/-- Settles O6, word by word. -/
theorem writtenWordsDecode : Obligations.WrittenWordsDecode := by
  unfold Obligations.WrittenWordsDecode
  decide

/-- Settles O10, line by line. -/
theorem assemblerLines : Obligations.AssemblerLines := by
  unfold Obligations.AssemblerLines
  decide
end Sys2Proof
end

