-- ==== Sys2Proof/Proofs/HostMoves.lean ====
section
/-! PROOF. What the host does at a step (70_reset_and_hazards.md sections 1 and 3 to 5): a reset and a late answer, the command a
step runs, and where the host gives the block no step. -/

namespace Sys2Proof.Machine

section
variable {s : State}

/-! ### Reset and a late answer (R231, R236) -/

/-- In IDLE no request is outstanding. -/
theorem State.request_of_idle (hp : s.seq.phase = .idle) : s.request = none := by
  simp [State.request, hp]

theorem hardReset_request (s : State) : (hardReset s).request = none := State.request_of_idle rfl

theorem step_of_lateAnswer (hm : s.move = .lateAnswer) : step s = lateAnswer s.afterMove := by
  simp only [step, hm]

theorem lateAnswer_of_none_withdrawn (h : s.io.withdrawn = 0) : lateAnswer s = .fault .answerWithoutRequest := if_pos h

theorem lateAnswer_of_withdrawn (h : s.io.withdrawn ≠ 0) :
    lateAnswer s = .next { s with io := { s.io with withdrawn := s.io.withdrawn - 1 } } := if_neg h

/-! ### The command a step runs -/

theorem issue_of_decode_ok {w : Word} {i : Instr} (h : decode w = .ok i) (s : State) : issue w s = exec i s := by
  simp [issue, h]

theorem decode_of_decodeTableWord {nbits w : Nat} {i : Instr} (h : decodeTableWord nbits w = some i) :
    decode (tableWord nbits w) = .ok i := by
  unfold decodeTableWord at h
  split at h
  · rename_i hd
    rw [hd, Option.some.inj h]
  · cases h

/-! ### Where the host gives the block no step -/

theorem step_of_no_command (hp : s.seq.phase = .idle) (hm : s.move = .serve) (hc : s.io.commands = []) :
    step s = .fault .runEnded := by
  simp [step, hm, serve, hp, State.takeCommand, hc]

theorem step_of_no_emit_answer (hp : s.seq.phase = .encEmit) (hm : s.move = .serve) (hq : s.seq.emitq ≠ [])
    (ha : s.io.sinkAnswers = []) : step s = .fault .noSinkAnswer := by
  simp [step, hm, serve, hp, encEmitStep, hq, State.takeSinkAnswer, ha]

theorem step_of_no_flush_answer (hp : s.seq.phase = .encFlush) (hm : s.move = .serve) (ha : s.io.sinkAnswers = []) :
    step s = .fault .noSinkAnswer := by
  simp [step, hm, serve, hp, encFlushStep, State.takeSinkAnswer, ha]

theorem step_of_no_source_answer (hp : s.seq.phase = .decFill) (hm : s.move = .serve) (hn : s.nextSource = none) :
    step s = .fault .noSourceAnswer := by
  simp [step, hm, serve, hp, decFillStep, State.takeSourceAnswer, hn]

theorem step_of_present_busy {w : Word} (hp : s.seq.phase ≠ .idle) (hm : s.move = .present w) :
    step s = .fault .commandWhileBusy := by
  simp [step, hm, hp]

end

/-- Settles O2, by the step that is a reset (`step_of_reset`) and the one that takes a late answer
(`lateAnswer_of_withdrawn`). -/
theorem resetAbandonsTheCommand : Obligations.ResetAbandonsTheCommand := by
  unfold Obligations.ResetAbandonsTheCommand
  refine ⟨fun s hm => ?_, fun s hm hw => ?_⟩
  · refine ⟨_, step_of_reset hm, hardReset_request _, rfl, rfl, rfl, rfl, rfl, ?_⟩
    change s.io.withdrawn + (if s.request = none then 0 else 1) = _
    split
    · rfl
    · rfl
  · refine ⟨_, (step_of_lateAnswer hm).trans (lateAnswer_of_withdrawn hw), rfl, rfl, rfl, rfl, rfl, rfl, rfl, rfl, ?_⟩
    exact Nat.sub_add_cancel (Nat.pos_of_ne_zero hw)

/-- Settles O3: the step issues the word (`step_issues`), and a word that decodes runs its command. -/
theorem stepRunsTheDecodedCommand : Obligations.StepRunsTheDecodedCommand := by
  unfold Obligations.StepRunsTheDecodedCommand
  refine ⟨fun s w ws i hp hm hc hd => ?_, fun s w i hp hm hd => ?_, fun s nbits w i h => ?_⟩
  · rw [step_issues hp (.inl ⟨hm, hc⟩), issue_of_decode_ok hd]
  · rw [step_issues hp (.inr ⟨hm, rfl⟩), issue_of_decode_ok hd]
  · rw [step_issues (s := s.withFetchWord nbits w) (cs := s.io.commands) rfl (.inl ⟨rfl, rfl⟩),
      issue_of_decode_ok (decode_of_decodeTableWord h)]
    rfl

/-- Settles O5, by one lemma for each place. -/
theorem whereTheHostStopsTheRun : Obligations.WhereTheHostStopsTheRun := by
  unfold Obligations.WhereTheHostStopsTheRun
  exact ⟨fun _ => step_of_no_command, fun _ => step_of_no_emit_answer, fun _ => step_of_no_flush_answer,
    fun _ hp hm ha hr => step_of_no_source_answer hp hm (State.nextSource_eq_none.mpr ⟨ha, hr⟩),
    fun _ _ => step_of_present_busy, fun _ hm hw => (step_of_lateAnswer hm).trans (lateAnswer_of_none_withdrawn hw)⟩

end Sys2Proof.Machine
end

