-- ==== Sys2Proof/Proofs/Invariant.lean ====
section
/-! PROOF. The invariant of every run (10_state.md section 7): it falls into a part for each engine, reset meets it, and every
step keeps it. -/

namespace Sys2Proof.Machine

/-! ### The two parts of the invariant -/

/-- What `Inv` says of the encoder and the sequencer. -/
structure EncInv (e : EncoderRegs) (q : SequencerRegs) : Prop where
  held_below_capacity : e.mode = .ready → e.cnt.toNat < groupBytes e.asel
  resting : q.phase = .idle ∨ q.phase = .decFill → q.emitq = []
  emitting : q.phase = .encEmit → e.mode = .ready ∧ e.cnt = 0 ∧ q.emitq ≠ [] ∧
    q.emitq.length ≤ groupSymbols e.asel ∧ ∀ c ∈ q.emitq, c ∈ table e.asel ∨ c = padOctet
  flushing : q.phase = .encFlush → e.mode = .ready ∧ e.cnt = 0 ∧ q.emitq = [] ∧ q.flush = true

/-- What `Inv` says of the decoder, in a fill or out of one. -/
structure DecInv (d : DecoderRegs) (filling : Prop) : Prop where
  buffer_bounds : d.opos.toNat ≤ d.olen.toNat ∧ d.olen.toNat ≤ groupBytes d.asel
  eof_buffer_empty : d.eof = true → d.opos = d.olen
  outside : d.mode = .ready → ¬ filling → d.scnt = 0
  inside : filling → d.mode = .ready ∧ d.eof = false ∧ d.opos = d.olen ∧ d.scnt.toNat < groupSymbols d.asel
  slots_classified : d.mode = .ready → ∀ i, (h : i < 8) → i < d.scnt.toNat →
    d.slot[i] = padSlot ∨ d.slot[i].toNat < numSymbols d.asel

theorem inv_iff {s : State} : Inv s ↔ EncInv s.enc s.seq ∧ DecInv s.dec (s.seq.phase = .decFill) := by
  constructor
  · intro h
    refine ⟨⟨h.held_below_capacity, ?_, h.emitting, h.flushing⟩, ⟨h.buffer_bounds, h.eof_buffer_empty,
      h.no_slots_between_commands, fun hp => (h.filling hp).2, h.slots_classified⟩⟩
    rintro (hp | hp)
    · exact h.idle_queue_empty hp
    · exact (h.filling hp).1
  · rintro ⟨he, hd⟩
    exact ⟨he.held_below_capacity, fun hp => he.resting (.inl hp), hd.outside, hd.buffer_bounds, hd.eof_buffer_empty,
      he.emitting, he.flushing, fun hp => ⟨he.resting (.inr hp), hd.inside hp⟩, hd.slots_classified⟩

/-! ### The encoder's part, by the phase -/

section
variable {e : EncoderRegs} {q : SequencerRegs}

theorem EncInv.of_idle (hc : e.mode = .ready → e.cnt.toNat < groupBytes e.asel) (hp : q.phase = .idle)
    (hq : q.emitq = []) : EncInv e q :=
  ⟨hc, fun _ => hq, fun h => by simp [hp] at h, fun h => by simp [hp] at h⟩

theorem EncInv.of_decFill (hc : e.mode = .ready → e.cnt.toNat < groupBytes e.asel) (hp : q.phase = .decFill)
    (hq : q.emitq = []) : EncInv e q :=
  ⟨hc, fun _ => hq, fun h => by simp [hp] at h, fun h => by simp [hp] at h⟩

theorem groupBytes_pos (a : Asel) : 0 < groupBytes a := Nat.lt_of_lt_of_le (by decide) (groupBytes_bounds a).1
theorem groupSymbols_pos (a : Asel) : 0 < groupSymbols a := Nat.lt_of_lt_of_le (by decide) (groupSymbols_bounds a).1

theorem EncInv.of_encEmit (hm : e.mode = .ready) (hc : e.cnt = 0) (hp : q.phase = .encEmit) (hne : q.emitq ≠ [])
    (hlen : q.emitq.length ≤ groupSymbols e.asel) (hq : ∀ c ∈ q.emitq, c ∈ table e.asel ∨ c = padOctet) : EncInv e q :=
  ⟨fun _ => by simpa [hc] using groupBytes_pos e.asel, fun h => by simp [hp] at h, fun _ => ⟨hm, hc, hne, hlen, hq⟩,
    fun h => by simp [hp] at h⟩

theorem EncInv.of_encFlush (hm : e.mode = .ready) (hc : e.cnt = 0) (hp : q.phase = .encFlush) (hq : q.emitq = [])
    (hf : q.flush = true) : EncInv e q :=
  ⟨fun _ => by simpa [hc] using groupBytes_pos e.asel, fun h => by simp [hp] at h, fun h => by simp [hp] at h,
    fun _ => ⟨hm, hc, hq, hf⟩⟩

/-- Octets of a group, GS of them, are something to write. -/
theorem EncInv.of_group (hm : e.mode = .ready) (hc : e.cnt = 0) (hp : q.phase = .encEmit)
    (hlen : q.emitq.length = groupSymbols e.asel) (hq : ∀ c ∈ q.emitq, c ∈ table e.asel ∨ c = padOctet) : EncInv e q :=
  .of_encEmit hm hc hp (List.ne_nil_of_length_pos (hlen ▸ groupSymbols_pos e.asel)) hlen.le hq

end

/-! ### The decoder's part -/

section
variable {d : DecoderRegs} {p p' : Prop}

/-- Out of a fill it does not matter in which phase the block is. -/
theorem DecInv.outside_mono (h : DecInv d p) (hp : ¬ p) (hp' : ¬ p') : DecInv d p' :=
  ⟨h.buffer_bounds, h.eof_buffer_empty, fun hm _ => h.outside hm hp, fun h' => absurd h' hp', h.slots_classified⟩

/-- A READY decoder out of a fill holds no slot. -/
theorem DecInv.of_no_slot (hp : ¬ p) (hs : d.scnt = 0)
    (hb : d.opos.toNat ≤ d.olen.toNat ∧ d.olen.toNat ≤ groupBytes d.asel) (he : d.eof = true → d.opos = d.olen) :
    DecInv d p :=
  ⟨hb, he, fun _ _ => hs, fun h => absurd h hp, fun _ i _ hi => by simp [hs] at hi⟩

/-- The error entry leaves the buffer as it is (R205). -/
theorem DecInv.failed (h : DecInv d p) (hp' : ¬ p') : DecInv { d with mode := .failed } p' :=
  ⟨h.buffer_bounds, h.eof_buffer_empty, fun hm => by simp at hm, fun h' => absurd h' hp', fun hm => by simp at hm⟩

end

/-! ### Commands, from IDLE -/

section
variable {s t : State}

theorem Inv.of_regs_eq (hs : Inv s) (he : t.enc = s.enc) (hd : t.dec = s.dec) (hq : t.seq = s.seq) : Inv t := by
  rw [inv_iff] at hs ⊢
  rw [he, hd, hq]
  exact hs

theorem Inv.respond (hs : Inv s) (r : Response) : Inv (s.respond r) := hs.of_regs_eq rfl rfl rfl
theorem Inv.observe (hs : Inv s) (e : Event) : Inv (s.observe e) := hs.of_regs_eq rfl rfl rfl

theorem execEncPut_keeps_inv {b : Byte} (h : execEncPut b s = .next t) (hp : s.seq.phase = .idle) (hs : Inv s) :
    Inv t := by
  obtain ⟨-, rfl⟩ | ⟨-, -, hroom, rfl⟩ | ⟨hm, -, hfull, rfl⟩ := execEncPut_next h
  · exact hs.respond _
  · obtain ⟨he, hd⟩ := inv_iff.mp hs
    refine inv_iff.mpr ⟨.of_idle (fun _ => ?_) hp (he.resting (.inl hp)), hd⟩
    exact Nat.lt_of_le_of_lt (by simpa using Nat.mod_le _ 8) hroom
  · obtain ⟨-, hd⟩ := inv_iff.mp hs
    obtain ⟨hlen, hmem⟩ := fullGroupOctets_spec s.enc.asel (s.enc.grp.setIfInBounds (groupBytes s.enc.asel - 1) b)
    exact inv_iff.mpr ⟨.of_group hm rfl rfl hlen fun c hc => .inl (hmem c hc),
      hd.outside_mono (by simp [hp]) (by simp)⟩

theorem execEncFinal_keeps_inv (h : execEncFinal s = .next t) (hp : s.seq.phase = .idle) (hs : Inv s) : Inv t := by
  have hd {d : DecoderRegs} {q : Phase} (hq : q ≠ .decFill) (h : d = s.dec) : DecInv d (q = .decFill) :=
    h ▸ (inv_iff.mp hs).2.outside_mono (by simp [hp]) hq
  obtain ⟨-, rfl⟩ | ⟨hm, -, rfl⟩ | ⟨hm, -, hle, rfl⟩ := execEncFinal_next h
  · exact hs.respond _
  · exact inv_iff.mpr ⟨.of_encFlush hm rfl rfl rfl rfl, hd (by simp) rfl⟩
  · obtain ⟨hlen, hmem⟩ := finalGroupOctets_spec s.enc.asel _ s.enc.grp hle
    exact inv_iff.mpr ⟨.of_group hm rfl rfl hlen hmem, hd (by simp) rfl⟩

theorem execDecNext_keeps_inv (h : execDecNext s = .next t) (hp : s.seq.phase = .idle) (hs : Inv s) : Inv t := by
  obtain ⟨he, hd⟩ := inv_iff.mp hs
  have hnot : ¬ s.seq.phase = .decFill := by simp [hp]
  obtain ⟨-, rfl⟩ | ⟨hm, hlt, b, -, rfl⟩ | ⟨-, -, -, rfl⟩ | ⟨hm, hle, hf, rfl⟩ := execDecNext_next h
  · exact hs.respond _
  · refine inv_iff.mpr ⟨he, .of_no_slot hnot (hd.outside hm hnot) ⟨?_, hd.buffer_bounds.2⟩ fun heof => ?_⟩
    · exact Nat.le_trans (by simpa [BitVec.toNat_add] using Nat.mod_le _ 8) hlt
    · exact absurd (congrArg BitVec.toNat (hd.eof_buffer_empty heof)) hlt.ne
  · exact hs.respond _
  · refine inv_iff.mpr ⟨.of_decFill he.held_below_capacity rfl (he.resting (.inl hp)),
      ⟨hd.buffer_bounds, hd.eof_buffer_empty, fun _ hn => absurd rfl hn, fun _ => ⟨hm, hf, ?_, ?_⟩,
        fun _ i _ hi => by simp at hi⟩⟩
    · exact BitVec.eq_of_toNat_eq (Nat.le_antisymm hd.buffer_bounds.1 hle)
    · exact groupSymbols_pos _

theorem exec_keeps_inv {i : Instr} (h : exec i s = .next t) (hp : s.seq.phase = .idle) (hs : Inv s) : Inv t := by
  obtain ⟨he, hd⟩ := inv_iff.mp hs
  obtain ⟨a, -, rfl⟩ | ⟨b, -, h⟩ | ⟨-, h⟩ | ⟨a, -, rfl⟩ | ⟨-, h⟩ | ⟨-, r, rfl, -⟩ := exec_next h
  · exact inv_iff.mpr ⟨.of_idle (fun _ => groupBytes_pos a) hp (he.resting (.inl hp)), hd⟩
  · exact execEncPut_keeps_inv h hp hs
  · exact execEncFinal_keeps_inv h hp hs
  · exact inv_iff.mpr ⟨he, .of_no_slot (by simp [hp]) rfl ⟨by simp, by simp⟩ fun _ => rfl⟩
  · exact execDecNext_keeps_inv h hp hs
  · exact hs.respond _

theorem issue_keeps_inv {w : Word} (h : issue w s = .next t) (hp : s.seq.phase = .idle) (hs : Inv s) : Inv t := by
  obtain ⟨i, -, h⟩ | ⟨e, -, rfl⟩ := issue_cases h
  · exact exec_keeps_inv h hp hs
  · exact hs.respond _

/-! ### Port steps -/

theorem emitAnswered_keeps_inv {a : SinkAnswer} (h : emitAnswered a s = .next t) (hp : s.seq.phase = .encEmit)
    (hs : Inv s) : Inv t := by
  obtain ⟨he, hd⟩ := inv_iff.mp hs
  obtain ⟨hm, hc, -, hlen, hmem⟩ := he.emitting hp
  have hdec {q : Phase} (hq : q ≠ .decFill) : DecInv s.dec (q = .decFill) := hd.outside_mono (by simp [hp]) hq
  obtain ⟨c, q, hq, ⟨-, hne, rfl⟩ | ⟨-, -, hf, rfl⟩ | ⟨-, -, -, rfl⟩ | ⟨-, rfl⟩⟩ := emitAnswered_next h
  · simp only [hq, List.length_cons, List.forall_mem_cons] at hlen hmem
    exact inv_iff.mpr ⟨.of_encEmit hm hc hp hne (by simp; omega) hmem.2, hd⟩
  · exact inv_iff.mpr ⟨.of_encFlush hm hc rfl rfl hf, hdec (by simp)⟩
  · exact inv_iff.mpr ⟨.of_idle he.held_below_capacity rfl rfl, hdec (by simp)⟩
  · exact inv_iff.mpr ⟨.of_idle (fun hm => by simp at hm) rfl rfl, hdec (by simp)⟩

theorem flushAnswered_keeps_inv {a : SinkAnswer} (h : flushAnswered a s = .next t) (hp : s.seq.phase = .encFlush)
    (hs : Inv s) : Inv t := by
  obtain ⟨he, hd⟩ := inv_iff.mp hs
  obtain ⟨-, -, hq, -⟩ := he.flushing hp
  have hdec : DecInv s.dec (Phase.idle = .decFill) := hd.outside_mono (by simp [hp]) (by simp)
  obtain ⟨-, rfl⟩ | ⟨-, rfl⟩ := flushAnswered_next h
  · exact inv_iff.mpr ⟨.of_idle he.held_below_capacity rfl hq, hdec⟩
  · exact inv_iff.mpr ⟨.of_idle (fun hm => by simp at hm) rfl hq, hdec⟩

/-- Where a fill fails, for whatever reason. -/
theorem Inv.fail_decoder (hs : Inv s) (hp : s.seq.phase = .decFill) (r : Response) : Inv (s.fail .decoder r) := by
  obtain ⟨he, hd⟩ := inv_iff.mp hs
  exact inv_iff.mpr ⟨.of_idle he.held_below_capacity rfl (he.resting (.inr hp)), hd.failed (by simp)⟩

/-- Writing the slot past the filled ones touches none of them. -/
theorem Inv.write_slot (hs : Inv s) (x : Slot) :
    Inv { s with dec := { s.dec with slot := s.dec.slot.setIfInBounds s.dec.scnt.toNat x } } := by
  obtain ⟨he, hd⟩ := inv_iff.mp hs
  refine inv_iff.mpr ⟨he, ⟨hd.buffer_bounds, hd.eof_buffer_empty, hd.outside, hd.inside, fun hm i hi hlt => ?_⟩⟩
  simpa [hi, Nat.ne_of_gt (show i < s.dec.scnt.toNat from hlt)] using hd.slots_classified hm i hi hlt

/-- A slot filled with PAD or an index while there is room keeps the invariant (R161). -/
theorem Inv.fill_slot (hs : Inv s) (hp : s.seq.phase = .decFill) {x : Slot}
    (hx : x = padSlot ∨ x.toNat < numSymbols s.dec.asel) (hroom : s.dec.scnt.toNat + 1 < groupSymbols s.dec.asel) :
    Inv { s with dec := { s.dec with slot := s.dec.slot.setIfInBounds s.dec.scnt.toNat x,
                                     scnt := BitVec.ofNat 4 (s.dec.scnt.toNat + 1) } } := by
  obtain ⟨he, hd⟩ := inv_iff.mp hs
  obtain ⟨hm, hf, hb, -⟩ := hd.inside hp
  have hle := (groupSymbols_bounds s.dec.asel).2
  have hcnt : (BitVec.ofNat 4 (s.dec.scnt.toNat + 1)).toNat = s.dec.scnt.toNat + 1 := by
    rw [BitVec.toNat_ofNat]
    omega
  refine inv_iff.mpr ⟨he, ⟨hd.buffer_bounds, hd.eof_buffer_empty, fun _ hn => absurd hp hn,
    fun _ => ⟨hm, hf, hb, hcnt.trans_lt hroom⟩, fun _ i hi hlt => ?_⟩⟩
  simp only [hcnt] at hlt
  simp only [Vector.getElem_setIfInBounds]
  split
  case isTrue => exact hx
  case isFalse hne => exact hd.slots_classified hm i hi (by omega)

theorem completeGroup_keeps_inv {g : DecodeGroup} (h : completeGroup g s = .next t) (hp : s.seq.phase = .decFill)
    (hs : Inv s) : Inv t := by
  obtain ⟨cause, -, rfl⟩ | ⟨k, b, bs, hv, hb, rfl⟩ := completeGroup_next h
  · exact hs.fail_decoder hp _
  · obtain ⟨he, hd⟩ := inv_iff.mp hs
    obtain ⟨hlen, -, hle⟩ := unpack_length (s := g) (validate_ok hv).2
    rw [hb, List.length_cons] at hlen
    have hgb := (groupBytes_bounds s.dec.asel).2
    have holen : (BitVec.ofNat 3 (bs.length + 1)).toNat = bs.length + 1 := by
      rw [BitVec.toNat_ofNat]
      omega
    refine inv_iff.mpr ⟨.of_idle he.held_below_capacity rfl (he.resting (.inr hp)), .of_no_slot (by simp) rfl ⟨?_, ?_⟩
      fun heof => ?_⟩
    · exact (Nat.le_add_left 1 _).trans_eq holen.symm
    · exact holen.trans_le (hlen.trans_le hle)
    · exact absurd heof (by simp [(hd.inside hp).2.1])

theorem fillSlot_keeps_inv {x : Slot} (hx : x = padSlot ∨ x.toNat < numSymbols s.dec.asel)
    (h : fillSlot x s = .next t) (hp : s.seq.phase = .decFill) (hs : Inv s) : Inv t := by
  obtain ⟨-, ⟨hroom, rfl⟩ | ⟨-, h⟩⟩ := fillSlot_next h
  · exact hs.fill_slot hp hx hroom
  · exact completeGroup_keeps_inv h hp (hs.write_slot x)

theorem fillEnd_keeps_inv (h : fillEnd s = .next t) (hp : s.seq.phase = .decFill) (hs : Inv s) : Inv t := by
  obtain ⟨h0, rfl⟩ | ⟨-, rfl⟩ := fillEnd_next h
  · obtain ⟨he, hd⟩ := inv_iff.mp hs
    obtain ⟨-, -, hempty, -⟩ := hd.inside hp
    exact inv_iff.mpr ⟨.of_idle he.held_below_capacity rfl (he.resting (.inr hp)),
      .of_no_slot (by simp) h0 hd.buffer_bounds fun _ => hempty⟩
  · exact hs.fail_decoder hp _

theorem fillAnswered_keeps_inv {a : SourceAnswer} (h : fillAnswered a s = .next t) (hp : s.seq.phase = .decFill)
    (hs : Inv s) : Inv t := by
  have hobs := hs.observe (.sourceRead a)
  obtain ⟨c, -, -, rfl⟩ | ⟨c, x, -, hc, h⟩ | ⟨-, h⟩ | ⟨-, rfl⟩ := fillAnswered_next h
  · exact hobs
  · exact fillSlot_keeps_inv (s := s.observe _) (slot_of_classify hc) h hp hobs
  · exact fillEnd_keeps_inv h hp hobs
  · exact hobs.fail_decoder hp _

end

/-- Settles O56, clause by clause. -/
theorem resetMeetsTheInvariant : Obligations.ResetMeetsTheInvariant := by
  unfold Obligations.ResetMeetsTheInvariant
  exact inv_iff.mpr ⟨.of_idle (fun _ => groupBytes_pos _) rfl rfl,
    .of_no_slot (by simp [State.reset]) rfl ⟨by decide, by decide⟩ fun _ => rfl⟩

/-- A reset leaves the registers of the reset state. -/
theorem hardReset_inv (s : State) : Inv (hardReset s) := resetMeetsTheInvariant.of_regs_eq rfl rfl rfl

/-- Settles O57: a step is a reset, a late answer, a command in IDLE or an answer to the phase's request, and each keeps
the invariant. -/
theorem everyStepKeepsTheInvariant : Obligations.EveryStepKeepsTheInvariant := by
  unfold Obligations.EveryStepKeepsTheInvariant
  intro s t hs h
  obtain ⟨-, rfl⟩ | ⟨-, -, rfl⟩ | ⟨hp, w, cs, -, h⟩ | ⟨-, hp, a, rest, -, h⟩ | ⟨-, hp, a, rest, -, h⟩ |
    ⟨-, hp, a, rest, -, h⟩ := step_cases h
  · exact hardReset_inv _
  · exact hs.of_regs_eq rfl rfl rfl
  · exact issue_keeps_inv h hp (hs.of_regs_eq rfl rfl rfl)
  · exact emitAnswered_keeps_inv h hp (hs.of_regs_eq rfl rfl rfl)
  · exact flushAnswered_keeps_inv h hp (hs.of_regs_eq rfl rfl rfl)
  · exact fillAnswered_keeps_inv h hp (hs.of_regs_eq rfl rfl rfl)

end Sys2Proof.Machine
end

