-- ==== Sys2Proof/Proofs/Events.lean ====
section
/-! PROOF. What a step adds to what the host observes (20_memory.md sections 1, 4 and 5; 30_encoding.md section 2): the transaction it
is the answer of, if any, and then the response if the command ends in it. -/

namespace Sys2Proof.Machine

/-- The request a port transaction answers; a response answers none. -/
def Event.request? : Event → Option PortRequest
  | .response _ => none
  | .sinkWrite c _ => some (.sinkWrite c)
  | .sinkFlush _ => some .sinkFlush
  | .sourceRead _ => some .sourceRead

theorem Event.isTransaction_of_request {e : Event} {q : PortRequest} (h : e.request? = some q) :
    e.isTransaction = true := by
  cases e with
  | response r => cases h
  | sinkWrite c a => rfl
  | sinkFlush a => rfl
  | sourceRead a => rfl

theorem State.request_eq_sinkWrite {s : State} {c : Byte} (h : s.request = some (.sinkWrite c)) :
    s.seq.phase = .encEmit ∧ c ∈ s.seq.emitq := by
  unfold State.request at h
  split at h
  · cases h
  · rename_i hp
    simp only [Option.map_eq_some_iff, PortRequest.sinkWrite.injEq, exists_eq_right] at h
    exact ⟨hp, List.mem_of_mem_head? h⟩
  · cases h
  · cases h

/-- From `s` to `t` the given transactions were observed and then, exactly if the command has ended, one response. No
response is UNUSABLE with mode READY (R206). -/
def Progress (txns : List Event) (s t : State) : Prop :=
  (t.seq.phase = .idle ∧ ∃ r : Response, r ≠ .unusable .ready ∧ t.io.trace = s.io.trace ++ txns ++ [.response r.word]) ∨
  (t.seq.phase ≠ .idle ∧ t.io.trace = s.io.trace ++ txns)

section
variable {s t u : State} {es : List Event}

theorem Progress.ended {r : Response} (hp : t.seq.phase = .idle) (hr : r ≠ .unusable .ready)
    (ht : t.io.trace = s.io.trace ++ es ++ [.response r.word]) : Progress es s t := .inl ⟨hp, r, hr, ht⟩

theorem Progress.goes_on (hp : t.seq.phase ≠ .idle) (ht : t.io.trace = s.io.trace ++ es) : Progress es s t :=
  .inr ⟨hp, ht⟩

/-- Only what was observed matters of the state a step starts from. -/
theorem Progress.of_trace_eq (h : Progress es u t) (hu : u.io.trace = s.io.trace) : Progress es s t := by
  rwa [Progress, hu] at h

/-- What a part of a step observes before the rest of it. -/
theorem Progress.of_observe {e : Event} (h : Progress [] (s.observe e) t) : Progress [e] s t := by
  simpa [Progress] using h

/-! ### Commands -/

theorem State.refuseUnusable_progress {g : Engine} (hp : s.seq.phase = .idle) (hm : s.mode g ≠ .ready) :
    Progress [] s (s.refuseUnusable g) :=
  .ended hp (fun h => hm (Response.unusable.inj h)) (by simp)

theorem State.respond_progress {r : Response} (hp : s.seq.phase = .idle) (hr : r ≠ .unusable .ready) :
    Progress [] s (s.respond r) := .ended hp hr (by simp)

theorem execEncPut_progress {b : Byte} (h : execEncPut b s = .next t) (hp : s.seq.phase = .idle) : Progress [] s t := by
  obtain ⟨hm, rfl⟩ | ⟨-, -, -, rfl⟩ | ⟨-, -, -, rfl⟩ := execEncPut_next h
  · exact State.refuseUnusable_progress hp hm
  · exact .ended (r := .ok) hp (by simp) (by simp)
  · exact .goes_on (by simp) (by simp)

theorem execEncFinal_progress (h : execEncFinal s = .next t) (hp : s.seq.phase = .idle) : Progress [] s t := by
  obtain ⟨hm, rfl⟩ | ⟨-, -, rfl⟩ | ⟨-, -, -, rfl⟩ := execEncFinal_next h
  · exact State.refuseUnusable_progress hp hm
  · exact .goes_on (by simp) (by simp)
  · exact .goes_on (by simp) (by simp)

theorem execDecNext_progress (h : execDecNext s = .next t) (hp : s.seq.phase = .idle) : Progress [] s t := by
  obtain ⟨hm, rfl⟩ | ⟨-, -, b, -, rfl⟩ | ⟨-, -, -, rfl⟩ | ⟨-, -, -, rfl⟩ := execDecNext_next h
  · exact State.refuseUnusable_progress hp hm
  · exact .ended (r := .data b) hp (by simp) (by simp)
  · exact State.respond_progress hp (by simp)
  · exact .goes_on (by simp) (by simp)

theorem exec_progress {i : Instr} (h : exec i s = .next t) (hp : s.seq.phase = .idle) : Progress [] s t := by
  obtain ⟨a, -, rfl⟩ | ⟨b, -, h⟩ | ⟨-, h⟩ | ⟨a, -, rfl⟩ | ⟨-, h⟩ | ⟨-, r, rfl, hr⟩ := exec_next h
  · exact .ended (r := .ok) hp (by simp) (by simp)
  · exact execEncPut_progress h hp
  · exact execEncFinal_progress h hp
  · exact .ended (r := .ok) hp (by simp) (by simp)
  · exact execDecNext_progress h hp
  · refine State.respond_progress hp ?_
    obtain rfl | rfl | ⟨b, rfl⟩ := hr <;> simp

theorem issue_progress {w : Word} (h : issue w s = .next t) (hp : s.seq.phase = .idle) : Progress [] s t := by
  obtain ⟨i, -, h⟩ | ⟨e, -, rfl⟩ := issue_cases h
  · exact exec_progress h hp
  · exact State.respond_progress hp (by simp)

/-! ### Port steps -/

theorem emitAnswered_progress {a : SinkAnswer} (h : emitAnswered a s = .next t) (hp : s.seq.phase = .encEmit) :
    ∃ c, s.request = some (.sinkWrite c) ∧ Progress [.sinkWrite c a] s t := by
  obtain ⟨c, q, hq, h⟩ := emitAnswered_next h
  refine ⟨c, by simp [State.request, hp, hq], .of_observe ?_⟩
  obtain ⟨rfl, -, rfl⟩ | ⟨rfl, -, -, rfl⟩ | ⟨rfl, -, -, rfl⟩ | ⟨rfl, rfl⟩ := h
  · exact .goes_on (by simp [hp]) (by simp)
  · exact .goes_on (by simp) (by simp)
  · exact .ended (r := .ok) rfl (by simp) (by simp)
  · exact .ended (r := .ioerr .sinkWrite) rfl (by simp) (by simp)

theorem flushAnswered_progress {a : SinkAnswer} (h : flushAnswered a s = .next t) : Progress [.sinkFlush a] s t := by
  refine .of_observe ?_
  obtain ⟨rfl, rfl⟩ | ⟨rfl, rfl⟩ := flushAnswered_next h
  · exact .ended (r := .ok) rfl (by simp) (by simp)
  · exact .ended (r := .ioerr .sinkFlush) rfl (by simp) (by simp)

theorem completeGroup_progress {g : DecodeGroup} (h : completeGroup g s = .next t) : Progress [] s t := by
  obtain ⟨cause, -, rfl⟩ | ⟨k, b, bs, -, -, rfl⟩ := completeGroup_next h
  · exact .ended (r := .malformed cause) rfl (by simp) (by simp)
  · exact .ended (r := .data b) rfl (by simp) (by simp)

theorem fillSlot_progress {x : Slot} (h : fillSlot x s = .next t) (hp : s.seq.phase = .decFill) : Progress [] s t := by
  obtain ⟨-, ⟨-, rfl⟩ | ⟨-, h⟩⟩ := fillSlot_next h
  · exact .goes_on (by simp [hp]) (by simp)
  · exact (completeGroup_progress h).of_trace_eq rfl

theorem fillEnd_progress (h : fillEnd s = .next t) : Progress [] s t := by
  obtain ⟨-, rfl⟩ | ⟨-, rfl⟩ := fillEnd_next h
  · exact .ended (r := .eod) rfl (by simp) (by simp)
  · exact .ended (r := .malformed .truncated) rfl (by simp) (by simp)

theorem fillAnswered_progress {a : SourceAnswer} (h : fillAnswered a s = .next t) (hp : s.seq.phase = .decFill) :
    Progress [.sourceRead a] s t := by
  refine .of_observe ?_
  obtain ⟨c, -, -, rfl⟩ | ⟨c, x, -, -, h⟩ | ⟨-, h⟩ | ⟨-, rfl⟩ := fillAnswered_next h
  · exact .goes_on (by simp [hp]) (by simp)
  · exact fillSlot_progress h hp
  · exact fillEnd_progress h
  · exact .ended (r := .ioerr .source) rfl (by simp) (by simp)

/-! ### The whole step -/

/-- What a step observes: nothing if it is a reset or a late answer; a response or nothing if it takes a command; the
transaction requested and a response or nothing more if it answers a request. -/
theorem step_progress (h : step s = .next t) :
    ((s.move = .reset ∨ s.move = .lateAnswer) ∧ t.io.trace = s.io.trace) ∨
    (s.seq.phase = .idle ∧ (s.move = .serve ∨ ∃ w, s.move = .present w) ∧ Progress [] s t) ∨
    (s.move = .serve ∧ ∃ e q, s.request = some q ∧ e.request? = some q ∧ Progress [e] s t) := by
  obtain ⟨hm, rfl⟩ | ⟨hm, -, rfl⟩ | ⟨hp, w, cs, hw, h⟩ | ⟨hm, hp, a, rest, -, h⟩ | ⟨hm, hp, a, rest, -, h⟩ |
    ⟨hm, hp, a, rest, -, h⟩ := step_cases h
  · exact .inl ⟨.inl hm, rfl⟩
  · exact .inl ⟨.inr hm, rfl⟩
  · exact .inr (.inl ⟨hp, hw.imp And.left fun h => ⟨w, h.1⟩, (issue_progress h hp).of_trace_eq rfl⟩)
  · obtain ⟨c, hc, hprog⟩ := emitAnswered_progress h hp
    exact .inr (.inr ⟨hm, _, _, hc, rfl, hprog.of_trace_eq rfl⟩)
  · exact .inr (.inr ⟨hm, _, _, by rw [State.request, hp], rfl, (flushAnswered_progress h).of_trace_eq rfl⟩)
  · exact .inr (.inr ⟨hm, _, _, by rw [State.request, hp], rfl, (fillAnswered_progress h hp).of_trace_eq rfl⟩)

/-- What was observed, in two parts: the transactions, and responses only. -/
theorem Progress.trace (h : Progress es s t) : ∃ rs : List Word, t.io.trace = s.io.trace ++ (es ++ rs.map .response) := by
  obtain ⟨-, r, -, ht⟩ | ⟨-, ht⟩ := h
  · exact ⟨[r.word], by simp [ht]⟩
  · exact ⟨[], by simp [ht]⟩

/-- The transactions of a step are its answers to the outstanding request, one if it serves one, else none (R57). -/
theorem step_transactions (h : step s = .next t) : ∃ es, t.io.trace = s.io.trace ++ es ∧
    es.countP Event.isTransaction = (if s.move = .serve ∧ s.request ≠ none then 1 else 0) ∧
    ∀ e ∈ es, e.isTransaction = true → s.request = e.request? := by
  obtain ⟨hm, ht⟩ | ⟨hp, -, hprog⟩ | ⟨hm, e, q, hq, he, hprog⟩ := step_progress h
  · have hne : s.move ≠ .serve := by obtain hm | hm := hm <;> simp [hm]
    exact ⟨[], by simp [ht], by simp [hne], by simp⟩
  · obtain ⟨rs, ht⟩ := hprog.trace
    exact ⟨_, ht, by simp [State.request_of_idle hp], by simp⟩
  · obtain ⟨rs, ht⟩ := hprog.trace
    refine ⟨_, ht, ?_, ?_⟩
    · simp [hm, hq, Event.isTransaction_of_request he]
    · simp [hq, he]

end

/-! ### The words of responses (R77 to R79) -/

theorem extractLsb'_append_fields (x y : BitVec 4) (z : Byte) :
    (x ++ y ++ z).extractLsb' 12 4 = x ∧ (x ++ y ++ z).extractLsb' 8 4 = y ∧ (x ++ y ++ z).extractLsb' 0 8 = z := by
  have hword : (x ++ y ++ z).toNat = (x.toNat * 2 ^ 4 + y.toNat) * 2 ^ 8 + z.toNat := by
    rw [toNat_join (x ++ y) z, toNat_join x y]
  have := x.isLt; have := y.isLt; have := z.isLt
  refine ⟨BitVec.eq_of_toNat_eq ?_, BitVec.eq_of_toNat_eq ?_, BitVec.eq_of_toNat_eq ?_⟩
  · rw [toNat_slice, hword]; omega
  · rw [toNat_slice, hword]; omega
  · rw [toNat_slice, hword]; omega

theorem Response.word_fields (r : Response) : r.word.extractLsb' 12 4 = r.status ∧ r.word.extractLsb' 8 4 = r.info ∧
    r.word.extractLsb' 0 8 = r.dataField := extractLsb'_append_fields _ _ _

/-- Settles O50, by `step_transactions`. -/
theorem transactionsAnswerTheRequest : Obligations.TransactionsAnswerTheRequest := by
  unfold Obligations.TransactionsAnswerTheRequest
  intro s t h
  obtain ⟨es, ht, hcount, hreq⟩ := step_transactions h
  exact ⟨es, ht, hcount, fun _ _ he => hreq _ he rfl, fun _ he => hreq _ he rfl, fun _ he => hreq _ he rfl⟩

/-- Settles O33: what is written is the head of SEQ_EMITQ, whose octets the invariant knows. -/
theorem sinkGetsOnlyAlphabetAndPadding : Obligations.SinkGetsOnlyAlphabetAndPadding := by
  unfold Obligations.SinkGetsOnlyAlphabetAndPadding
  intro s t hs h
  obtain ⟨es, ht, -, hreq⟩ := step_transactions h
  refine ⟨es, ht, fun c a he => ?_⟩
  obtain ⟨hp, hc⟩ := State.request_eq_sinkWrite (hreq _ he rfl)
  obtain ⟨-, -, -, -, hmem⟩ := hs.emitting hp
  exact hmem c hc

/-- Settles O51: the step of a command is not a reset or a late answer, so `Progress` says how it went on. -/
theorem oneResponseEndsACommand : Obligations.OneResponseEndsACommand := by
  unfold Obligations.OneResponseEndsACommand
  intro s t hm h
  have hends {es : List Event} (htx : ∀ e ∈ es, e.isTransaction = true) (hprog : Progress es s t) :
      ∃ es, t.io.trace = s.io.trace ++ es ∧
      ((t.seq.phase = .idle ∧ ∃ txns r, es = txns ++ [.response r] ∧ ∀ e ∈ txns, e.isTransaction = true) ∨
       (t.seq.phase ≠ .idle ∧ ∀ e ∈ es, e.isTransaction = true)) := by
    obtain ⟨hp, r, -, ht⟩ | ⟨hp, ht⟩ := hprog
    · exact ⟨_, by rw [ht, List.append_assoc], .inl ⟨hp, es, r.word, rfl, htx⟩⟩
    · exact ⟨es, ht, .inr ⟨hp, htx⟩⟩
  obtain ⟨hm', -⟩ | ⟨-, -, hprog⟩ | ⟨-, e, q, -, he, hprog⟩ := step_progress h
  · obtain hm | ⟨w, hm⟩ := hm <;> simp [hm] at hm'
  · exact hends (by simp) hprog
  · exact hends (by simp [Event.isTransaction_of_request he]) hprog

/-- The STATUS and INFO of every response but UNUSABLE with mode READY, and its DATA (R77 to R79). -/
theorem Response.word_listed {r : Response} (hr : r ≠ .unusable .ready) :
    (r.word.extractLsb' 12 4, r.word.extractLsb' 8 4) ∈
      ([(0, 0), (1, 0), (2, 0), (3, 1), (3, 2), (3, 3), (3, 4), (4, 1), (4, 2), (4, 3), (5, 0), (6, 0), (7, 0),
        (8, 0), (8, 2)] : List (BitVec 4 × BitVec 4)) ∧
    (r.word.extractLsb' 12 4 ≠ 1 → r.word.extractLsb' 0 8 = 0) := by
  obtain ⟨hs, hi, hd⟩ := r.word_fields
  rw [hs, hi, hd]
  cases r with
  | ok | eod | notFound | range | illegal => decide
  | data b => exact ⟨by simp [Response.status, Response.info], fun h => absurd rfl h⟩
  | malformed c => cases c <;> decide
  | ioerr p => cases p <;> decide
  | unusable m =>
    cases m with
    | ready => exact absurd rfl hr
    | off | failed => decide

/-- Settles O52: the response a step gives is that of `Progress`, and its word is listed. -/
theorem responseWordsAreListed : Obligations.ResponseWordsAreListed := by
  unfold Obligations.ResponseWordsAreListed
  intro s t es r h ht hr
  have hends {es' : List Event} (htx : Event.response r ∉ es') (hprog : Progress es' s t) :
      ∃ x : Response, x ≠ .unusable .ready ∧ r = x.word := by
    obtain ⟨-, x, hx, ht'⟩ | ⟨-, ht'⟩ := hprog
    · rw [ht, List.append_assoc, List.append_cancel_left_eq] at ht'
      exact ⟨x, hx, by simpa [ht', htx] using hr⟩
    · rw [ht, List.append_cancel_left_eq] at ht'
      exact absurd (ht' ▸ hr) htx
  obtain ⟨-, ht'⟩ | ⟨-, -, hprog⟩ | ⟨-, e, q, -, he, hprog⟩ := step_progress h
  · rw [ht, List.append_right_eq_self] at ht'
    simp [ht'] at hr
  · obtain ⟨x, hx, rfl⟩ := hends (by simp) hprog
    exact x.word_listed hx
  · obtain ⟨x, hx, rfl⟩ := hends (by rintro he'; simp at he'; simp [← he', Event.request?] at he) hprog
    exact x.word_listed hx

end Sys2Proof.Machine
end

