-- ==== Sys2Proof/Proofs/Engines.lean ====
section
/-! PROOF. The two engines beside each other: the error entry of one leaves the other alone (60_exceptions.md R205, R208), and
neither reads nor writes the other's registers (10_state.md R20). -/

namespace Sys2Proof.Machine

section
variable {s t : State}

/-! ### Port steps leave the other engine alone (R20) -/

theorem emitAnswered_dec {a : SinkAnswer} (h : emitAnswered a s = .next t) : t.dec = s.dec := by
  obtain ⟨c, q, -, ⟨-, -, rfl⟩ | ⟨-, -, -, rfl⟩ | ⟨-, -, -, rfl⟩ | ⟨-, rfl⟩⟩ := emitAnswered_next h
  · rfl
  · rfl
  · rfl
  · rfl

theorem flushAnswered_dec {a : SinkAnswer} (h : flushAnswered a s = .next t) : t.dec = s.dec := by
  obtain ⟨-, rfl⟩ | ⟨-, rfl⟩ := flushAnswered_next h
  · rfl
  · rfl

theorem completeGroup_enc {g : DecodeGroup} (h : completeGroup g s = .next t) : t.enc = s.enc := by
  obtain ⟨cause, -, rfl⟩ | ⟨k, b, bs, -, -, rfl⟩ := completeGroup_next h
  · rfl
  · rfl

theorem fillSlot_enc {x : Slot} (h : fillSlot x s = .next t) : t.enc = s.enc := by
  obtain ⟨-, ⟨-, rfl⟩ | ⟨-, h⟩⟩ := fillSlot_next h
  · rfl
  · exact (completeGroup_enc h :)

theorem fillEnd_enc (h : fillEnd s = .next t) : t.enc = s.enc := by
  obtain ⟨-, rfl⟩ | ⟨-, rfl⟩ := fillEnd_next h
  · rfl
  · rfl

theorem fillAnswered_enc {a : SourceAnswer} (h : fillAnswered a s = .next t) : t.enc = s.enc := by
  obtain ⟨c, -, -, rfl⟩ | ⟨c, x, -, -, h⟩ | ⟨-, h⟩ | ⟨-, rfl⟩ := fillAnswered_next h
  · rfl
  · exact (fillSlot_enc h :)
  · exact (fillEnd_enc h :)
  · rfl

/-! ### The error entry (R205): where a mode goes to FAILED -/

/-- A command sets no mode to FAILED. -/
theorem exec_not_failed {i : Instr} {g : Engine} (h : exec i s = .next t) (hs : s.mode g ≠ .failed) :
    t.mode g ≠ .failed := by
  obtain ⟨a, rfl⟩ | hmode := exec_mode (g := g) h
  · cases g with
    | encoder => obtain rfl := Host.Outcome.next.inj ((exec_encInit a s).symm.trans h); simp
    | decoder => obtain rfl := Host.Outcome.next.inj ((exec_decInit a s).symm.trans h); simp
  · rwa [hmode]

theorem issue_not_failed {w : Word} {g : Engine} (h : issue w s = .next t) (hs : s.mode g ≠ .failed) :
    t.mode g ≠ .failed := by
  obtain ⟨i, -, h⟩ | ⟨e, -, rfl⟩ := issue_cases h
  · exact exec_not_failed h hs
  · exact hs

theorem emitAnswered_fails {a : SinkAnswer} (h : emitAnswered a s = .next t) (hs : s.enc.mode ≠ .failed)
    (ht : t.enc.mode = .failed) :
    ∃ c, t = { s.observe (.sinkWrite c .err) with seq := { s.seq with emitq := [] } }.fail .encoder (.ioerr .sinkWrite) := by
  obtain ⟨c, q, -, ⟨-, -, rfl⟩ | ⟨-, -, -, rfl⟩ | ⟨-, -, -, rfl⟩ | ⟨-, rfl⟩⟩ := emitAnswered_next h
  · exact absurd ht hs
  · exact absurd ht hs
  · exact absurd ht hs
  · exact ⟨c, rfl⟩

theorem flushAnswered_fails {a : SinkAnswer} (h : flushAnswered a s = .next t) (hs : s.enc.mode ≠ .failed)
    (ht : t.enc.mode = .failed) : t = (s.observe (.sinkFlush .err)).fail .encoder (.ioerr .sinkFlush) := by
  obtain ⟨-, rfl⟩ | ⟨-, rfl⟩ := flushAnswered_next h
  · exact absurd ht hs
  · rfl

/-- A fill that fails has written at most a slot before its error entry. -/
theorem fillAnswered_fails {a : SourceAnswer} (h : fillAnswered a s = .next t) (hs : s.dec.mode ≠ .failed)
    (ht : t.dec.mode = .failed) : ∃ v r, (r = .ioerr .source ∨ ∃ cause, r = .malformed cause) ∧
      t = { s.observe (.sourceRead a) with dec := { s.dec with slot := v } }.fail .decoder r := by
  obtain ⟨c, -, -, rfl⟩ | ⟨c, x, -, -, h⟩ | ⟨-, h⟩ | ⟨-, rfl⟩ := fillAnswered_next h
  · exact absurd ht hs
  · obtain ⟨-, ⟨-, rfl⟩ | ⟨-, h⟩⟩ := fillSlot_next h
    · exact absurd ht hs
    · obtain ⟨cause, -, rfl⟩ | ⟨k, b, bs, -, -, rfl⟩ := completeGroup_next h
      · exact ⟨_, _, .inr ⟨cause, rfl⟩, rfl⟩
      · exact absurd ht hs
  · obtain ⟨-, rfl⟩ | ⟨-, rfl⟩ := fillEnd_next h
    · exact absurd ht hs
    · exact ⟨s.dec.slot, _, .inr ⟨.truncated, rfl⟩, rfl⟩
  · exact ⟨s.dec.slot, _, .inl rfl, rfl⟩

end

/-- Settles O53: no command sets a mode to FAILED, and a port step of the engine does so only by its error entry. -/
theorem errorEntryIsPrecise : Obligations.ErrorEntryIsPrecise := by
  unfold Obligations.ErrorEntryIsPrecise
  refine fun s t h => ⟨fun hs ht => ?_, fun hs ht => ?_⟩
  · obtain ⟨-, rfl⟩ | ⟨-, -, rfl⟩ | ⟨-, w, cs, -, h⟩ | ⟨-, -, a, rest, -, h⟩ | ⟨-, -, a, rest, -, h⟩ |
      ⟨-, -, a, rest, -, h⟩ := step_cases h
    · simp [State.reset] at ht
    · exact absurd ht hs
    · exact absurd ht (issue_not_failed (g := .encoder) h hs)
    · obtain ⟨c, rfl⟩ := emitAnswered_fails h hs ht
      exact ⟨rfl, rfl, rfl, [.sinkWrite c .err], _, rfl, .inl rfl⟩
    · obtain rfl := flushAnswered_fails h hs ht
      exact ⟨rfl, rfl, rfl, [.sinkFlush .err], _, rfl, .inr rfl⟩
    · exact absurd ht (by rwa [fillAnswered_enc h])
  · obtain ⟨-, rfl⟩ | ⟨-, -, rfl⟩ | ⟨-, w, cs, -, h⟩ | ⟨-, -, a, rest, -, h⟩ | ⟨-, -, a, rest, -, h⟩ |
      ⟨-, -, a, rest, -, h⟩ := step_cases h
    · simp [State.reset] at ht
    · exact absurd ht hs
    · exact absurd ht (issue_not_failed (g := .decoder) h hs)
    · exact absurd ht (by rwa [emitAnswered_dec h])
    · exact absurd ht (by rwa [flushAnswered_dec h])
    · obtain ⟨v, r, hr, rfl⟩ := fillAnswered_fails h hs ht
      refine ⟨rfl, rfl, rfl, rfl, rfl, rfl, rfl, [.sourceRead a], r.word, rfl, ?_⟩
      obtain rfl | ⟨cause, rfl⟩ := hr
      · decide
      · cases cause <;> decide

/-! ### Neither engine reads the other's registers (R20) -/

section
variable (s : State) (d : DecoderRegs) (e : EncoderRegs)

theorem exec_encoder_with_dec {i : Instr} (hi : (∃ a, i = .encInit a) ∨ (∃ b, i = .encPut b) ∨ i = .encFinal) :
    exec i { s with dec := d } = mapNext (fun t => { t with dec := d }) (exec i s) := by
  obtain ⟨a, rfl⟩ | ⟨b, rfl⟩ | rfl := hi
  · rfl
  · simp only [exec, execEncPut]
    split_ifs <;> rfl
  · simp only [exec, execEncFinal]
    split_ifs <;> rfl

theorem exec_decoder_with_enc {i : Instr} (hi : (∃ a, i = .decInit a) ∨ i = .decNext) :
    exec i { s with enc := e } = mapNext (fun t => { t with enc := e }) (exec i s) := by
  obtain ⟨a, rfl⟩ | rfl := hi
  · rfl
  · simp only [exec, execDecNext]
    split_ifs
    · rfl
    · split <;> rfl
    · rfl
    · rfl

theorem emitAnswered_with_dec (a : SinkAnswer) :
    emitAnswered a { s with dec := d } = mapNext (fun t => { t with dec := d }) (emitAnswered a s) := by
  cases hq : s.seq.emitq with
  | nil => simp [emitAnswered, hq, mapNext]
  | cons c rest =>
    cases a with
    | err => simp only [emitAnswered, hq]; rfl
    | ack =>
      by_cases hr : rest ≠ []
      · simp only [emitAnswered, hq, if_pos hr]; rfl
      · cases hf : s.seq.flush with
        | true => simp only [emitAnswered, hq, if_neg hr, State.observe_seq, hf]; rfl
        | false => simp only [emitAnswered, hq, if_neg hr, State.observe_seq, hf]; rfl

theorem flushAnswered_with_dec (a : SinkAnswer) :
    flushAnswered a { s with dec := d } = mapNext (fun t => { t with dec := d }) (flushAnswered a s) := by
  cases a with
  | ack => rfl
  | err => rfl

theorem completeGroup_with_enc (g : DecodeGroup) :
    completeGroup g { s with enc := e } = mapNext (fun t => { t with enc := e }) (completeGroup g s) := by
  simp only [completeGroup]
  split
  · rfl
  · split <;> rfl

theorem fillSlot_with_enc (x : Slot) :
    fillSlot x { s with enc := e } = mapNext (fun t => { t with enc := e }) (fillSlot x s) := by
  simp only [fillSlot]
  split_ifs
  · rfl
  · rfl
  · exact completeGroup_with_enc { s with
      dec := { s.dec with slot := s.dec.slot.setIfInBounds s.dec.scnt.toNat x } } e _

theorem fillEnd_with_enc : fillEnd { s with enc := e } = mapNext (fun t => { t with enc := e }) (fillEnd s) := by
  simp only [fillEnd]
  split_ifs <;> rfl

theorem fillAnswered_with_enc (a : SourceAnswer) :
    fillAnswered a { s with enc := e } = mapNext (fun t => { t with enc := e }) (fillAnswered a s) := by
  cases a with
  | chr c =>
    simp only [fillAnswered, State.observe_dec]
    split
    · rfl
    · exact fillSlot_with_enc (s.observe _) e _
  | endOfInput => exact fillEnd_with_enc (s.observe _) e
  | err => rfl

variable {s}

theorem step_of_empty_queue (hp : s.seq.phase = .encEmit) (hm : s.move = .serve) (hq : s.seq.emitq = []) :
    step s = .fault .emitQueueEmpty := by
  simp [step, hm, serve, hp, encEmitStep, hq]

theorem step_emit_with_dec (hp : s.seq.phase = .encEmit) (hm : s.move = .serve) :
    step { s with dec := d } = mapNext (fun t => { t with dec := d }) (step s) := by
  by_cases hq : s.seq.emitq = []
  · rw [step_of_empty_queue hp hm hq, step_of_empty_queue (s := { s with dec := d }) hp hm hq]
    rfl
  cases ha : s.io.sinkAnswers with
  | nil =>
    rw [step_of_no_emit_answer hp hm hq ha, step_of_no_emit_answer (s := { s with dec := d }) hp hm hq ha]
    rfl
  | cons a rest =>
    rw [step_serve_emit hp hm hq ha, step_serve_emit (s := { s with dec := d }) hp hm hq ha]
    exact emitAnswered_with_dec { s with io := _ } d a

theorem step_flush_with_dec (hp : s.seq.phase = .encFlush) (hm : s.move = .serve) :
    step { s with dec := d } = mapNext (fun t => { t with dec := d }) (step s) := by
  cases ha : s.io.sinkAnswers with
  | nil =>
    rw [step_of_no_flush_answer hp hm ha, step_of_no_flush_answer (s := { s with dec := d }) hp hm ha]
    rfl
  | cons a rest =>
    rw [step_serve_flush hp hm ha, step_serve_flush (s := { s with dec := d }) hp hm ha]
    exact flushAnswered_with_dec { s with io := _ } d a

theorem step_fill_with_enc (hp : s.seq.phase = .decFill) (hm : s.move = .serve) :
    step { s with enc := e } = mapNext (fun t => { t with enc := e }) (step s) := by
  cases hn : s.nextSource with
  | none =>
    rw [step_of_no_source_answer hp hm hn, step_of_no_source_answer (s := { s with enc := e }) hp hm hn]
    rfl
  | some p =>
    rw [step_serve_fill hp hm hn, step_serve_fill (s := { s with enc := e }) hp hm hn]
    exact fillAnswered_with_enc { s with io := _ } e p.1

end

/-- Settles O55, by the commands and the port steps of each engine. -/
theorem enginesShareNothing : Obligations.EnginesShareNothing := by
  unfold Obligations.EnginesShareNothing
  refine ⟨fun s d _ => exec_encoder_with_dec s d, fun s e _ => exec_decoder_with_enc s e, fun s d hp hm => ?_,
    fun s e => step_fill_with_enc e⟩
  obtain hp | hp := hp
  · exact step_emit_with_dec d hp hm
  · exact step_flush_with_dec d hp hm

end Sys2Proof.Machine
end

