-- ==== Sys2Proof/Proofs/Progress.lean ====
section
/-! PROOF. From a state of the invariant the block takes what it waits for (70_reset_and_hazards.md R241): every command in IDLE, every
answer to its request; so it never stops a run of its own accord. -/

namespace Sys2Proof.Machine

section
variable {s : State}

/-! ### Commands (R80) -/

/-- The two ways in which a command leaves its issue step: it has its response, or it has a request outstanding. -/
def Issued (s t : State) : Prop :=
  (t.seq.phase = .idle ∧ t.request = none ∧ ∃ r, t.io.trace = s.io.trace ++ [.response r]) ∨
  (t.request ≠ none ∧ t.io.trace = s.io.trace)

theorem Issued.responded {t : State} (hp : t.seq.phase = .idle) {r : Response}
    (ht : t.io.trace = s.io.trace ++ [.response r.word]) : Issued s t :=
  .inl ⟨hp, State.request_of_idle hp, _, ht⟩

theorem State.request_of_emit {t : State} (hp : t.seq.phase = .encEmit) (hq : 0 < t.seq.emitq.length) :
    t.request ≠ none := by
  obtain ⟨c, q, hc⟩ := List.exists_cons_of_length_pos hq
  simp [State.request, hp, hc]

theorem exec_encPut_issued (b : Byte) (hs : Inv s) (hp : s.seq.phase = .idle) :
    ∃ t, exec (.encPut b) s = .next t ∧ Issued s t := by
  by_cases hm : s.enc.mode = .ready
  case neg => exact ⟨_, exec_encPut_of_not_ready hm, .responded hp rfl⟩
  obtain hroom | hfull := Nat.lt_or_eq_of_le (hs.held_below_capacity hm)
  · exact ⟨_, exec_encPut_of_room hm hroom, .responded (r := .ok) hp rfl⟩
  · refine ⟨_, exec_encPut_of_full hm hfull, .inr ⟨State.request_of_emit rfl ?_, rfl⟩⟩
    exact (groupSymbols_pos _).trans_eq (fullGroupOctets_spec _ _).1.symm

theorem exec_encFinal_issued (hs : Inv s) (hp : s.seq.phase = .idle) :
    ∃ t, exec .encFinal s = .next t ∧ Issued s t := by
  by_cases hm : s.enc.mode = .ready
  case neg => exact ⟨_, exec_encFinal_of_not_ready hm, .responded hp rfl⟩
  by_cases hc : s.enc.cnt = 0
  · exact ⟨_, exec_encFinal_of_none_held hm hc, .inr ⟨by simp [State.request], rfl⟩⟩
  · have hle := (hs.held_below_capacity hm).le
    refine ⟨_, exec_encFinal_of_held hm hc hle, .inr ⟨State.request_of_emit rfl ?_, rfl⟩⟩
    exact (groupSymbols_pos _).trans_eq (finalGroupOctets_spec _ _ _ hle).1.symm

theorem exec_decNext_issued (hs : Inv s) (hp : s.seq.phase = .idle) :
    ∃ t, exec .decNext s = .next t ∧ Issued s t := by
  by_cases hm : s.dec.mode = .ready
  case neg => exact ⟨_, exec_decNext_of_not_ready hm, .responded hp rfl⟩
  obtain hlt | hle := Nat.lt_or_ge s.dec.opos.toNat s.dec.olen.toNat
  · have h5 : s.dec.opos.toNat < 5 := hlt.trans_le (hs.buffer_bounds.2.trans (groupBytes_bounds _).2)
    exact ⟨_, exec_decNext_of_buffered hm hlt (Vector.getElem?_eq_getElem h5), .responded (r := .data _) hp rfl⟩
  · cases he : s.dec.eof with
    | true => exact ⟨_, exec_decNext_of_eof hm hle he, .responded hp rfl⟩
    | false => exact ⟨_, exec_decNext_of_empty hm hle he, .inr ⟨by simp [State.request], rfl⟩⟩

theorem exec_issued (i : Instr) (hs : Inv s) (hp : s.seq.phase = .idle) : ∃ t, exec i s = .next t ∧ Issued s t := by
  cases i with
  | encInit a => exact ⟨_, exec_encInit a s, .responded (r := .ok) hp rfl⟩
  | encPut b => exact exec_encPut_issued b hs hp
  | encFinal => exact exec_encFinal_issued hs hp
  | decInit a => exact ⟨_, exec_decInit a s, .responded (r := .ok) hp rfl⟩
  | decNext => exact exec_decNext_issued hs hp
  | lutSym a v =>
    obtain ⟨r, hr⟩ := execLutSym_responds a v s
    exact ⟨_, hr, .responded hp rfl⟩
  | lutVal a c =>
    obtain ⟨r, hr⟩ := execLutVal_responds a c s
    exact ⟨_, hr, .responded hp rfl⟩

theorem issue_is_taken (w : Word) (hs : Inv s) (hp : s.seq.phase = .idle) : ∃ t, issue w s = .next t := by
  cases hd : decode w with
  | error e => exact ⟨_, issue_of_decode_error hd s⟩
  | ok i =>
    obtain ⟨t, ht, -⟩ := exec_issued i hs hp
    exact ⟨t, (issue_of_decode_ok hd s).trans ht⟩

/-! ### Answers (R135, R136, R161) -/

theorem emitAnswered_is_taken (a : SinkAnswer) (hq : s.seq.emitq ≠ []) : ∃ t, emitAnswered a s = .next t := by
  obtain ⟨c, q, hc⟩ := List.exists_cons_of_ne_nil hq
  cases a with
  | err => exact ⟨_, by simp only [emitAnswered, hc]; rfl⟩
  | ack =>
    simp only [emitAnswered, hc]
    split_ifs
    · exact ⟨_, rfl⟩
    · exact ⟨_, rfl⟩
    · exact ⟨_, rfl⟩

theorem flushAnswered_is_taken (a : SinkAnswer) (s : State) : ∃ t, flushAnswered a s = .next t := by
  cases a with
  | ack => exact ⟨_, rfl⟩
  | err => exact ⟨_, rfl⟩

theorem fillSlot_is_taken (x : Slot) (hlt : s.dec.scnt.toNat < groupSymbols s.dec.asel) :
    ∃ t, fillSlot x s = .next t := by
  obtain hroom | hlast := Nat.lt_or_eq_of_le (Nat.succ_le_of_lt hlt)
  · exact ⟨_, fillSlot_of_room hroom⟩
  · obtain ⟨t, ht, -⟩ := completeGroup_ends (s.dec.slot.setIfInBounds s.dec.scnt.toNat x)
      { s with dec := { s.dec with slot := s.dec.slot.setIfInBounds s.dec.scnt.toNat x } }
    exact ⟨t, (fillSlot_of_last hlast).trans ht⟩

theorem fillEnd_is_taken (hlt : s.dec.scnt.toNat < groupSymbols s.dec.asel) : ∃ t, fillEnd s = .next t := by
  by_cases h0 : s.dec.scnt = 0
  · exact ⟨_, fillEnd_of_no_slot h0⟩
  · exact ⟨_, fillEnd_of_partial h0 hlt⟩

theorem fillAnswered_is_taken (a : SourceAnswer) (hlt : s.dec.scnt.toNat < groupSymbols s.dec.asel) :
    ∃ t, fillAnswered a s = .next t := by
  cases a with
  | chr c =>
    simp only [fillAnswered]
    split
    · exact ⟨_, rfl⟩
    · exact fillSlot_is_taken (s := s.observe _) _ hlt
  | endOfInput => exact fillEnd_is_taken (s := s.observe _) hlt
  | err => exact ⟨_, rfl⟩

end

/-- Settles O59, command by command. -/
theorem everyCommandIsAccepted : Obligations.EveryCommandIsAccepted := by
  unfold Obligations.EveryCommandIsAccepted
  exact fun _ i hs hp => exec_issued i hs hp

/-- Settles O60: the phase says what is waited for, and the invariant that it can be taken. -/
theorem everyAnswerIsTaken : Obligations.EveryAnswerIsTaken := by
  unfold Obligations.EveryAnswerIsTaken
  intro s hs hm hsink hsource hcommand
  cases hp : s.seq.phase with
  | idle =>
    obtain ⟨w, cs, hc⟩ := List.exists_cons_of_ne_nil (hcommand hp)
    rw [step_serve_idle hp hm hc]
    exact issue_is_taken w (hs.of_regs_eq rfl rfl rfl) hp
  | encEmit =>
    obtain ⟨a, rest, ha⟩ := List.exists_cons_of_ne_nil (hsink (.inl hp))
    obtain ⟨-, -, hq, -⟩ := hs.emitting hp
    rw [step_serve_emit hp hm hq ha]
    exact emitAnswered_is_taken a hq
  | encFlush =>
    obtain ⟨a, rest, ha⟩ := List.exists_cons_of_ne_nil (hsink (.inr hp))
    rw [step_serve_flush hp hm ha]
    exact flushAnswered_is_taken a _
  | decFill =>
    obtain ⟨⟨a, rest⟩, hn⟩ := Option.ne_none_iff_exists'.mp (hsource hp)
    obtain ⟨-, -, -, -, hlt⟩ := hs.filling hp
    rw [step_serve_fill hp hm hn]
    exact fillAnswered_is_taken a hlt

/-! ### Stops (R242, log 4 to 9) -/

section
variable {s : State} {f : Fault}

/-- Where the host serves and the step stops, the host has nothing to serve (`everyAnswerIsTaken`). -/
theorem serve_fault_external (hs : Inv s) (hm : s.move = .serve) (h : step s = .fault f) : f.isInternal = false := by
  have hstop : ∀ g : Fault, step s = .fault g → g.isInternal = false → f.isInternal = false := by
    intro g hg hext
    rw [h] at hg
    cases hg
    exact hext
  cases hp : s.seq.phase with
  | idle =>
    by_cases hc : s.io.commands = []
    · exact hstop _ (step_of_no_command hp hm hc) rfl
    · obtain ⟨t, ht⟩ := everyAnswerIsTaken s hs hm (by simp [hp]) (by simp [hp]) fun _ => hc
      simp [h] at ht
  | encEmit =>
    obtain ⟨-, -, hq, -⟩ := hs.emitting hp
    by_cases ha : s.io.sinkAnswers = []
    · exact hstop _ (step_of_no_emit_answer hp hm hq ha) rfl
    · obtain ⟨t, ht⟩ := everyAnswerIsTaken s hs hm (fun _ => ha) (by simp [hp]) (by simp [hp])
      simp [h] at ht
  | encFlush =>
    by_cases ha : s.io.sinkAnswers = []
    · exact hstop _ (step_of_no_flush_answer hp hm ha) rfl
    · obtain ⟨t, ht⟩ := everyAnswerIsTaken s hs hm (fun _ => ha) (by simp [hp]) (by simp [hp])
      simp [h] at ht
  | decFill =>
    by_cases hn : s.nextSource = none
    · exact hstop _ (step_of_no_source_answer hp hm hn) rfl
    · obtain ⟨t, ht⟩ := everyAnswerIsTaken s hs hm (by simp [hp]) (fun _ => hn) (by simp [hp])
      simp [h] at ht

/-- A step from a state of the invariant stops only because of the host. -/
theorem step_fault_external (hs : Inv s) (h : step s = .fault f) : f.isInternal = false := by
  cases hm : s.move with
  | serve => exact serve_fault_external hs hm h
  | reset => simp [step_of_reset hm] at h
  | lateAnswer =>
    by_cases hw : s.io.withdrawn = 0
    · rw [step_of_lateAnswer hm, lateAnswer_of_none_withdrawn (s := s.afterMove) hw] at h
      cases h
      rfl
    · rw [step_of_lateAnswer hm, lateAnswer_of_withdrawn (s := s.afterMove) hw] at h
      cases h
  | present w =>
    by_cases hp : s.seq.phase = .idle
    · rw [step_issues hp (.inr ⟨hm, rfl⟩)] at h
      obtain ⟨t, ht⟩ := issue_is_taken w (s := s.afterMove) (hs.of_regs_eq rfl rfl rfl) hp
      cases ht.symm.trans h
    · rw [step_of_present_busy hp hm] at h
      cases h
      rfl

end

/-- Settles O58, by induction on the steps before the stop: each of them keeps the invariant. -/
theorem runsAreSafe : Obligations.RunsAreSafe := by
  unfold Obligations.RunsAreSafe
  intro s hs k
  induction k generalizing s with
  | zero => intro f h; cases h
  | succ k ih =>
    intro f h
    simp only [runSteps] at h
    split at h
    next t ht => exact ih t (everyStepKeepsTheInvariant s t hs ht) f h
    next g hg =>
      cases h
      exact step_fault_external hs hg
    next => cases h

end Sys2Proof.Machine
end

