-- ==== Sys2Proof/Proofs/Tables.lean ====
section
/-! PROOF. The alphabet tables as consecutive runs of octets (40_alphabet.md R100 to R105), and with them the closed forms of the
value lookup. -/

namespace Sys2Proof.Machine

/-! ### Looking an octet up in a run -/

@[simp] theorem octetRun_length (first n : Nat) : (octetRun first n).length = n := by simp [octetRun]

theorem ofNat_beq {m : Nat} (hm : m < 256) (c : Byte) : (BitVec.ofNat 8 m == c) = decide (c.toNat = m) := by
  rw [Bool.eq_iff_iff, beq_iff_eq, decide_eq_true_iff, ← BitVec.toNat_inj, BitVec.toNat_ofNat]
  omega

theorem octetRun_succ (first n : Nat) : octetRun first (n + 1) = octetRun first n ++ [BitVec.ofNat 8 (first + n)] := by
  simp [octetRun, List.range_succ]

theorem findIdx?_octetRun {first n : Nat} (h : first + n ≤ 256) (c : Byte) : (octetRun first n).findIdx? (· == c) =
    if first ≤ c.toNat ∧ c.toNat < first + n then some (c.toNat - first) else none := by
  induction n with
  | zero => 
    rw [if_neg (by omega)]
    rfl
  | succ n ih =>
    rw [octetRun_succ, List.findIdx?_append, ih (by omega), octetRun_length]
    simp only [List.findIdx?_cons, ofNat_beq (show first + n < 256 by omega), List.findIdx?_nil]
    grind

theorem findIdx?_alphanumeric (c : Byte) : alphanumeric.findIdx? (· == c) =
    if 0x41 ≤ c.toNat ∧ c.toNat ≤ 0x5A then some (c.toNat - 0x41)
    else if 0x61 ≤ c.toNat ∧ c.toNat ≤ 0x7A then some (c.toNat - 0x47)
    else if 0x30 ≤ c.toNat ∧ c.toNat ≤ 0x39 then some (c.toNat + 0x04)
    else none := by
  simp only [alphanumeric, List.findIdx?_append, List.length_append, octetRun_length,
    findIdx?_octetRun (show 0x41 + 26 ≤ 256 by decide), findIdx?_octetRun (show 0x61 + 26 ≤ 256 by decide),
    findIdx?_octetRun (show 0x30 + 10 ≤ 256 by decide)]
  grind

/-- The 62 alphanumeric entries and two more, which are none of them. -/
theorem findIdx?_alphanumeric_two (x y c : Byte) : (alphanumeric ++ [x, y]).findIdx? (· == c) =
    (alphanumeric.findIdx? (· == c)).or
      (if c.toNat = x.toNat then some 62 else if c.toNat = y.toNat then some 63 else none) := by
  have hlen : alphanumeric.length = 62 := by simp [alphanumeric]
  have hbeq (z : Byte) : (z == c) = decide (c.toNat = z.toNat) := by
    rw [Bool.eq_iff_iff, beq_iff_eq, decide_eq_true_iff, ← BitVec.toNat_inj, eq_comm]
  simp only [hbeq, List.findIdx?_append, List.findIdx?_cons, List.findIdx?_nil, hlen]
  grind

/-- Settles O12: each table is a few runs of octets, and in a run an octet is looked up by its distance from the first. -/
theorem valueLookupClosedForms : Obligations.ValueLookupClosedForms := by
  unfold Obligations.ValueLookupClosedForms
  intro a c
  cases a with
  | base64 =>
    simp only [val, table, findIdx?_alphanumeric_two, findIdx?_alphanumeric]
    grind
  | base64url =>
    simp only [val, table, findIdx?_alphanumeric_two, findIdx?_alphanumeric]
    grind
  | base32 =>
    simp only [val, table, List.findIdx?_append, octetRun_length, findIdx?_octetRun (show 0x41 + 26 ≤ 256 by decide),
      findIdx?_octetRun (show 0x32 + 6 ≤ 256 by decide)]
    grind
  | base32hex =>
    simp only [val, table, List.findIdx?_append, octetRun_length, findIdx?_octetRun (show 0x30 + 10 ≤ 256 by decide),
      findIdx?_octetRun (show 0x41 + 22 ≤ 256 by decide)]
    grind

theorem padOctet_notMem_table (a : Asel) : padOctet ∉ table a := by cases a <;> decide

/-- Settles O11: the tables by evaluation, the inverse laws by `val_eq_some_iff`. -/
theorem tablesAndLookups : Obligations.TablesAndLookups := by
  unfold Obligations.TablesAndLookups
  refine ⟨fun a => ⟨table_length a, table_nodup a, padOctet_notMem_table a⟩, fun a v hv => ?_,
    fun a c v hv => val_eq_some_iff.mp hv⟩
  obtain ⟨c, hc⟩ := sym_of_lt hv
  exact ⟨c, hc, val_eq_some_iff.mpr hc⟩

end Sys2Proof.Machine
end

