-- ==== Sys2Proof/Proofs/Packing.lean ====
section
/-! PROOF. Packing and padding (41_encoder.md section 2, R127 to R132): the symbol values of a group are slices of it as one number, and
the octets of a full and of a final group are table entries of those values, then `=`. -/

namespace Sys2Proof.Machine

section
variable {a : Asel}

/-! ### Symbol values are slices (R127) -/

theorem groupValue_of_byte (h : family a = .byte) (g : EncodeGroup) :
    groupValue a g = (g[0].toNat * 256 + g[1].toNat) * 256 + g[2].toNat := by
  rw [EncodeGroup.eq_bytes g]
  simp [groupValue, groupBytes, h]

theorem groupValue_of_quintet (h : family a = .quintet) (g : EncodeGroup) : groupValue a g =
    (((g[0].toNat * 256 + g[1].toNat) * 256 + g[2].toNat) * 256 + g[3].toNat) * 256 + g[4].toNat := by
  rw [EncodeGroup.eq_bytes g]
  simp [groupValue, groupBytes, h]

/-- Settles O21: both sides as numbers, by family. -/
theorem packingIsSlicing : Obligations.PackingIsSlicing := by
  unfold Obligations.PackingIsSlicing
  intro a g
  have h0 := g[0].isLt; have h1 := g[1].isLt; have h2 := g[2].isLt; have h3 := g[3].isLt; have h4 := g[4].isLt
  cases hf : family a with
  | byte =>
    simp only [pack, hf, packByte_toNat, groupSymbols, List.range_succ, List.range_zero, List.nil_append,
      List.map_cons, List.map_nil, List.cons_append, symbolValue, groupValue_of_byte hf, groupBytes, bitsPerSymbol,
      List.cons.injEq, and_true]
    omega
  | quintet =>
    simp only [pack, hf, packQuintet_toNat, groupSymbols, List.range_succ, List.range_zero, List.nil_append,
      List.map_cons, List.map_nil, List.cons_append, symbolValue, groupValue_of_quintet hf, groupBytes, bitsPerSymbol,
      List.cons.injEq, and_true]
    omega

/-! ### Octets are table entries (R131, R133) -/

/-- Symbol values that are indices of the alphabet each give their table entry. -/
theorem symOctets_getElem? {vs : List Nat} (h : ∀ v ∈ vs, v < numSymbols a) (i : Nat) :
    (symOctets a vs)[i]? = vs[i]?.bind (sym a) := by
  induction vs generalizing i with
  | nil => simp [symOctets]
  | cons v vs ih =>
    obtain ⟨c, hc⟩ := sym_of_lt (h v (by simp))
    have hcons : symOctets a (v :: vs) = c :: symOctets a vs := List.filterMap_cons_some hc
    cases i with
    | zero => simp [hcons, hc]
    | succ i => simpa [hcons] using ih (fun w hw => h w (by simp [hw])) i

theorem pack_getElem? (a : Asel) (g : EncodeGroup) {i : Nat} (hi : i < groupSymbols a) :
    (pack a g)[i]? = some (symbolValue a g i) := by
  simp [packingIsSlicing a g, List.getElem?_range hi]

theorem symbolValue_lt (a : Asel) (g : EncodeGroup) {i : Nat} (hi : i < groupSymbols a) :
    symbolValue a g i < numSymbols a :=
  pack_lt _ (List.mem_of_getElem? (pack_getElem? a g hi))

/-- Settles O22, by the symbol values (`pack_getElem?`) and their octets (`symOctets_getElem?`). -/
theorem fullGroupOctets_are_symbols : Obligations.FullGroupOctets := by
  unfold Obligations.FullGroupOctets
  refine fun a g => ⟨(fullGroupOctets_spec a g).1, fun i hi => ⟨?_, symbolValue_lt a g hi⟩⟩
  rw [fullGroupOctets, symOctets_getElem? pack_lt, pack_getElem? a g hi]
  rfl

/-! ### Padding (R128 to R130) -/

/-- REAL(k) is the ceiling of 8k / BPS (R128, R129). -/
theorem realSymbols_ceil (a : Asel) (k : Nat) : 8 * k ≤ realSymbols a k * bitsPerSymbol a ∧
    ∀ r, 8 * k ≤ r * bitsPerSymbol a → realSymbols a k ≤ r := by
  cases hf : family a with
  | byte =>
    simp only [realSymbols, bitsPerSymbol, hf]
    exact ⟨by omega, fun r hr => by omega⟩
  | quintet =>
    simp only [realSymbols, bitsPerSymbol, hf]
    exact ⟨by omega, fun r hr => by omega⟩

/-- Settles O24: the tables by evaluation, the ceiling by `realSymbols_ceil`. -/
theorem paddingTables : Obligations.PaddingTables := by
  unfold Obligations.PaddingTables
  refine ⟨fun a hf => ?_, fun a hf => ?_, realSymbols_ceil⟩
  · simp [realSymbols, bitsPerSymbol, hf]
  · simp [realSymbols, bitsPerSymbol, hf]

/-- Fewer bytes than a group holds leave room for padding. -/
theorem realSymbols_lt {k : Nat} (h : k < groupBytes a) : realSymbols a k < groupSymbols a := by
  cases hf : family a with
  | byte =>
    simp only [realSymbols, bitsPerSymbol, groupBytes, groupSymbols, hf] at h ⊢
    omega
  | quintet =>
    simp only [realSymbols, bitsPerSymbol, groupBytes, groupSymbols, hf] at h ⊢
    omega

/-- Zero-filling keeps the first k bytes and forgets the others (R130). -/
theorem zeroFill_eq_groupOf (g : EncodeGroup) (k : Nat) : zeroFill k g = groupOf (g.toList.take k) := by
  have hget (i : Nat) (hi : i < 5) : (g.toList.take k).getD i 0 = if i < k then g[i] else 0 := by
    simp [List.getD_eq_getElem?_getD, List.getElem?_take, hi]
    split <;> rfl
  rw [zeroFill, groupOf, hget 0 (by decide), hget 1 (by decide), hget 2 (by decide), hget 3 (by decide), hget 4 (by decide)]

end

/-- The real symbols of a final group, REAL(k) of them (R134). -/
def finalSymbols (a : Asel) (k : Nat) (g : EncodeGroup) : List Byte :=
  symOctets a ((pack a (zeroFill k g)).take (realSymbols a k))

theorem finalGroupOctets_eq (a : Asel) (k : Nat) (g : EncodeGroup) : finalGroupOctets a k g =
    finalSymbols a k g ++ List.replicate (groupSymbols a - realSymbols a k) padOctet := rfl

theorem mem_take_pack_lt {a : Asel} {g : EncodeGroup} {r : Nat} : ∀ v ∈ (pack a g).take r, v < numSymbols a :=
  fun v hv => pack_lt v (List.mem_of_mem_take hv)

theorem finalSymbols_length {a : Asel} {k : Nat} (hk : k ≤ groupBytes a) (g : EncodeGroup) :
    (finalSymbols a k g).length = realSymbols a k := by
  rw [finalSymbols, (symOctets_of_lt mem_take_pack_lt).1, List.length_take, pack_length]
  exact Nat.min_eq_left (realSymbols_le hk)

/-- Settles O23: the first REAL(k) octets are those of `finalSymbols`, the others the padding. -/
theorem finalGroupOctets_are_symbols_and_padding : Obligations.FinalGroupOctets := by
  unfold Obligations.FinalGroupOctets
  intro a k g hk hlt
  have hlen := finalSymbols_length hlt.le g
  have hreal := realSymbols_lt hlt
  refine ⟨hreal, (finalGroupOctets_spec a k g hlt.le).1, fun i hi => ?_, fun i hge hi => ?_⟩
  · rw [finalGroupOctets_eq, List.getElem?_append_left (hlen ▸ hi), finalSymbols, symOctets_getElem? mem_take_pack_lt,
      List.getElem?_take_of_lt hi, pack_getElem? a _ (hi.trans hreal), zeroFill_eq_groupOf]
    rfl
  · rw [finalGroupOctets_eq, List.getElem?_append_right (hlen ▸ hge), hlen, List.getElem?_replicate, if_pos (by omega)]
    rfl

end Sys2Proof.Machine
end

