-- ==== Sys2Proof/Proofs/ValidGroups.lean ====
section
/-! PROOF. The valid decode groups (42_decoder.md sections 2 and 3): a group validates when its real symbols stand before its
padding and their count is allowed; its bytes are slices of it as one number; and reconstruction undoes packing. -/

namespace Sys2Proof.Machine

/-- The first `k` of a group's slots hold real symbols and the rest of its GS slots hold PAD. -/
def Leading (a : Asel) (k : Nat) (s : DecodeGroup) : Prop :=
  (∀ i, (h : i < 8) → i < k → s[i] ≠ padSlot) ∧ ∀ i, (h : i < 8) → k ≤ i → i < groupSymbols a → s[i] = padSlot

section
variable {a : Asel} {s : DecodeGroup} {k n : Nat}

/-! ### Real symbols before padding -/

theorem Leading.realCount_eq (h : Leading a k s) (hk : k ≤ groupSymbols a) : realCount a s = k :=
  realCount_eq_iff.mpr ⟨hk, h.1, fun h8 => h.2 k h8 le_rfl⟩

/-- No real symbol after a PAD: the leading ones are all there are. -/
theorem not_symbolAfterPad_iff : ¬ SymbolAfterPad a s ↔ Leading a (realCount a s) s := by
  have hgs := (groupSymbols_bounds a).2
  constructor
  · refine fun h => ⟨fun i => slot_ne_pad_of_lt_realCount, fun i hi hle hlt => ?_⟩
    obtain heq | hgt := Nat.eq_or_lt_of_le hle
    · subst heq
      exact slot_realCount_eq_pad hi hlt
    · by_contra hne
      exact h ⟨realCount a s, i, hgt, hi, hlt, slot_realCount_eq_pad (by omega) (by omega), hne⟩
  · rintro ⟨hreal, hpad⟩ ⟨i, j, hij, hj, hjgs, hi, hne⟩
    obtain hlt | hge := Nat.lt_or_ge i (realCount a s)
    · exact hreal i (by omega) hlt hi
    · exact hne (hpad j hj (by omega) hjgs)

/-- PAD in slot 0 or 1: fewer than two leading real symbols. -/
theorem not_earlyPad_iff : ¬ EarlyPad s ↔ 2 ≤ realCount a s := by
  have hgs := (groupSymbols_bounds a).1
  rw [EarlyPad, not_or]
  constructor
  · rintro ⟨h0, h1⟩
    by_contra hlt
    have hpad := slot_realCount_eq_pad (a := a) (s := s) (by omega) (by omega)
    obtain h | h : realCount a s = 0 ∨ realCount a s = 1 := by omega
    · exact h0 (by simpa only [h] using hpad)
    · exact h1 (by simpa only [h] using hpad)
  · exact fun h => ⟨slot_ne_pad_of_lt_realCount (a := a) (by decide) (by omega),
      slot_ne_pad_of_lt_realCount (a := a) (by decide) (by omega)⟩

theorem bounds_of_mem_validCounts (h : k ∈ validCounts a) : 2 ≤ k ∧ k ≤ groupSymbols a := by
  cases hf : family a with
  | byte => rw [mem_validCounts_of_byte hf] at h; simp only [groupSymbols, hf]; omega
  | quintet => rw [mem_validCounts_of_quintet hf] at h; simp only [groupSymbols, hf]; omega

/-- A group validates with k exactly when it is k leading real symbols, k allowed (R158). -/
theorem validate_eq_ok_iff : validate a s = .ok k ↔ k ∈ validCounts a ∧ Leading a k s := by
  constructor
  · intro h
    obtain ⟨-, hv⟩ | ⟨-, -, hv⟩ | ⟨-, -, -, hv⟩ | ⟨-, hs, hk, hv⟩ := validate_cases a s
    · simp [hv] at h
    · simp [hv] at h
    · simp [hv] at h
    · obtain rfl : realCount a s = k := Except.ok.inj (hv.symm.trans h)
      exact ⟨hk, not_symbolAfterPad_iff.mp hs⟩
  · rintro ⟨hk, hl⟩
    obtain ⟨h2, hle⟩ := bounds_of_mem_validCounts hk
    obtain rfl := hl.realCount_eq hle
    obtain ⟨he, -⟩ | ⟨-, hs, -⟩ | ⟨-, -, hn, -⟩ | ⟨-, -, -, hv⟩ := validate_cases a s
    · exact absurd he (not_earlyPad_iff.mpr h2)
    · exact absurd hs (not_symbolAfterPad_iff.mpr hl)
    · exact absurd hk hn
    · exact hv

/-- A group fails on its count exactly when it is k leading real symbols, at least 2, and k is not allowed (R158). -/
theorem validate_eq_badCount_iff : validate a s = .error .badCount ↔
    ∃ k, 2 ≤ k ∧ k ≤ groupSymbols a ∧ k ∉ validCounts a ∧ Leading a k s := by
  constructor
  · intro h
    obtain ⟨-, hv⟩ | ⟨-, -, hv⟩ | ⟨he, hs, hk, -⟩ | ⟨-, -, -, hv⟩ := validate_cases a s
    · simp [hv] at h
    · simp [hv] at h
    · exact ⟨_, not_earlyPad_iff.mp he, realCount_le a s, hk, not_symbolAfterPad_iff.mp hs⟩
    · simp [hv] at h
  · rintro ⟨k, h2, hle, hk, hl⟩
    obtain rfl := hl.realCount_eq hle
    obtain ⟨he, -⟩ | ⟨-, hs, -⟩ | ⟨-, -, -, hv⟩ | ⟨-, -, hn, -⟩ := validate_cases a s
    · exact absurd he (not_earlyPad_iff.mpr h2)
    · exact absurd hs (not_symbolAfterPad_iff.mpr hl)
    · exact hv
    · exact absurd hn hk

/-! ### The counts of each family (R156, R157) -/

theorem validCounts_eq_realSymbols : k ∈ validCounts a ↔ ∃ n, 1 ≤ n ∧ n ≤ groupBytes a ∧ k = realSymbols a n := by
  cases hf : family a with
  | byte =>
    simp only [mem_validCounts_of_byte hf, groupBytes, realSymbols, bitsPerSymbol, hf]
    refine ⟨fun h => ⟨k - 1, by omega, by omega, by omega⟩, ?_⟩
    rintro ⟨n, h1, hle, rfl⟩
    omega
  | quintet =>
    simp only [mem_validCounts_of_quintet hf, groupBytes, realSymbols, bitsPerSymbol, hf]
    refine ⟨fun h => ⟨k * 5 / 8, by omega, by omega, by omega⟩, ?_⟩
    rintro ⟨n, h1, hle, rfl⟩
    omega

/-- REAL(n) symbols give n bytes back. -/
theorem numBytes_realSymbols (a : Asel) (n : Nat) : numBytes a (realSymbols a n) = n := by
  cases hf : family a with
  | byte => simp only [numBytes, realSymbols, bitsPerSymbol, hf]; omega
  | quintet => simp only [numBytes, realSymbols, bitsPerSymbol, hf]; omega

theorem valid_byte_group_iff (hf : family a = .byte) : (∃ k, validate a s = .ok k) ↔
    s[0] ≠ padSlot ∧ s[1] ≠ padSlot ∧ (s[2] = padSlot → s[3] = padSlot) := by
  simp only [validate_eq_ok_iff, mem_validCounts_of_byte hf, Leading, forall_slots, groupSymbols, hf]
  constructor
  · rintro ⟨k, rfl | rfl | rfl, hreal, hpad⟩ <;> simp_all
  · rintro ⟨h0, h1, h23⟩
    by_cases h2 : s[2] = padSlot
    · exact ⟨2, by simp, by simp [h0, h1], by simp [h2, h23 h2]⟩
    · by_cases h3 : s[3] = padSlot
      · exact ⟨3, by simp, by simp [h0, h1, h2], by simp [h3]⟩
      · exact ⟨4, by simp, by simp [h0, h1, h2, h3], by simp⟩

end

/-- Settles O41: validity is `validate_eq_ok_iff`, and the counts of each family are a matter of its numbers. -/
theorem validGroupsOfEachFamily : Obligations.ValidGroupsOfEachFamily := by
  unfold Obligations.ValidGroupsOfEachFamily
  refine ⟨fun a s hf => ⟨valid_byte_group_iff hf, fun h => ?_⟩, fun a s hf => ?_, fun a hf => ?_, fun a hf => ?_,
    fun a k => validCounts_eq_realSymbols, fun a n _ _ => numBytes_realSymbols a n⟩
  · obtain ⟨k, h2, hle, hk, -⟩ := validate_eq_badCount_iff.mp h
    simp only [mem_validCounts_of_byte hf, groupSymbols, hf] at hle hk
    omega
  · have hl (k : Nat) : Leading a k s ↔
        (∀ i, (h : i < 8) → i < k → s[i] ≠ 0x40) ∧ ∀ i, (h : i < 8) → k ≤ i → s[i] = 0x40 := by
      simp only [Leading, groupSymbols, hf]
      exact and_congr_right fun _ => ⟨fun h i hi hk => h i hi hk hi, fun h i hi hk _ => h i hi hk⟩
    simp only [← hl]
    refine ⟨fun k => by simp [validate_eq_ok_iff, validCounts, hf], ?_⟩
    rw [validate_eq_badCount_iff]
    simp only [mem_validCounts_of_quintet hf, groupSymbols, hf]
    constructor
    · rintro ⟨k, h2, hle, hk, hlead⟩
      obtain rfl | rfl : k = 3 ∨ k = 6 := by omega
      · exact .inl hlead
      · exact .inr hlead
    · rintro (hlead | hlead)
      · exact ⟨3, by decide, by decide, by decide, hlead⟩
      · exact ⟨6, by decide, by decide, by decide, hlead⟩
  · simp [numBytes, bitsPerSymbol, hf]
  · simp [numBytes, bitsPerSymbol, hf]


/-! ### Reconstruction (R170 to R175) -/

theorem byteValue_toNat (a : Asel) (s : DecodeGroup) (k j : Nat) : (byteValue a s k j).toNat =
    slotsValue a s k / 2 ^ (groupBytes a * 8 - 8 * (j + 1)) % 256 := by
  rw [byteValue, BitVec.toNat_ofNat]

theorem DecodeGroup.toList_eq (s : DecodeGroup) : s.toList = [s[0], s[1], s[2], s[3], s[4], s[5], s[6], s[7]] := by
  rw [DecodeGroup.eq_slots s]
  rfl

/-- Settles O42: both sides as numbers, for each valid count. -/
theorem reconstructionIsSlicing : Obligations.ReconstructionIsSlicing := by
  unfold Obligations.ReconstructionIsSlicing
  intro a s k hk hreal
  simp only [forall_slots, numSymbols] at hreal
  apply bytes_eq_of_toNat
  simp only [List.map_map, Function.comp_def, byteValue_toNat, slotsValue, DecodeGroup.toList_eq]
  cases hf : family a with
  | byte =>
    simp only [unpack_toNat_of_byte hf]
    obtain rfl | rfl | rfl := (mem_validCounts_of_byte hf).mp hk
    all_goals
      simp [numBytes, bitsPerSymbol, groupBytes, hf, List.range_succ] at hreal ⊢
      omega
  | quintet =>
    simp only [unpack_toNat_of_quintet hf]
    obtain rfl | rfl | rfl | rfl | rfl := (mem_validCounts_of_quintet hf).mp hk
    all_goals
      simp [numBytes, bitsPerSymbol, groupBytes, hf, List.range_succ] at hreal ⊢
      omega

/-- The slots of a packed group: its first REAL(n) symbol values and then PAD. -/
def PackedSlots (a : Asel) (g : EncodeGroup) (n : Nat) (s : DecodeGroup) : Prop :=
  ∀ i, (h : i < 8) → i < groupSymbols a → some s[i] =
    if i < realSymbols a n then ((pack a (zeroFill n g))[i]?).map (BitVec.ofNat 7) else some 0x40

section
variable {a : Asel} {g : EncodeGroup} {n : Nat} {s : DecodeGroup}

theorem PackedSlots.symbol (h : PackedSlots a g n s) (hn : n ≤ groupBytes a) {i : Nat} (hi : i < 8)
    (hlt : i < realSymbols a n) : (pack a (zeroFill n g))[i]? = some s[i].toNat := by
  have higs : i < groupSymbols a := hlt.trans_le (realSymbols_le hn)
  have hs := h i hi higs
  have hv := symbolValue_lt a (zeroFill n g) higs
  have hns : numSymbols a ≤ 64 := by cases a <;> decide
  rw [if_pos hlt, pack_getElem? a _ higs, Option.map_some, Option.some.injEq] at hs
  rw [pack_getElem? a _ higs, hs, BitVec.toNat_ofNat, Nat.mod_eq_of_lt (by omega)]

theorem PackedSlots.leading (h : PackedSlots a g n s) (hn : n ≤ groupBytes a) : Leading a (realSymbols a n) s := by
  refine ⟨fun i hi hlt hpad => ?_, fun i hi hge hlt => ?_⟩
  · have hv := pack_lt _ (List.mem_of_getElem? (h.symbol hn hi hlt))
    have hns : numSymbols a ≤ 64 := by cases a <;> decide
    have h64 : s[i].toNat = 64 := congrArg BitVec.toNat hpad
    omega
  · have hs := h i hi hlt
    rwa [if_neg (Nat.not_lt.mpr hge), Option.some.injEq] at hs

theorem PackedSlots.validate_eq (h : PackedSlots a g n s) (hpos : 1 ≤ n) (hn : n ≤ groupBytes a) :
    validate a s = .ok (realSymbols a n) :=
  validate_eq_ok_iff.mpr ⟨validCounts_eq_realSymbols.mpr ⟨n, hpos, hn, rfl⟩, h.leading hn⟩

theorem EncodeGroup.toList_eq (g : EncodeGroup) : g.toList = [g[0], g[1], g[2], g[3], g[4]] := by
  rw [EncodeGroup.eq_bytes g]
  rfl

theorem PackedSlots.unpack_byte (h : PackedSlots a g n s) (hpos : 1 ≤ n) (hn : n ≤ groupBytes a)
    (hf : family a = .byte) : unpack a s (realSymbols a n) = g.toList.take n := by
  have hsym : ∀ i, (hi : i < 8) → i < realSymbols a n → (pack a (zeroFill n g))[i]? = some s[i].toNat :=
    fun i => h.symbol hn
  have h0 := g[0].isLt; have h1 := g[1].isLt; have h2 := g[2].isLt
  apply bytes_eq_of_toNat
  rw [unpack_toNat_of_byte hf, numBytes_realSymbols, EncodeGroup.toList_eq]
  simp only [pack, hf, packByte_toNat, forall_slots, groupBytes, realSymbols, bitsPerSymbol] at hsym hn
  interval_cases n
  all_goals
    simp [zeroFill] at hsym ⊢
    simp only [← hsym]
    clear hsym
    omega

theorem PackedSlots.unpack_quintet (h : PackedSlots a g n s) (hpos : 1 ≤ n) (hn : n ≤ groupBytes a)
    (hf : family a = .quintet) : unpack a s (realSymbols a n) = g.toList.take n := by
  have hsym : ∀ i, (hi : i < 8) → i < realSymbols a n → (pack a (zeroFill n g))[i]? = some s[i].toNat :=
    fun i => h.symbol hn
  have h0 := g[0].isLt; have h1 := g[1].isLt; have h2 := g[2].isLt; have h3 := g[3].isLt; have h4 := g[4].isLt
  apply bytes_eq_of_toNat
  rw [unpack_toNat_of_quintet hf, numBytes_realSymbols, EncodeGroup.toList_eq]
  simp only [pack, hf, packQuintet_toNat, forall_slots, groupBytes, realSymbols, bitsPerSymbol] at hsym hn
  interval_cases n
  all_goals
    simp [zeroFill] at hsym ⊢
    simp only [← hsym]
    clear hsym
    omega

theorem PackedSlots.unpack_eq (h : PackedSlots a g n s) (hpos : 1 ≤ n) (hn : n ≤ groupBytes a) :
    unpack a s (realSymbols a n) = g.toList.take n := by
  cases hf : family a with
  | byte => exact h.unpack_byte hpos hn hf
  | quintet => exact h.unpack_quintet hpos hn hf

end

/-- Settles O43, by the two lemmas on `PackedSlots`. -/
theorem reconstructionUndoesPacking : Obligations.ReconstructionUndoesPacking := by
  unfold Obligations.ReconstructionUndoesPacking
  exact fun a g n s hpos hn h => ⟨PackedSlots.validate_eq h hpos hn, PackedSlots.unpack_eq h hpos hn⟩

end Sys2Proof.Machine
end

