-- ==== Sys2Proof/Proofs/Emission.lean ====
section
/-! PROOF. The steps that write and flush (41_encoder.md section 4, R135 to R137) and whole emissions: with every answer Ack the
octets in order, then the flush, then the response; and the first Err ends it. -/

namespace Sys2Proof.Machine

section
variable {s : State} {c : Byte} {q : List Byte} {rest : List SinkAnswer}

/-! ### One step of an emission, by the answer and what is left to do (R135) -/

theorem State.request_of_encEmit (hp : s.seq.phase = .encEmit) (hq : s.seq.emitq = c :: q) :
    s.request = some (.sinkWrite c) := by
  simp [State.request, hp, hq]

theorem step_emit (hp : s.seq.phase = .encEmit) (hm : s.move = .serve) (hq : s.seq.emitq = c :: q) {a : SinkAnswer}
    (ha : s.io.sinkAnswers = a :: rest) :
    step s = emitAnswered a { s with io := { s.io with sinkAnswers := rest, schedule := s.io.schedule.tail } } :=
  step_serve_emit hp hm (by simp [hq]) ha

theorem step_emit_more (hp : s.seq.phase = .encEmit) (hm : s.move = .serve) (hq : s.seq.emitq = c :: q)
    (ha : s.io.sinkAnswers = .ack :: rest) (hne : q ≠ []) :
    step s = .next { s.sinkAnswered (.sinkWrite c .ack) rest with seq := { s.seq with emitq := q } } := by
  rw [step_emit hp hm hq ha]
  simp only [emitAnswered, hq, if_pos hne]
  rfl

theorem step_emit_last_to_flush (hp : s.seq.phase = .encEmit) (hm : s.move = .serve) (hq : s.seq.emitq = [c])
    (ha : s.io.sinkAnswers = .ack :: rest) (hf : s.seq.flush = true) :
    step s = .next { s.sinkAnswered (.sinkWrite c .ack) rest with
      seq := { s.seq with emitq := [], phase := .encFlush } } := by
  rw [step_emit hp hm hq ha]
  simp only [emitAnswered, hq, State.observe_seq, hf, ne_eq, not_true_eq_false, if_false, if_true]
  rfl

theorem step_emit_last (hp : s.seq.phase = .encEmit) (hm : s.move = .serve) (hq : s.seq.emitq = [c])
    (ha : s.io.sinkAnswers = .ack :: rest) (hf : s.seq.flush = false) :
    step s = .next ({ s.sinkAnswered (.sinkWrite c .ack) rest with
      seq := { s.seq with emitq := [], phase := .idle } }.observe (.response 0x0000)) := by
  rw [step_emit hp hm hq ha]
  simp only [emitAnswered, hq, State.observe_seq, hf, ne_eq, not_true_eq_false, if_false, Bool.false_eq_true]
  rfl

theorem step_emit_err (hp : s.seq.phase = .encEmit) (hm : s.move = .serve) (hq : s.seq.emitq = c :: q)
    (ha : s.io.sinkAnswers = .err :: rest) :
    step s = .next ({ s.sinkAnswered (.sinkWrite c .err) rest with
      enc := { s.enc with mode := .failed }
      seq := { s.seq with emitq := [], phase := .idle } }.observe (.response 0x4200)) := by
  rw [step_emit hp hm hq ha]
  simp only [emitAnswered, hq]
  rfl

/-! ### The flush step (R136) -/

theorem State.request_of_encFlush (hp : s.seq.phase = .encFlush) : s.request = some .sinkFlush := by
  simp [State.request, hp]

theorem step_flush_ack (hp : s.seq.phase = .encFlush) (hm : s.move = .serve) (ha : s.io.sinkAnswers = .ack :: rest) :
    step s = .next ({ s.sinkAnswered (.sinkFlush .ack) rest with
      seq := { s.seq with phase := .idle } }.observe (.response 0x0000)) :=
  step_serve_flush hp hm ha

theorem step_flush_err (hp : s.seq.phase = .encFlush) (hm : s.move = .serve) (ha : s.io.sinkAnswers = .err :: rest) :
    step s = .next ({ s.sinkAnswered (.sinkFlush .err) rest with
      enc := { s.enc with mode := .failed }
      seq := { s.seq with phase := .idle } }.observe (.response 0x4300)) :=
  step_serve_flush hp hm ha

end

/-- Settles O25, by one lemma for each outcome. -/
theorem emitStepWritesTheHead : Obligations.EmitStepWritesTheHead := by
  unfold Obligations.EmitStepWritesTheHead
  refine fun s c q rest hp hm hq => ⟨State.request_of_encEmit hp hq, step_emit_more hp hm hq, fun ha hn hf => ?_,
    fun ha hn hf => ?_, step_emit_err hp hm hq⟩
  · exact step_emit_last_to_flush hp hm (hn ▸ hq) ha hf
  · exact step_emit_last hp hm (hn ▸ hq) ha hf

/-- Settles O26, by one lemma for each outcome. -/
theorem flushStepEndsTheCommand : Obligations.FlushStepEndsTheCommand := by
  unfold Obligations.FlushStepEndsTheCommand
  exact fun s rest hp hm => ⟨State.request_of_encFlush hp, step_flush_ack hp hm, step_flush_err hp hm⟩

/-! ### Many steps of an emission -/

/-- The state of an emission after `j` acknowledged writes. -/
def State.written (s : State) (j : Nat) (rest : List SinkAnswer) : State :=
  { s with
    seq := { s.seq with emitq := s.seq.emitq.drop j }
    io := { s.io with sinkAnswers := rest, trace := s.io.trace ++ (s.seq.emitq.take j).map (.sinkWrite · .ack) } }

section
variable {s : State} {j : Nat} {rest : List SinkAnswer}

theorem runSteps_one {t : State} (h : step s = .next t) : runSteps 1 s = .next t := runSteps_succ_of_step h 0

/-- A run of more than no steps has a first one. -/
theorem runSteps_succ_next {t : State} {k : Nat} (h : runSteps (k + 1) s = .next t) :
    ∃ u, step s = .next u ∧ runSteps k u = .next t := by
  simp only [runSteps] at h
  split at h
  next u hu => exact ⟨u, hu, h⟩
  next => cases h
  next => cases h

/-- As long as octets are left, each Ack takes one step (R135). -/
theorem runSteps_written (hp : s.seq.phase = .encEmit) (hsch : s.io.schedule = []) (hj : j < s.seq.emitq.length)
    (ha : s.io.sinkAnswers = List.replicate j .ack ++ rest) : runSteps j s = .next (s.written j rest) := by
  induction j generalizing rest with
  | zero => simp [State.written, ← ha.trans (List.nil_append rest)]
  | succ j ih =>
    rw [List.replicate_succ', List.append_assoc] at ha
    rw [runSteps_add j 1 (ih (by omega) ha)]
    have hq := List.drop_eq_getElem_cons (show j < s.seq.emitq.length by omega)
    have hne : s.seq.emitq.drop (j + 1) ≠ [] := by simpa using hj
    refine (runSteps_one (step_emit_more (s := s.written j (.ack :: rest)) hp (move_of_schedule_nil hsch) hq rfl hne)).trans ?_
    simp only [State.sinkAnswered, State.written, hsch, List.tail_nil, List.append_assoc,
      List.take_succ_eq_append_getElem (show j < s.seq.emitq.length by omega), List.map_append, List.map_cons, List.map_nil]

/-- The last octet, when only it is left. -/
theorem State.written_emitq {q : List Byte} {c : Byte} (hq : s.seq.emitq = q ++ [c]) :
    (s.written q.length rest).seq.emitq = [c] := by
  simp [State.written, hq]

/-- An emission without a flush: the writes and then the response. -/
theorem runSteps_emission (hp : s.seq.phase = .encEmit) (hq : s.seq.emitq ≠ []) (hsch : s.io.schedule = [])
    (hf : s.seq.flush = false) (ha : s.io.sinkAnswers = List.replicate s.seq.emitq.length .ack ++ rest) :
    runSteps s.seq.emitq.length s = .next { s with
      seq := { s.seq with emitq := [], phase := .idle }
      io := { s.io with
        sinkAnswers := rest
        trace := s.io.trace ++ s.seq.emitq.map (.sinkWrite · .ack) ++ [.response 0x0000] } } := by
  obtain ⟨q, c, hqc⟩ := (List.eq_nil_or_concat' _).resolve_left hq
  rw [hqc, List.length_append, List.length_singleton, List.replicate_succ', List.append_assoc] at ha
  have hrun := runSteps_written hp hsch (by simp [hqc]) ha
  have hlast := step_emit_last (s := s.written q.length ([.ack] ++ rest)) hp (move_of_schedule_nil hsch)
    (State.written_emitq hqc) rfl hf
  rw [hqc, List.length_append, List.length_singleton, runSteps_add _ _ hrun, runSteps_one hlast]
  simp [State.observe, State.sinkAnswered, State.written, hqc, hsch]

/-- An emission with a flush: the writes, the flush and then the response. -/
theorem runSteps_emission_flush (hp : s.seq.phase = .encEmit) (hq : s.seq.emitq ≠ []) (hsch : s.io.schedule = [])
    (hf : s.seq.flush = true) (ha : s.io.sinkAnswers = List.replicate (s.seq.emitq.length + 1) .ack ++ rest) :
    runSteps (s.seq.emitq.length + 1) s = .next { s with
      seq := { s.seq with emitq := [], phase := .idle }
      io := { s.io with
        sinkAnswers := rest
        trace := s.io.trace ++ s.seq.emitq.map (.sinkWrite · .ack) ++ [.sinkFlush .ack] ++ [.response 0x0000] } } := by
  obtain ⟨q, c, hqc⟩ := (List.eq_nil_or_concat' _).resolve_left hq
  rw [hqc, List.length_append, List.length_singleton, List.replicate_succ', List.replicate_succ', List.append_assoc,
    List.append_assoc] at ha
  have hrun := runSteps_written hp hsch (by simp [hqc]) ha
  have hlast := step_emit_last_to_flush (s := s.written q.length ([.ack] ++ ([.ack] ++ rest))) hp
    (move_of_schedule_nil hsch) (State.written_emitq hqc) rfl hf
  have hflush := step_flush_ack (rest := rest) (s := { (s.written q.length ([.ack] ++ ([.ack] ++ rest))).sinkAnswered
    (.sinkWrite c .ack) ([.ack] ++ rest) with seq := { s.seq with emitq := [], phase := .encFlush } }) rfl
    (move_of_schedule_nil (by simp [State.sinkAnswered, State.written, hsch])) rfl
  rw [hqc, List.length_append, List.length_singleton, Nat.add_assoc, runSteps_add _ _ hrun, runSteps_succ_of_step hlast]
  refine (runSteps_one hflush).trans ?_
  simp [State.observe, State.sinkAnswered, State.written, hqc, hsch]

end

/-- Settles O27, without a flush (`runSteps_emission`) and with one (`runSteps_emission_flush`). -/
theorem transactionsThenFlushThenResponse : Obligations.TransactionsThenFlushThenResponse := by
  unfold Obligations.TransactionsThenFlushThenResponse
  intro s n rest hp hq hsch hn ha
  cases hf : s.seq.flush with
  | false =>
    obtain rfl : n = s.seq.emitq.length := by simpa [hf] using hn
    simpa using runSteps_emission hp hq hsch hf ha
  | true =>
    obtain rfl : n = s.seq.emitq.length + 1 := by simpa [hf] using hn
    simpa using runSteps_emission_flush hp hq hsch hf ha

/-! ### What writes add to what is observed -/

@[simp] theorem Event.emitted?_comp_ack : (Event.emitted? ∘ fun c => Event.sinkWrite c .ack) = some := rfl
@[simp] theorem Event.response?_comp_ack : (Event.response? ∘ fun c => Event.sinkWrite c .ack) = fun _ => none := rfl

/-- Settles O28: j writes leave the next octet at the head (`runSteps_written`), and the Err ends the emission there. -/
theorem emissionStopsAtTheFirstError : Obligations.EmissionStopsAtTheFirstError := by
  unfold Obligations.EmissionStopsAtTheFirstError
  intro s j rest hp hsch hj ha
  have hrun := runSteps_written hp hsch hj ha
  have herr := step_emit_err (s := s.written j (.err :: rest)) hp (move_of_schedule_nil hsch)
    (List.drop_eq_getElem_cons hj) rfl
  refine ⟨_, (runSteps_add j 1 hrun).trans (runSteps_one herr), ?_, ?_, rfl, rfl, rfl, rfl⟩
  · simp [-List.map_take, State.emitted, State.observe, State.sinkAnswered, State.written, List.filterMap_cons]
  · simp [-List.map_take, State.responses, State.observe, State.sinkAnswered, State.written, List.filterMap_cons]

end Sys2Proof.Machine
end

