-- ==== Sys2Proof/Proofs/Groups.lean ====
section
/-! PROOF. Lists cut into complete groups and what is left over, and with them the whole encoding of a byte sequence
(41_encoder.md section 5, R139, R142). -/

namespace Sys2Proof.Machine

section
variable {α : Type} {n : Nat} {l m g : List α}

/-! ### Complete groups and the rest -/

theorem completeGroups_of_lt (h : l.length < n) : completeGroups n l = [] := by
  simp [completeGroups, Nat.div_eq_of_lt h]

theorem leftover_of_lt (h : l.length < n) : leftover n l = l := by
  simp [leftover, Nat.div_eq_of_lt h]

theorem length_div_group_append (hn : 0 < n) (hg : g.length = n) : (g ++ l).length / n = l.length / n + 1 := by
  rw [List.length_append, hg, Nat.add_comm, Nat.add_div_right _ hn]

theorem drop_group_append (hg : g.length = n) (i : Nat) : (g ++ l).drop ((i + 1) * n) = l.drop (i * n) := by
  rw [Nat.succ_mul, Nat.add_comm, ← hg, List.drop_length_add_append]

/-- A group in front is the first of the complete groups. -/
theorem completeGroups_group_append (hn : 0 < n) (hg : g.length = n) :
    completeGroups n (g ++ l) = g :: completeGroups n l := by
  simp only [completeGroups, length_div_group_append hn hg, List.range_succ_eq_map, List.map_cons, List.map_map,
    Function.comp_def, drop_group_append hg, Nat.zero_mul, List.drop_zero]
  rw [List.take_left' hg]

theorem leftover_group_append (hn : 0 < n) (hg : g.length = n) : leftover n (g ++ l) = leftover n l := by
  simp only [leftover, length_div_group_append hn hg, drop_group_append hg]

theorem leftover_group (hn : 0 < n) (hg : g.length = n) : leftover n g = [] := by
  have h := leftover_group_append (l := []) hn hg
  rwa [List.append_nil, leftover_of_lt (l := []) hn] at h

theorem leftover_length (n : Nat) (l : List α) : (leftover n l).length = l.length % n := by
  rw [leftover, List.length_drop, Nat.mod_eq_sub_div_mul]

/-- A list is shorter than a group, or it is a group and a list. -/
theorem group_induction {P : List α → Prop} (hn : 0 < n) (short : ∀ l, l.length < n → P l)
    (group : ∀ g l, g.length = n → P l → P (g ++ l)) (l : List α) : P l := by
  obtain hlt | hge := Nat.lt_or_ge l.length n
  · exact short l hlt
  · rw [← List.take_append_drop n l]
    have hlen : (l.take n).length = n := List.length_take_of_le hge
    have : (l.drop n).length < l.length := by rw [List.length_drop]; omega
    exact group _ _ hlen (group_induction hn short group _)
  termination_by l.length

/-- The complete groups of a list that goes on: those of its first part, then those of what that leaves over. -/
theorem completeGroups_append (hn : 0 < n) (l m : List α) :
    completeGroups n (l ++ m) = completeGroups n l ++ completeGroups n (leftover n l ++ m) := by
  induction l using group_induction hn with
  | short l hlt => rw [completeGroups_of_lt hlt, leftover_of_lt hlt, List.nil_append]
  | group g l hg ih =>
    rw [List.append_assoc, completeGroups_group_append hn hg, completeGroups_group_append hn hg,
      leftover_group_append hn hg, ih, List.cons_append]

theorem leftover_append (hn : 0 < n) (l m : List α) : leftover n (l ++ m) = leftover n (leftover n l ++ m) := by
  induction l using group_induction hn with
  | short l hlt => rw [leftover_of_lt hlt]
  | group g l hg ih => rw [List.append_assoc, leftover_group_append hn hg, leftover_group_append hn hg, ih]

theorem leftover_leftover (hn : 0 < n) (l : List α) : leftover n (leftover n l) = leftover n l := by
  have h := leftover_append hn l []
  rw [List.append_nil, List.append_nil] at h
  exact h.symm

end

/-! ### The encoding of a byte sequence, group by group -/

section
variable {a : Asel} {bs cs g : List Byte}

theorem encodedGroups_of_lt (h : bs.length < groupBytes a) : encodedGroups a bs = [] := by
  rw [encodedGroups, completeGroups_of_lt h, List.flatMap_nil]

theorem encodedGroups_append (a : Asel) (bs cs : List Byte) :
    encodedGroups a (bs ++ cs) = encodedGroups a bs ++ encodedGroups a (leftover (groupBytes a) bs ++ cs) := by
  rw [encodedGroups, completeGroups_append (groupBytes_pos a), List.flatMap_append, encodedGroups, encodedGroups]

theorem encodedGroups_group_append (hg : g.length = groupBytes a) :
    encodedGroups a (g ++ bs) = fullGroupOctets a (groupOf g) ++ encodedGroups a bs := by
  simp only [encodedGroups, completeGroups_group_append (groupBytes_pos a) hg, List.flatMap_cons]

theorem encodedGroups_group (hg : g.length = groupBytes a) : encodedGroups a g = fullGroupOctets a (groupOf g) := by
  have h := encodedGroups_group_append (bs := []) hg
  rwa [List.append_nil, encodedGroups_of_lt (bs := []) (groupBytes_pos a), List.append_nil] at h

theorem encodedTail_group_append (hg : g.length = groupBytes a) : encodedTail a (g ++ bs) = encodedTail a bs := by
  rw [encodedTail, leftover_group_append (groupBytes_pos a) hg]
  rfl

theorem encoded_group_append (hg : g.length = groupBytes a) :
    encoded a (g ++ bs) = fullGroupOctets a (groupOf g) ++ encoded a bs := by
  rw [encoded, encodedGroups_group_append hg, encodedTail_group_append hg, List.append_assoc, encoded]

theorem encodedTail_of_lt (h : bs.length < groupBytes a) (hne : bs ≠ []) :
    encodedTail a bs = finalGroupOctets a bs.length (groupOf bs) := by
  rw [encodedTail, leftover_of_lt h]
  split
  · exact absurd rfl hne
  · rfl

theorem encodedTail_nil (a : Asel) : encodedTail a [] = [] := by
  rw [encodedTail, leftover_of_lt (groupBytes_pos a)]

theorem encoded_of_lt (h : bs.length < groupBytes a) (hne : bs ≠ []) :
    encoded a bs = finalGroupOctets a bs.length (groupOf bs) := by
  rw [encoded, encodedGroups_of_lt h, encodedTail_of_lt h hne, List.nil_append]

theorem encoded_nil (a : Asel) : encoded a [] = [] := by
  rw [encoded, encodedGroups_of_lt (bs := []) (groupBytes_pos a), encodedTail_nil, List.nil_append]

/-- The tail of an encoding depends on what is left over only. -/
theorem encodedTail_leftover (a : Asel) (bs : List Byte) :
    encodedTail a (leftover (groupBytes a) bs) = encodedTail a bs := by
  rw [encodedTail, leftover_leftover (groupBytes_pos a)]
  rfl

/-- A group counts by its first GB bytes only. -/
theorem pack_groupOf_take (a : Asel) (v : EncodeGroup) : pack a (groupOf (v.toList.take (groupBytes a))) = pack a v := by
  rw [← zeroFill_eq_groupOf]
  cases hf : family a with
  | byte => simp [pack, zeroFill, groupBytes, hf]
  | quintet => simp [pack, zeroFill, groupBytes, hf]

theorem fullGroupOctets_groupOf_take (a : Asel) (v : EncodeGroup) :
    fullGroupOctets a (groupOf (v.toList.take (groupBytes a))) = fullGroupOctets a v := by
  rw [fullGroupOctets, pack_groupOf_take, fullGroupOctets]

theorem zeroFill_zeroFill (k : Nat) (v : EncodeGroup) : zeroFill k (zeroFill k v) = zeroFill k v := by
  simp +contextual [zeroFill]

/-- A final group counts by its first k bytes only (R130). -/
theorem finalGroupOctets_groupOf_take (a : Asel) {k : Nat} (v : EncodeGroup) :
    finalGroupOctets a k (groupOf (v.toList.take k)) = finalGroupOctets a k v := by
  rw [← zeroFill_eq_groupOf, finalGroupOctets, zeroFill_zeroFill, finalGroupOctets]

/-- A full group is a final group of GB bytes, with no padding. -/
theorem fullGroupOctets_eq_final (a : Asel) (v : EncodeGroup) :
    fullGroupOctets a v = finalGroupOctets a (groupBytes a) v := by
  have hreal : realSymbols a (groupBytes a) = groupSymbols a := by cases a <;> rfl
  have htake : (pack a v).take (groupSymbols a) = pack a v := List.take_of_length_le (pack_length a v).le
  rw [finalGroupOctets, zeroFill_eq_groupOf, pack_groupOf_take, hreal, htake, Nat.sub_self, List.replicate_zero,
    List.append_nil, fullGroupOctets]

theorem groupOf_toList_take {l : List Byte} (h : l.length ≤ 5) : (groupOf l).toList.take l.length = l := by
  have hget (i : Nat) (hi : i < 5) : (groupOf l)[i] = l.getD i 0 := by interval_cases i <;> rfl
  refine List.ext_getElem (by simpa using h) fun i hi hi' => ?_
  rw [List.getElem_take, Vector.getElem_toList, hget i (by omega), List.getD_eq_getElem _ _ hi']

/-! ### How many octets, and how many of them are padding (R139) -/

theorem encodedGroups_length (a : Asel) (bs : List Byte) :
    (encodedGroups a bs).length = bs.length / groupBytes a * groupSymbols a := by
  induction bs using group_induction (groupBytes_pos a) with
  | short l hlt => rw [encodedGroups_of_lt hlt, Nat.div_eq_of_lt hlt, Nat.zero_mul, List.length_nil]
  | group g l hg ih =>
    rw [encodedGroups_group_append hg, List.length_append, ih, (fullGroupOctets_spec a _).1,
      length_div_group_append (groupBytes_pos a) hg, Nat.succ_mul, Nat.add_comm]

theorem encoded_length (a : Asel) (bs : List Byte) :
    (encoded a bs).length = (bs.length + (groupBytes a - 1)) / groupBytes a * groupSymbols a := by
  have hpos := groupBytes_pos a
  induction bs using group_induction hpos with
  | short l hlt =>
    cases l with
    | nil => rw [encoded_nil, List.length_nil, Nat.zero_add, Nat.div_eq_of_lt (by omega), Nat.zero_mul]
    | cons b l =>
      have hone : ((b :: l).length + (groupBytes a - 1)) / groupBytes a = 1 :=
        Nat.div_eq_of_lt_le (by simp; omega) (by omega)
      rw [encoded_of_lt hlt (by simp), (finalGroupOctets_spec a _ _ hlt.le).1, hone, Nat.one_mul]
  | group g l hg ih =>
    have hdiv : ((g ++ l).length + (groupBytes a - 1)) / groupBytes a =
        (l.length + (groupBytes a - 1)) / groupBytes a + 1 := by
      rw [← Nat.add_div_right _ hpos, List.length_append, hg]
      congr 1
      omega
    rw [encoded_group_append hg, List.length_append, ih, (fullGroupOctets_spec a _).1, hdiv, Nat.succ_mul, Nat.add_comm]

/-- No symbol is `=` (R103). -/
theorem count_padOctet_of_table {cs : List Byte} (h : ∀ c ∈ cs, c ∈ table a) : cs.count padOctet = 0 :=
  List.count_eq_zero.mpr fun hp => padOctet_notMem_table a (h _ hp)

theorem finalGroupOctets_count (a : Asel) (k : Nat) (v : EncodeGroup) :
    (finalGroupOctets a k v).count padOctet = groupSymbols a - realSymbols a k := by
  rw [finalGroupOctets_eq, List.count_append, List.count_replicate_self, finalSymbols,
    count_padOctet_of_table (symOctets_of_lt mem_take_pack_lt).2, Nat.zero_add]

theorem encoded_count (a : Asel) (bs : List Byte) : (encoded a bs).count padOctet =
    if bs.length % groupBytes a = 0 then 0 else groupSymbols a - realSymbols a (bs.length % groupBytes a) := by
  induction bs using group_induction (groupBytes_pos a) with
  | short l hlt =>
    rw [Nat.mod_eq_of_lt hlt]
    cases l with
    | nil => rw [encoded_nil]; rfl
    | cons b l =>
      rw [encoded_of_lt hlt (by simp), finalGroupOctets_count, if_neg (by simp)]
  | group g l hg ih =>
    rw [encoded_group_append hg, List.count_append, ih, count_padOctet_of_table (fullGroupOctets_spec a _).2, Nat.zero_add,
      List.length_append, hg, Nat.add_mod_left]

end
end Sys2Proof.Machine
end

