-- ==== Sys2Proof/Proofs/EncoderRuns.lean ====
section
/-! PROOF. Whole runs of the encoder with every answer Ack (41_encoder.md section 5, R138, R139, R142): ENC_PUTs write the symbols of the
complete groups and hold the rest, ENC_FINAL writes its padded symbols and flushes, and so a session writes its encoding. -/

namespace Sys2Proof.Machine

/-! ### The bytes the encoder holds (R24, R25) -/

section
variable {e : EncoderRegs}

theorem EncoderRegs.held_length (h : e.cnt.toNat < groupBytes e.asel) : e.held.length = e.cnt.toNat := by
  have hgb := (groupBytes_bounds e.asel).2
  rw [held, List.length_take, Vector.length_toList]
  omega

theorem EncoderRegs.held_of_cnt_zero (h : e.cnt = 0) : e.held = [] := by
  simp [held, h]

/-- Writing a byte past the held ones appends it to them. -/
theorem take_setIfInBounds_append {α : Type} {n : Nat} {v : Vector α n} {k : Nat} (hk : k < n) (b : α) :
    (v.setIfInBounds k b).toList.take (k + 1) = v.toList.take k ++ [b] := by
  have hlen : k < (v.setIfInBounds k b).toList.length := by simpa using hk
  rw [List.take_succ_eq_append_getElem hlen]
  simp [List.take_set, List.set_eq_of_length_le]

end

/-! ### A command between commands -/

section
variable {s t u : State} {i : Instr} {cs : List Word}

/-- A quiet block runs the command the host presents next. -/
theorem Quiet.step_command (hq : Quiet s) (hc : s.io.commands = encode i :: cs) :
    step s = exec i { s with io := { s.io with commands := cs } } := by
  have htail : s.io.schedule.tail = s.io.schedule := by simp [hq.2]
  rw [step_issues hq.1 (.inl ⟨move_of_schedule_nil hq.2, hc⟩), issue_of_decode_ok (decode_encode i), htail]

end

/-! ### A run of ENC_PUTs (R133, R142) -/

/-- From `s` to `t` the encoder has taken the bytes `xs`; the host's commands and sink answers still to come are `cs` and
`rest`. -/
structure PutsTaken (s t : State) (xs : List Byte) (cs : List Word) (rest : List SinkAnswer) : Prop where
  quiet : Quiet t
  commands : t.io.commands = cs
  sinkAnswers : t.io.sinkAnswers = rest
  emitted : t.emitted = s.emitted ++ encodedGroups s.enc.asel (s.enc.held ++ xs)
  responses : t.responses = s.responses ++ List.replicate xs.length 0x0000
  mode : t.enc.mode = .ready
  asel : t.enc.asel = s.enc.asel
  dec : t.dec = s.dec
  room : t.enc.cnt.toNat < groupBytes t.enc.asel
  held : t.enc.held = leftover (groupBytes s.enc.asel) (s.enc.held ++ xs)

section
variable {s t u : State} {b : Byte} {xs ys : List Byte} {cs ds : List Word} {rest rest' : List SinkAnswer}

theorem PutsTaken.trans (h : PutsTaken s t xs cs rest) (h' : PutsTaken t u ys ds rest') :
    PutsTaken s u (xs ++ ys) ds rest' where
  quiet := h'.quiet
  commands := h'.commands
  sinkAnswers := h'.sinkAnswers
  emitted := by
    rw [h'.emitted, h.emitted, h.asel, h.held, ← List.append_assoc s.enc.held,
      encodedGroups_append _ (s.enc.held ++ xs), List.append_assoc]
  responses := by
    rw [h'.responses, h.responses, List.length_append, List.replicate_add, List.append_assoc]
  mode := h'.mode
  asel := h'.asel.trans h.asel
  dec := h'.dec.trans h.dec
  room := h'.room
  held := by
    rw [h'.held, h.asel, h.held, ← List.append_assoc s.enc.held, ← leftover_append (groupBytes_pos _)]

/-- An encoder with room for another byte, between commands. -/
theorem PutsTaken.nil (hq : Quiet s) (hm : s.enc.mode = .ready) (hlt : s.enc.cnt.toNat < groupBytes s.enc.asel)
    (hc : s.io.commands = cs) (ha : s.io.sinkAnswers = rest) : PutsTaken s s [] cs rest := by
  have hheld : (s.enc.held ++ []).length < groupBytes s.enc.asel := by
    rw [List.append_nil, EncoderRegs.held_length hlt]
    exact hlt
  exact ⟨hq, hc, ha, by rw [encodedGroups_of_lt hheld, List.append_nil], (List.append_nil _).symm, hm, rfl, rfl, hlt,
    by rw [leftover_of_lt hheld, List.append_nil]⟩

/-- A byte that leaves room takes one step. -/
theorem run_encPut_of_room (hq : Quiet s) (hm : s.enc.mode = .ready)
    (hroom : s.enc.cnt.toNat + 1 < groupBytes s.enc.asel) (hc : s.io.commands = encode (.encPut b) :: cs)
    (ha : s.io.sinkAnswers = rest) : ∃ t, runSteps 1 s = .next t ∧ PutsTaken s t [b] cs rest := by
  have hgb := (groupBytes_bounds s.enc.asel).2
  have hcnt : (s.enc.cnt + 1).toNat = s.enc.cnt.toNat + 1 := by
    rw [BitVec.toNat_add]
    exact Nat.mod_eq_of_lt (by simp; omega)
  have hheld : (s.enc.held ++ [b]).length < groupBytes s.enc.asel := by
    rw [List.length_append, EncoderRegs.held_length (by omega)]
    exact hroom
  refine ⟨_, runSteps_one ((hq.step_command hc).trans (exec_encPut_of_room hm hroom)), hq, rfl, ha, ?_, ?_, hm, rfl, rfl,
    hcnt.trans_lt hroom, ?_⟩
  · rw [encodedGroups_of_lt hheld, List.append_nil]
    exact State.respond_emitted _ _
  · exact State.respond_responses _ _
  · rw [leftover_of_lt hheld]
    simp only [EncoderRegs.held, State.respond_enc, hcnt]
    exact take_setIfInBounds_append (by omega) b

/-- The byte that fills the group takes its writes, too. -/
theorem run_encPut_of_full (hq : Quiet s) (hm : s.enc.mode = .ready)
    (hfull : s.enc.cnt.toNat + 1 = groupBytes s.enc.asel) (hc : s.io.commands = encode (.encPut b) :: cs)
    (ha : s.io.sinkAnswers = List.replicate (groupSymbols s.enc.asel) .ack ++ rest) :
    ∃ k t, runSteps k s = .next t ∧ PutsTaken s t [b] cs rest := by
  have hgb := (groupBytes_bounds s.enc.asel).2
  have hheld : (s.enc.held ++ [b]).length = groupBytes s.enc.asel := by
    rw [List.length_append, EncoderRegs.held_length (by omega)]
    exact hfull
  obtain ⟨hlen, -⟩ := fullGroupOctets_spec s.enc.asel (s.enc.grp.setIfInBounds s.enc.cnt.toNat b)
  have hgroup : fullGroupOctets s.enc.asel (s.enc.grp.setIfInBounds s.enc.cnt.toNat b) =
      encodedGroups s.enc.asel (s.enc.held ++ [b]) := by
    rw [encodedGroups_group hheld, ← fullGroupOctets_groupOf_take, ← hfull, take_setIfInBounds_append (by omega)]
    rfl
  have hissue := (hq.step_command hc).trans (exec_encPut_of_full hm hfull)
  have hemit := runSteps_emission (s := { s with
      enc := { s.enc with grp := s.enc.grp.setIfInBounds s.enc.cnt.toNat b, cnt := 0 }
      seq := { phase := .encEmit, flush := false,
               emitq := fullGroupOctets s.enc.asel (s.enc.grp.setIfInBounds s.enc.cnt.toNat b) }
      io := { s.io with commands := cs } }) (rest := rest) rfl
    (List.ne_nil_of_length_pos (hlen ▸ groupSymbols_pos _)) hq.2 rfl (by rw [hlen]; exact ha)
  refine ⟨_, _, (runSteps_succ_of_step hissue _).trans hemit, ⟨rfl, hq.2⟩, rfl, rfl, ?_, ?_, hm, rfl, rfl,
    groupBytes_pos _, ?_⟩
  · simp [State.emitted, hgroup]
  · simp [State.responses]
  · exact (leftover_group (groupBytes_pos _) hheld).symm

theorem run_encPut (hq : Quiet s) (hm : s.enc.mode = .ready) (hlt : s.enc.cnt.toNat < groupBytes s.enc.asel)
    (hc : s.io.commands = encode (.encPut b) :: cs)
    (ha : s.io.sinkAnswers = List.replicate (encodedGroups s.enc.asel (s.enc.held ++ [b])).length .ack ++ rest) :
    ∃ k t, runSteps k s = .next t ∧ PutsTaken s t [b] cs rest := by
  have hlen : (s.enc.held ++ [b]).length = s.enc.cnt.toNat + 1 := by
    rw [List.length_append, EncoderRegs.held_length hlt, List.length_singleton]
  obtain hroom | hfull := Nat.lt_or_eq_of_le (Nat.succ_le_of_lt hlt)
  · rw [encodedGroups_of_lt (hlen.trans_lt hroom)] at ha
    exact ⟨1, run_encPut_of_room hq hm hroom hc ha⟩
  · rw [encodedGroups_group (hlen.trans hfull), (fullGroupOctets_spec _ _).1] at ha
    exact run_encPut_of_full hq hm hfull hc ha

/-- ENC_PUTs one after another. -/
theorem run_encPuts (hq : Quiet s) (hm : s.enc.mode = .ready) (hlt : s.enc.cnt.toNat < groupBytes s.enc.asel)
    (hc : s.io.commands = xs.map (fun b => encode (.encPut b)) ++ cs)
    (ha : s.io.sinkAnswers = List.replicate (encodedGroups s.enc.asel (s.enc.held ++ xs)).length .ack ++ rest) :
    ∃ k t, runSteps k s = .next t ∧ PutsTaken s t xs cs rest := by
  induction xs generalizing s with
  | nil =>
    refine ⟨0, s, rfl, .nil hq hm hlt hc ?_⟩
    rw [ha, List.append_nil, encodedGroups_of_lt (EncoderRegs.held_length hlt ▸ hlt)]
    rfl
  | cons b xs ih =>
    rw [List.append_cons s.enc.held b xs, encodedGroups_append, List.length_append, List.replicate_add,
      List.append_assoc] at ha
    obtain ⟨k, t, hrun, ht⟩ := run_encPut hq hm hlt hc ha
    have hanswers := ht.sinkAnswers
    rw [← ht.held, ← ht.asel] at hanswers
    obtain ⟨k', u, hrun', hu⟩ := ih ht.quiet ht.mode ht.room ht.commands hanswers
    exact ⟨k + k', u, (runSteps_add k k' hrun).trans hrun', ht.trans hu⟩

end

/-- Settles O30, by `run_encPuts`; the counts are the lengths of `encodedGroups_length` and `leftover_length`. -/
theorem encoderWritesTheCompleteGroups : Obligations.EncoderWritesTheCompleteGroups := by
  unfold Obligations.EncoderWritesTheCompleteGroups
  intro s xs cs n rest hq hm hlt hc hn ha
  have hlen : (s.enc.held ++ xs).length = s.enc.cnt.toNat + xs.length := by
    rw [List.length_append, EncoderRegs.held_length hlt]
  rw [← hlen, ← encodedGroups_length] at hn
  obtain ⟨k, t, hrun, ht⟩ := run_encPuts hq hm hlt hc (hn ▸ ha)
  refine ⟨k, t, hrun, ht.quiet, ht.commands, ht.sinkAnswers, ht.emitted, ht.responses, ht.mode, ht.asel, ht.dec, ?_,
    ht.held⟩
  rw [← EncoderRegs.held_length ht.room, ht.held, leftover_length, hlen]

/-! ### ENC_FINAL (R134, R138) -/

/-- The state in which an ENC_FINAL that was acknowledged throughout leaves the block. -/
def State.finalized (s : State) (cs : List Word) (rest : List SinkAnswer) : State :=
  { s with
    enc := { s.enc with cnt := 0 }
    seq := { phase := .idle, flush := true, emitq := [] }
    io := { s.io with
      commands := cs
      sinkAnswers := rest
      trace := s.io.trace ++ (encodedTail s.enc.asel s.enc.held).map (.sinkWrite · .ack) ++ [.sinkFlush .ack] ++
        [.response 0x0000] } }

section
variable {s : State} {cs : List Word} {rest : List SinkAnswer}

theorem Quiet.finalized (hq : Quiet s) : Quiet (s.finalized cs rest) := ⟨rfl, hq.2⟩

/-- With no byte held ENC_FINAL only flushes. -/
theorem run_encFinal_of_none_held (hq : Quiet s) (hm : s.enc.mode = .ready) (h0 : s.enc.cnt = 0)
    (hc : s.io.commands = encode .encFinal :: cs) (ha : s.io.sinkAnswers = .ack :: rest) :
    runSteps 2 s = .next (s.finalized cs rest) := by
  have hissue := (hq.step_command hc).trans (exec_encFinal_of_none_held hm h0)
  have hflush := step_flush_ack (rest := rest) (s := { s with
      enc := { s.enc with cnt := 0 }
      seq := { phase := .encFlush, flush := true, emitq := [] }
      io := { s.io with commands := cs } }) rfl (move_of_schedule_nil hq.2) ha
  rw [runSteps_succ_of_step hissue, runSteps_one hflush]
  simp [State.finalized, State.sinkAnswered, State.observe, EncoderRegs.held_of_cnt_zero h0, encodedTail_nil, hq.2]

/-- The octets ENC_FINAL takes for the bytes held are the tail of an encoding that leaves over just them. -/
theorem encodedTail_of_held (h0 : s.enc.cnt ≠ 0) (hlt : s.enc.cnt.toNat < groupBytes s.enc.asel) :
    encodedTail s.enc.asel s.enc.held = finalGroupOctets s.enc.asel s.enc.cnt.toNat s.enc.grp := by
  have hlen := EncoderRegs.held_length hlt
  have hpos : 0 < s.enc.held.length := hlen ▸ Nat.pos_of_ne_zero fun h => h0 (BitVec.eq_of_toNat_eq h)
  rw [encodedTail_of_lt (hlen.trans_lt hlt) (List.ne_nil_of_length_pos hpos), hlen]
  exact finalGroupOctets_groupOf_take _ _

theorem run_encFinal_of_held (hq : Quiet s) (hm : s.enc.mode = .ready) (h0 : s.enc.cnt ≠ 0)
    (hlt : s.enc.cnt.toNat < groupBytes s.enc.asel) (hc : s.io.commands = encode .encFinal :: cs)
    (ha : s.io.sinkAnswers = List.replicate ((encodedTail s.enc.asel s.enc.held).length + 1) .ack ++ rest) :
    runSteps ((encodedTail s.enc.asel s.enc.held).length + 2) s = .next (s.finalized cs rest) := by
  have htail := encodedTail_of_held h0 hlt
  have hne : encodedTail s.enc.asel s.enc.held ≠ [] := by
    rw [htail]
    exact List.ne_nil_of_length_pos ((finalGroupOctets_spec _ _ _ hlt.le).1 ▸ groupSymbols_pos _)
  have hissue := (hq.step_command hc).trans (exec_encFinal_of_held hm h0 hlt.le)
  rw [← htail] at hissue
  have hemit := runSteps_emission_flush (s := { s with
      enc := { s.enc with cnt := 0 }
      seq := { phase := .encEmit, flush := true, emitq := encodedTail s.enc.asel s.enc.held }
      io := { s.io with commands := cs } }) (rest := rest) rfl hne hq.2 rfl ha
  exact (runSteps_succ_of_step hissue _).trans hemit

/-- ENC_FINAL writes the padded symbols of the bytes held, flushes, and answers OK. -/
theorem run_encFinal (hq : Quiet s) (hm : s.enc.mode = .ready) (hlt : s.enc.cnt.toNat < groupBytes s.enc.asel)
    (hc : s.io.commands = encode .encFinal :: cs)
    (ha : s.io.sinkAnswers = List.replicate ((encodedTail s.enc.asel s.enc.held).length + 1) .ack ++ rest) :
    runSteps ((encodedTail s.enc.asel s.enc.held).length + 2) s = .next (s.finalized cs rest) := by
  by_cases h0 : s.enc.cnt = 0
  · rw [EncoderRegs.held_of_cnt_zero h0, encodedTail_nil] at ha ⊢
    exact run_encFinal_of_none_held hq hm h0 hc ha
  · exact run_encFinal_of_held hq hm h0 hlt hc ha

/-- How many octets ENC_FINAL writes. -/
theorem encodedTail_held_length (hlt : s.enc.cnt.toNat < groupBytes s.enc.asel) :
    (encodedTail s.enc.asel s.enc.held).length = if s.enc.cnt = 0 then 0 else groupSymbols s.enc.asel := by
  split
  case isTrue h0 => rw [EncoderRegs.held_of_cnt_zero h0, encodedTail_nil, List.length_nil]
  case isFalse h0 => rw [encodedTail_of_held h0 hlt, (finalGroupOctets_spec _ _ _ hlt.le).1]

@[simp] theorem State.finalized_responses : (s.finalized cs rest).responses = s.responses ++ [0x0000] := by
  simp [State.responses, State.finalized, List.filterMap_cons]

@[simp] theorem State.finalized_emitted :
    (s.finalized cs rest).emitted = s.emitted ++ encodedTail s.enc.asel s.enc.held := by
  simp [State.emitted, State.finalized]

end

/-- Settles O29: the first ENC_FINAL leaves no byte held, so the second is that of `run_encFinal_of_none_held`. -/
theorem finalizeTwiceOnlyFlushes : Obligations.FinalizeTwiceOnlyFlushes := by
  unfold Obligations.FinalizeTwiceOnlyFlushes
  intro s n rest hq hm hlt hc ha hn
  have hn' : n = (encodedTail s.enc.asel s.enc.held).length + 1 := by
    rw [hn, encodedTail_held_length hlt]
    split
    · rfl
    · rfl
  have hq' : Quiet (s.finalized [encode .encFinal] (.ack :: rest)) := hq.finalized
  refine ⟨_, _, _, run_encFinal hq hm hlt hc (hn' ▸ ha), rfl, hq', by simp,
    run_encFinal_of_none_held (rest := rest) hq' hm rfl rfl rfl, hq'.finalized, ?_, ?_, rfl⟩
  · simp [State.finalized, EncoderRegs.held, encodedTail_nil]
  · rw [State.finalized_emitted, EncoderRegs.held_of_cnt_zero rfl, encodedTail_nil, List.append_nil]

/-! ### A whole session -/

/-- The state in which an ENC_INIT leaves the block (R121). -/
def State.encStarted (s : State) (a : Asel) (cs : List Word) : State :=
  ({ s with
    enc := { s.enc with asel := a, cnt := 0, mode := .ready }
    io := { s.io with commands := cs } } : State).respond .ok

theorem Quiet.step_encInit {s : State} {a : Asel} {cs : List Word} (hq : Quiet s)
    (hc : s.io.commands = encode (.encInit a) :: cs) : step s = .next (s.encStarted a cs) :=
  (hq.step_command hc).trans (exec_encInit a _)

/-- A session of ENC_INIT, one ENC_PUT for each byte and ENC_FINAL, acknowledged throughout, writes the encoding of the
bytes. -/
theorem run_session {s : State} {a : Asel} {bs : List Byte} {rest : List SinkAnswer} (hq : Quiet s)
    (hc : s.io.commands = encode (.encInit a) :: (bs.map (fun b => encode (.encPut b)) ++ [encode .encFinal]))
    (ha : s.io.sinkAnswers = List.replicate ((encoded a bs).length + 1) .ack ++ rest) :
    ∃ k t, runSteps k s = .next t ∧ Quiet t ∧ t.io.commands = [] ∧ t.io.sinkAnswers = rest ∧
      t.emitted = s.emitted ++ encoded a bs := by
  rw [encoded, List.length_append, Nat.add_assoc, List.replicate_add, List.append_assoc] at ha
  obtain ⟨k, t, hputs, ht⟩ := run_encPuts (xs := bs) (cs := [encode .encFinal])
    (s := s.encStarted a (bs.map (fun b => encode (.encPut b)) ++ [encode .encFinal])) hq rfl (groupBytes_pos a) rfl ha
  have hheld : t.enc.held = leftover (groupBytes a) bs := ht.held
  have hanswers := ht.sinkAnswers
  rw [← encodedTail_leftover, ← hheld, ← show t.enc.asel = a from ht.asel] at hanswers
  have hfinal := run_encFinal ht.quiet ht.mode ht.room ht.commands hanswers
  refine ⟨_, _, (runSteps_succ_of_step (hq.step_encInit hc) _).trans ((runSteps_add k _ hputs).trans hfinal), ht.quiet.finalized, rfl,
    rfl, ?_⟩
  rw [State.finalized_emitted, ht.emitted, State.encStarted, State.respond_emitted, List.append_assoc, hheld,
    show t.enc.asel = a from ht.asel, encodedTail_leftover]
  rfl

/-- Settles O31: a session writes `encoded a bs` (`run_session`), whose length and padding are `encoded_length` and
`encoded_count`. -/
theorem paddingLengthLaw : Obligations.PaddingLengthLaw := by
  unfold Obligations.PaddingLengthLaw
  intro s a bs n rest hq hc hn ha
  rw [← encoded_length] at hn
  have ha' : s.io.sinkAnswers = List.replicate ((encoded a bs).length + 1) .ack ++ rest := by
    rw [ha, hn, List.replicate_succ', List.append_assoc]
    rfl
  obtain ⟨k, t, hrun, hqt, hct, hat, hemit⟩ := run_session hq hc ha'
  exact ⟨k, t, encoded a bs, hrun, hqt, hct, hat, hemit, hn.symm, encoded_count a bs⟩

end Sys2Proof.Machine
end

