-- ==== Sys2Proof/Proofs/EncoderPrefix.lean ====
section
/-! PROOF. An encoder session whatever the sink answers (41_encoder.md R137, R142): at every point of a run the octets emitted are the
first ones of the session's encoding. -/

namespace Sys2Proof.Machine

/-- The commands of a session that are still to come: the bytes left to put, and ENC_FINAL. -/
def putsAndFinal (ys : List Byte) : List Word := ys.map (fun b => encode (.encPut b)) ++ [encode .encFinal]

/-- Where a session of `a` and `bs` stands that has emitted `p` so far: before its ENC_INIT; between two ENC_PUTs with the
bytes `xs` put and `ys` to come; in the writes of an ENC_PUT; in its ENC_FINAL or after it; FAILED before its ENC_FINAL. -/
inductive SessionAt (a : Asel) (bs p : List Byte) (s : State) : Prop
  | starting (hq : Quiet s) (hc : s.io.commands = encode (.encInit a) :: putsAndFinal bs) (hp : p = [])
  | holding (xs ys : List Byte) (hbs : bs = xs ++ ys) (hq : Quiet s) (hc : s.io.commands = putsAndFinal ys)
      (hm : s.enc.mode = .ready) (ha : s.enc.asel = a) (hroom : s.enc.cnt.toNat < groupBytes a)
      (hheld : s.enc.held = leftover (groupBytes a) xs) (hp : p = encodedGroups a xs)
  | writing (xs ys : List Byte) (hbs : bs = xs ++ ys) (hphase : s.seq.phase = .encEmit) (hsch : s.io.schedule = [])
      (hc : s.io.commands = putsAndFinal ys) (hf : s.seq.flush = false) (hm : s.enc.mode = .ready) (ha : s.enc.asel = a)
      (h0 : s.enc.cnt = 0) (hheld : leftover (groupBytes a) xs = []) (hp : p ++ s.seq.emitq = encodedGroups a xs)
  | closing (hphase : s.seq.phase ≠ .decFill) (hsch : s.io.schedule = []) (hc : s.io.commands = [])
      (hp : p ++ s.seq.emitq <+: encoded a bs)
  | failed (ys : List Byte) (hq : Quiet s) (hc : s.io.commands = putsAndFinal ys) (hm : s.enc.mode = .failed)
      (hempty : s.seq.emitq = []) (hp : p <+: encoded a bs)

/-- An outcome is one next state at most. -/
theorem next_unique {o : Outcome} {t u : State} (ht : o = .next t) (hu : o = .next u) : u = t :=
  Host.Outcome.next.inj (hu.symm.trans ht)

section
variable {a : Asel} {bs p xs ys : List Byte} {s t : State}

theorem encodedGroups_prefix_encoded (a : Asel) (xs ys : List Byte) : encodedGroups a xs <+: encoded a (xs ++ ys) := by
  rw [encoded, encodedGroups_append, List.append_assoc]
  exact List.prefix_append _ _

/-- At every point what was emitted begins the session's encoding. -/
theorem SessionAt.emitted_is_start (h : SessionAt a bs p s) : p <+: encoded a bs := by
  cases h with
  | starting hq hc hp => exact hp ▸ List.nil_prefix
  | holding xs ys hbs hq hc hm ha hroom hheld hp =>
    rw [hp, hbs]
    exact encodedGroups_prefix_encoded a xs ys
  | writing xs ys hbs hphase hsch hc hf hm ha h0 hheld hp =>
    rw [hbs]
    exact (List.prefix_append _ _).trans (hp ▸ encodedGroups_prefix_encoded a xs ys)
  | closing hphase hsch hc hp => exact (List.prefix_append _ _).trans hp
  | failed ys hq hc hm hempty hp => exact hp

/-- A session goes on from `s` with `p` emitted to `t`: it has emitted more or nothing, and stands somewhere again. -/
def SessionGoesOn (a : Asel) (bs p : List Byte) (s t : State) : Prop :=
  ∃ w, t.emitted = s.emitted ++ w ∧ SessionAt a bs (p ++ w) t

theorem SessionGoesOn.silent (he : t.emitted = s.emitted) (h : SessionAt a bs p t) : SessionGoesOn a bs p s t :=
  ⟨[], by rw [he, List.append_nil], by rwa [List.append_nil]⟩

/-! ### ENC_PUT and ENC_FINAL between two commands -/

/-- ENC_PUT in a READY session: the byte is held, or its group is to be written. -/
theorem session_put {b : Byte} (hbs : bs = xs ++ b :: ys) (hq : Quiet s)
    (hc : s.io.commands = encode (.encPut b) :: putsAndFinal ys) (hm : s.enc.mode = .ready) (ha : s.enc.asel = a)
    (hroom : s.enc.cnt.toNat < groupBytes a) (hheld : s.enc.held = leftover (groupBytes a) xs)
    (hp : p = encodedGroups a xs) (h : step s = .next t) : SessionGoesOn a bs p s t := by
  subst ha
  have hgb := (groupBytes_bounds s.enc.asel).2
  have hlen : (s.enc.held ++ [b]).length = s.enc.cnt.toNat + 1 := by
    rw [List.length_append, EncoderRegs.held_length hroom, List.length_singleton]
  have hgroups : encodedGroups s.enc.asel (xs ++ [b]) = p ++ encodedGroups s.enc.asel (s.enc.held ++ [b]) := by
    rw [encodedGroups_append, hp, hheld]
  have hleft : leftover (groupBytes s.enc.asel) (xs ++ [b]) = leftover (groupBytes s.enc.asel) (s.enc.held ++ [b]) := by
    rw [leftover_append (groupBytes_pos _), hheld]
  have htake := take_setIfInBounds_append (v := s.enc.grp) (show s.enc.cnt.toNat < 5 by omega) b
  rw [List.append_cons] at hbs
  obtain hmore | hfull := Nat.lt_or_eq_of_le (Nat.succ_le_of_lt hroom)
  · obtain rfl := next_unique h ((hq.step_command hc).trans (exec_encPut_of_room hm hmore))
    have hcnt : (s.enc.cnt + 1).toNat = s.enc.cnt.toNat + 1 := by
      rw [BitVec.toNat_add]
      exact Nat.mod_eq_of_lt (by simp; omega)
    refine .silent (State.respond_emitted _ _) (.holding (xs ++ [b]) ys hbs hq rfl hm rfl (hcnt.trans_lt hmore) ?_ ?_)
    · rw [hleft, leftover_of_lt (hlen.trans_lt hmore)]
      simp only [EncoderRegs.held, State.respond_enc, hcnt]
      exact htake
    · rw [hgroups, encodedGroups_of_lt (hlen.trans_lt hmore), List.append_nil]
  · obtain rfl := next_unique h ((hq.step_command hc).trans (exec_encPut_of_full hm hfull))
    refine .silent rfl (.writing (xs ++ [b]) ys hbs rfl hq.2 rfl rfl hm rfl rfl ?_ ?_)
    · rw [hleft, leftover_group (groupBytes_pos _) (hlen.trans hfull)]
    · rw [hgroups, encodedGroups_group (hlen.trans hfull), ← fullGroupOctets_groupOf_take, ← hfull, htake]
      rfl

/-- ENC_FINAL in a READY session: the octets it queues complete the encoding. -/
theorem session_final (hq : Quiet s) (hc : s.io.commands = [encode .encFinal]) (hm : s.enc.mode = .ready)
    (ha : s.enc.asel = a) (hroom : s.enc.cnt.toNat < groupBytes a) (hheld : s.enc.held = leftover (groupBytes a) bs)
    (hp : p = encodedGroups a bs) (h : step s = .next t) : SessionGoesOn a bs p s t := by
  subst ha
  have hlen := EncoderRegs.held_length hroom
  have hencoded : encoded s.enc.asel bs = p ++ encodedTail s.enc.asel s.enc.held := by
    rw [encoded, hp, hheld, encodedTail_leftover]
  by_cases h0 : s.enc.cnt = 0
  · obtain rfl := next_unique h ((hq.step_command hc).trans (exec_encFinal_of_none_held hm h0))
    refine .silent rfl (.closing (by simp) hq.2 rfl ?_)
    rw [hencoded, EncoderRegs.held_of_cnt_zero h0, encodedTail_nil]
  · obtain rfl := next_unique h ((hq.step_command hc).trans (exec_encFinal_of_held hm h0 hroom.le))
    refine .silent rfl (.closing (by simp) hq.2 rfl ?_)
    rw [hencoded, encodedTail_of_held h0 hroom]

/-- A FAILED encoder refuses the commands that are left. -/
theorem session_refused (hq : Quiet s) (hc : s.io.commands = putsAndFinal ys) (hm : s.enc.mode = .failed)
    (hempty : s.seq.emitq = []) (hp : p <+: encoded a bs) (h : step s = .next t) : SessionGoesOn a bs p s t := by
  have hne : s.enc.mode ≠ .ready := by simp [hm]
  cases ys with
  | nil =>
    obtain rfl := next_unique h ((hq.step_command hc).trans (exec_encFinal_of_not_ready hne))
    refine .silent (State.respond_emitted _ _) (.closing (hq.1.trans_ne (by decide)) hq.2 rfl ?_)
    change p ++ s.seq.emitq <+: _
    rwa [hempty, List.append_nil]
  | cons b ys =>
    obtain rfl := next_unique h ((hq.step_command hc).trans (exec_encPut_of_not_ready hne))
    exact .silent (State.respond_emitted _ _) (.failed ys hq rfl hm hempty hp)

/-! ### Writes and the flush -/

/-- With nothing in its schedule the host answers the outstanding sink request. -/
theorem step_emit_cases (hp : s.seq.phase = .encEmit) (hsch : s.io.schedule = []) (h : step s = .next t) :
    ∃ x rest, emitAnswered x { s with io := { s.io with sinkAnswers := rest } } = .next t := by
  obtain ⟨hm, -⟩ | ⟨hm, -⟩ | ⟨hi, -⟩ | ⟨-, -, x, rest, -, h⟩ | ⟨-, hf, -⟩ | ⟨-, hf, -⟩ := step_cases h
  · simp [State.move, hsch] at hm
  · simp [State.move, hsch] at hm
  · simp [hp] at hi
  · have htail : s.io.schedule.tail = s.io.schedule := by simp [hsch]
    rw [htail] at h
    exact ⟨x, rest, h⟩
  · simp [hp] at hf
  · simp [hp] at hf

theorem step_flush_cases (hp : s.seq.phase = .encFlush) (hsch : s.io.schedule = []) (h : step s = .next t) :
    ∃ x rest, flushAnswered x { s with io := { s.io with sinkAnswers := rest } } = .next t := by
  obtain ⟨hm, -⟩ | ⟨hm, -⟩ | ⟨hi, -⟩ | ⟨-, hf, -⟩ | ⟨-, -, x, rest, -, h⟩ | ⟨-, hf, -⟩ := step_cases h
  · simp [State.move, hsch] at hm
  · simp [State.move, hsch] at hm
  · simp [hp] at hi
  · simp [hp] at hf
  · have htail : s.io.schedule.tail = s.io.schedule := by simp [hsch]
    rw [htail] at h
    exact ⟨x, rest, h⟩
  · simp [hp] at hf

/-- A write of an ENC_PUT: the octet is emitted, or the session is FAILED with what it has emitted. -/
theorem session_write (hbs : bs = xs ++ ys) (hphase : s.seq.phase = .encEmit) (hsch : s.io.schedule = [])
    (hc : s.io.commands = putsAndFinal ys) (hf : s.seq.flush = false) (hm : s.enc.mode = .ready) (ha : s.enc.asel = a)
    (h0 : s.enc.cnt = 0) (hheld : leftover (groupBytes a) xs = []) (hp : p ++ s.seq.emitq = encodedGroups a xs)
    (h : step s = .next t) : SessionGoesOn a bs p s t := by
  obtain ⟨x, rest, h⟩ := step_emit_cases hphase hsch h
  obtain ⟨c, q, hq, ⟨-, -, rfl⟩ | ⟨-, -, hf', -⟩ | ⟨-, rfl, -, rfl⟩ | ⟨-, rfl⟩⟩ := emitAnswered_next h
  · rw [show s.seq.emitq = c :: q from hq, List.append_cons] at hp
    exact ⟨[c], State.observe_emitted _ _, .writing xs ys hbs hphase hsch hc hf hm ha h0 hheld hp⟩
  · exact absurd (hf.symm.trans hf') (by decide)
  · rw [show s.seq.emitq = [c] from hq] at hp
    refine ⟨[c], ?_, .holding xs ys hbs ⟨rfl, hsch⟩ hc hm ha ?_ ?_ hp⟩
    · exact (State.finish_emitted _ _).trans (State.observe_emitted _ _)
    · simp [h0, groupBytes_pos]
    · rw [hheld]
      exact EncoderRegs.held_of_cnt_zero h0
  · refine ⟨[], ?_, .failed ys ⟨rfl, hsch⟩ hc rfl rfl ?_⟩
    · exact (State.fail_emitted _ _ _).trans (State.observe_emitted _ _)
    · rw [List.append_nil, hbs]
      exact (List.prefix_append _ _).trans (hp ▸ encodedGroups_prefix_encoded a xs ys)

/-- ENC_FINAL and its end: in whatever way, no octet comes that was not in the queue. -/
theorem session_close (hphase : s.seq.phase ≠ .decFill) (hsch : s.io.schedule = []) (hc : s.io.commands = [])
    (hp : p ++ s.seq.emitq <+: encoded a bs) (h : step s = .next t) : SessionGoesOn a bs p s t := by
  cases hph : s.seq.phase with
  | idle => cases (step_of_no_command hph (move_of_schedule_nil hsch) hc).symm.trans h
  | decFill => exact absurd hph hphase
  | encEmit =>
    obtain ⟨x, rest, h⟩ := step_emit_cases hph hsch h
    obtain ⟨c, q, hq, h⟩ := emitAnswered_next h
    rw [show s.seq.emitq = c :: q from hq, List.append_cons] at hp
    obtain ⟨-, -, rfl⟩ | ⟨-, rfl, -, rfl⟩ | ⟨-, rfl, -, rfl⟩ | ⟨-, rfl⟩ := h
    · exact ⟨[c], State.observe_emitted _ _, .closing hphase hsch hc hp⟩
    · exact ⟨[c], State.observe_emitted _ _, .closing (by simp) hsch hc hp⟩
    · exact ⟨[c], (State.finish_emitted _ _).trans (State.observe_emitted _ _), .closing (by simp) hsch hc hp⟩
    · refine ⟨[], (State.fail_emitted _ _ _).trans (State.observe_emitted _ _), .closing (by simp) hsch hc ?_⟩
      rw [List.append_assoc] at hp
      simpa using (List.prefix_append _ _).trans hp
  | encFlush =>
    obtain ⟨x, rest, h⟩ := step_flush_cases hph hsch h
    obtain ⟨-, rfl⟩ | ⟨-, rfl⟩ := flushAnswered_next h
    · exact ⟨[], (State.finish_emitted _ _).trans (State.observe_emitted _ _),
        .closing (by simp) hsch hc (by rwa [List.append_nil])⟩
    · exact ⟨[], (State.fail_emitted _ _ _).trans (State.observe_emitted _ _),
        .closing (by simp) hsch hc (by rwa [List.append_nil])⟩

/-! ### The whole run -/

/-- Every step of a session leaves it a session. -/
theorem SessionAt.step (hs : SessionAt a bs p s) (h : step s = .next t) : SessionGoesOn a bs p s t := by
  cases hs with
  | starting hq hc hp =>
    obtain rfl := next_unique h (hq.step_encInit hc)
    exact .silent (State.respond_emitted _ _) (.holding [] bs rfl hq rfl rfl rfl (groupBytes_pos a)
      (leftover_of_lt (l := []) (groupBytes_pos a)).symm (hp.trans (encodedGroups_of_lt (bs := []) (groupBytes_pos a)).symm))
  | holding xs ys hbs hq hc hm ha hroom hheld hp =>
    cases ys with
    | nil =>
      rw [List.append_nil] at hbs
      subst hbs
      exact session_final hq hc hm ha hroom hheld hp h
    | cons b ys => exact session_put hbs hq hc hm ha hroom hheld hp h
  | writing xs ys hbs hphase hsch hc hf hm ha h0 hheld hp =>
    exact session_write hbs hphase hsch hc hf hm ha h0 hheld hp h
  | closing hphase hsch hc hp => exact session_close hphase hsch hc hp h
  | failed ys hq hc hm hempty hp => exact session_refused hq hc hm hempty hp h

theorem SessionAt.runSteps {k : Nat} (hs : SessionAt a bs p s) (h : runSteps k s = .next t) :
    SessionGoesOn a bs p s t := by
  induction k generalizing p s with
  | zero =>
    obtain rfl := next_unique h (runSteps_zero s)
    exact .silent rfl hs
  | succ k ih =>
    obtain ⟨u, hu, hrest⟩ := runSteps_succ_next h
    obtain ⟨w, hw, hsu⟩ := hs.step hu
    obtain ⟨w', hw', hst⟩ := ih hsu hrest
    exact ⟨w ++ w', by rw [hw', hw, List.append_assoc], by rwa [← List.append_assoc]⟩

end

/-- Settles O32: the run stays in `SessionAt`, in which what was emitted begins the encoding. -/
theorem emittedIsAlwaysAPrefix : Obligations.EmittedIsAlwaysAPrefix := by
  unfold Obligations.EmittedIsAlwaysAPrefix
  intro s t a bs k hq hc h
  obtain ⟨w, hw, hst⟩ := SessionAt.runSteps (.starting (p := []) hq hc rfl) h
  exact ⟨w, hw, hst.emitted_is_start⟩

end Sys2Proof.Machine
end

