-- ==== Sys2Proof/Proofs/Fills.lean ====
section
/-! PROOF. Fills (42_decoder.md section 4, R161, R166; 70_reset_and_hazards.md R239): an invalid group fails the decoder, and
foreign characters are skipped without bound. -/

namespace Sys2Proof.Machine

/-- Settles O38: the step completes the group (`step_fill_last`), and an invalid one enters FAILED. -/
theorem invalidGroupFails : Obligations.InvalidGroupFails := by
  unfold Obligations.InvalidGroupFails
  intro s c rest x cause hp hm hn hc hlast hv
  exact (step_fill_last hp hm hn hc hlast).trans (completeGroup_of_error hv)

/-! ### Foreign characters -/

/-- A source item does not count exactly when it is a foreign character. -/
theorem SourceAnswer.counts_eq_false_iff {a : Asel} {x : SourceAnswer} :
    x.counts a = false ↔ ∃ c, x = .chr c ∧ classify a c = .foreign := by
  cases x <;> simp [SourceAnswer.counts]

theorem slot?_eq_none_iff {x : CharClass} : x.slot? = none ↔ x = .foreign := by
  cases x <;> simp [CharClass.slot?]

section
variable {s : State} {a : SourceAnswer} {rest : List SourceAnswer}

/-- The state once the source's item is taken and nothing else has happened. -/
theorem step_fill_not_counting (hp : s.seq.phase = .decFill) (hsch : s.io.schedule = [])
    (hn : s.nextSource = some (a, rest)) (ha : a.counts s.dec.asel = false) : step s = .next (s.sourceAnswered a rest) := by
  obtain ⟨c, rfl, hc⟩ := SourceAnswer.counts_eq_false_iff.mp ha
  exact step_fill_foreign hp (move_of_schedule_nil hsch) hn (slot?_eq_none_iff.mpr hc)

@[simp] theorem State.sourceAnswered_responses : (s.sourceAnswered a rest).responses = s.responses := by
  simp [State.responses, State.sourceAnswered]

@[simp] theorem State.sourceAnswered_itemsConsumed :
    (s.sourceAnswered a rest).itemsConsumed = s.itemsConsumed + 1 := by
  simp [State.itemsConsumed, State.sourceAnswered]

theorem State.sourceAnswered_schedule (hsch : s.io.schedule = []) : (s.sourceAnswered a rest).io.schedule = [] := by
  simp [State.sourceAnswered, hsch]

/-- Items that do not count are taken one in a step. -/
theorem runSteps_not_counting {xs : List SourceAnswer} (hp : s.seq.phase = .decFill) (hsch : s.io.schedule = [])
    (hf : ∀ x ∈ xs, x.counts s.dec.asel = false) (hsrc : s.io.sourceAnswers = xs ++ rest) :
    runSteps xs.length s = .next { s with io := { s.io with
      sourceAnswers := rest, trace := s.io.trace ++ xs.map .sourceRead } } := by
  induction xs generalizing s with
  | nil => simp [← hsrc.trans (List.nil_append rest)]
  | cons x xs ih =>
    rw [List.forall_mem_cons] at hf
    have hstep := step_fill_not_counting hp hsch (State.nextSource_of_cons hsrc) hf.1
    have hrun := ih (s := s.sourceAnswered x (xs ++ rest)) hp (State.sourceAnswered_schedule hsch) hf.2 rfl
    rw [List.length_cons, runSteps_succ_of_step hstep]
    refine hrun.trans ?_
    simp [State.sourceAnswered, hsch]

theorem runSteps_foreign {cs : List Byte} (hp : s.seq.phase = .decFill) (hsch : s.io.schedule = [])
    (hf : ∀ c ∈ cs, classify s.dec.asel c = .foreign) (hsrc : s.io.sourceAnswers = cs.map .chr ++ rest) :
    runSteps cs.length s = .next { s with io := { s.io with
      sourceAnswers := rest, trace := s.io.trace ++ cs.map (fun c => .sourceRead (.chr c)) } } := by
  have hcs : ∀ x ∈ cs.map SourceAnswer.chr, x.counts s.dec.asel = false :=
    List.forall_mem_map.mpr fun c hc => SourceAnswer.counts_eq_false_iff.mpr ⟨c, rfl, hf c hc⟩
  have hrun := runSteps_not_counting hp hsch hcs hsrc
  rwa [List.length_map, List.map_map] at hrun

theorem UnendingForeign.next (h : UnendingForeign s) : ∃ a rest, s.nextSource = some (a, rest) ∧
    a.counts s.dec.asel = false ∧ UnendingForeign (s.sourceAnswered a rest) := by
  obtain ⟨hans, hne, hrep⟩ := h
  obtain ⟨⟨a, rest⟩, hn⟩ := Option.ne_none_iff_exists'.mp
    (fun hn : s.nextSource = none => hne (State.nextSource_eq_none.mp hn).2)
  obtain ⟨ha, hrest⟩ := State.nextSource_forall hn hans hrep
  exact ⟨a, rest, hn, ha, hrest, hne, hrep⟩

/-- A fill on a source that supplies foreign characters for ever has a next state after every number of steps. -/
theorem runSteps_unendingForeign (hp : s.seq.phase = .decFill) (hsch : s.io.schedule = []) (hu : UnendingForeign s)
    (k : Nat) : ∃ t, runSteps k s = .next t ∧ t.enc = s.enc ∧ t.dec = s.dec ∧ t.seq = s.seq ∧
      t.io.commands = s.io.commands ∧ t.responses = s.responses ∧ t.itemsConsumed = s.itemsConsumed + k := by
  induction k generalizing s with
  | zero => exact ⟨s, rfl, rfl, rfl, rfl, rfl, rfl, rfl⟩
  | succ k ih =>
    obtain ⟨a, rest, hn, ha, hu'⟩ := hu.next
    obtain ⟨t, hrun, henc, hdec, hseq, hcmd, hresp, hitems⟩ :=
      ih (s := s.sourceAnswered a rest) hp (State.sourceAnswered_schedule hsch) hu'
    refine ⟨t, (runSteps_succ_of_step (step_fill_not_counting hp hsch hn ha) k).trans hrun, henc, hdec, hseq, hcmd, ?_, ?_⟩
    · rw [hresp, State.sourceAnswered_responses]
    · rw [hitems, State.sourceAnswered_itemsConsumed]
      omega

end

/-- Settles O45: the finite case is `runSteps_foreign`, the unending one `runSteps_unendingForeign`, which a DEC_NEXT
reaches in its first step. -/
theorem foreignCharactersAreNotBounded : Obligations.ForeignCharactersAreNotBounded := by
  unfold Obligations.ForeignCharactersAreNotBounded
  refine ⟨fun s cs rest => runSteps_foreign, fun s k hp hsch hu => ?_, fun s k ws hq hc hm hpos heof hu => ?_⟩
  · obtain ⟨t, hrun, henc, hdec, hseq, -, hresp, hitems⟩ := runSteps_unendingForeign hp hsch hu k
    exact ⟨t, hrun, henc, hdec, hseq, hresp, hitems⟩
  · have hstart := (hq.step_command hc).trans (exec_decNext_of_empty hm (congrArg BitVec.toNat hpos).ge heof)
    obtain ⟨t, hrun, -, -, hseq, hcmd, hresp, hitems⟩ :=
      runSteps_unendingForeign (s := State.setPhase { s with
        dec := { s.dec with scnt := 0 }, io := { s.io with commands := ws } } .decFill) rfl hq.2 hu k
    exact ⟨t, (runSteps_succ_of_step hstart k).trans hrun, congrArg SequencerRegs.phase hseq, hcmd, hresp, hitems⟩

end Sys2Proof.Machine
end

