-- ==== Sys2Proof/Proofs/Streams.lean ====
section
/-! PROOF. The pure decoding of a stream (42_decoder.md section 5, R178 to R180), group by group, and that it undoes the encoding
of a byte sequence. -/

namespace Sys2Proof.Machine

section
variable {a : Asel} {s s' : DecodeGroup} {g l : List Slot} {k : Nat}

/-! ### A group counts by its first GS slots only (R28) -/

theorem usedSlots_getElem? {i : Nat} (h8 : i < 8) (hi : i < groupSymbols a) : (usedSlots a s)[i]? = some s[i] := by
  rw [List.getElem?_eq_getElem (by rwa [usedSlots_length]), usedSlots_getElem]

theorem slot_eq_of_usedSlots_eq (h : usedSlots a s = usedSlots a s') {i : Nat} (h8 : i < 8) (hi : i < groupSymbols a) :
    s[i] = s'[i] :=
  Option.some.inj ((usedSlots_getElem? h8 hi).symm.trans ((congrArg (·[i]?) h).trans (usedSlots_getElem? h8 hi)))

theorem validate_congr (h : usedSlots a s = usedSlots a s') : validate a s = validate a s' := by
  have hgs := (groupSymbols_bounds a).1
  have h0 := slot_eq_of_usedSlots_eq h (show 0 < 8 by decide) (by omega)
  have h1 := slot_eq_of_usedSlots_eq h (show 1 < 8 by decide) (by omega)
  have hk : realCount a s = realCount a s' := by rw [realCount_eq_findIdx, realCount_eq_findIdx, h]
  rw [usedSlots, usedSlots] at h
  simp only [validate, h0, h1, hk, h]

theorem unpack_congr (h : usedSlots a s = usedSlots a s') (k : Nat) : unpack a s k = unpack a s' k := by
  have hslot {i : Nat} (h8 : i < 8) := slot_eq_of_usedSlots_eq h h8
  cases hf : family a with
  | byte =>
    simp only [groupSymbols, hf] at hslot
    simp only [unpack, hf, hslot (show 0 < 8 by decide) (by decide), hslot (show 1 < 8 by decide) (by decide),
      hslot (show 2 < 8 by decide) (by decide), hslot (show 3 < 8 by decide) (by decide)]
  | quintet =>
    simp only [groupSymbols, hf] at hslot
    obtain rfl : s = s' := Vector.ext fun i hi => hslot hi hi
    rfl

theorem slotsOf_getElem (l : List Slot) {i : Nat} (hi : i < 8) : (slotsOf l)[i] = l.getD i 0 := by
  interval_cases i <;> rfl

theorem usedSlots_slotsOf (hg : g.length = groupSymbols a) : usedSlots a (slotsOf g) = g := by
  have hgs := (groupSymbols_bounds a).2
  refine List.ext_getElem (by rw [usedSlots_length, hg]) fun i hi hi' => ?_
  rw [usedSlots_getElem, slotsOf_getElem _ (by omega), List.getD_eq_getElem _ _ hi']

/-! ### The responses for a list of slots (R180) -/

/-- The responses for the slots that a stream fills. -/
def slotResponses (a : Asel) (broken : Bool) (slots : List Slot) : List Response :=
  groupResponses a (if broken then .ioerr .source
      else if leftover (groupSymbols a) slots = [] then .eod else .malformed .truncated)
    (completeGroups (groupSymbols a) slots)

theorem streamResponses_eq (a : Asel) (cs : List Byte) (broken : Bool) :
    streamResponses a cs broken = slotResponses a broken (slotsFilled a cs) := rfl

variable {broken : Bool}

theorem slotResponses_of_lt (h : l.length < groupSymbols a) : slotResponses a broken l =
    [if broken then .ioerr .source else if l = [] then .eod else .malformed .truncated] := by
  rw [slotResponses, completeGroups_of_lt h, leftover_of_lt h, groupResponses]

theorem slotResponses_of_invalid {cause : Cause} (hg : g.length = groupSymbols a)
    (hv : validate a (slotsOf g) = .error cause) : slotResponses a broken (g ++ l) = [.malformed cause] := by
  rw [slotResponses, completeGroups_group_append (groupSymbols_pos a) hg, groupResponses, hv]

theorem slotResponses_of_valid (hg : g.length = groupSymbols a) (hv : validate a (slotsOf g) = .ok k) :
    slotResponses a broken (g ++ l) = (unpack a (slotsOf g) k).map .data ++ slotResponses a broken l := by
  rw [slotResponses, completeGroups_group_append (groupSymbols_pos a) hg, leftover_group_append (groupSymbols_pos a) hg,
    groupResponses, hv]
  rfl

end

/-! ### Characters and the slots they fill (R161) -/

section
variable {a : Asel} {c : Byte} {cs : List Byte}

theorem slotsFilled_append (a : Asel) (cs ds : List Byte) :
    slotsFilled a (cs ++ ds) = slotsFilled a cs ++ slotsFilled a ds := List.filterMap_append

theorem slotsFilled_cons_foreign (h : (classify a c).slot? = none) : slotsFilled a (c :: cs) = slotsFilled a cs :=
  List.filterMap_cons_none h

theorem slotsFilled_cons_slot {x : Slot} (h : (classify a c).slot? = some x) :
    slotsFilled a (c :: cs) = x :: slotsFilled a cs := List.filterMap_cons_some h

/-- A symbol fills its slot with its index (R31). -/
theorem slot?_of_sym {v : Nat} (h : sym a v = some c) : (classify a c).slot? = some (BitVec.ofNat 7 v) := by
  have hne : c ≠ padOctet := fun hc => padOctet_notMem_table a (hc ▸ mem_table_of_sym h)
  rw [classify_of_val_some hne (val_eq_some_iff.mpr h)]
  rfl

theorem slotsFilled_symOctets {vs : List Nat} (h : ∀ v ∈ vs, v < numSymbols a) :
    slotsFilled a (symOctets a vs) = vs.map (BitVec.ofNat 7) := by
  induction vs with
  | nil => rfl
  | cons v vs ih =>
    obtain ⟨c, hc⟩ := sym_of_lt (h v (by simp))
    have hcons : symOctets a (v :: vs) = c :: symOctets a vs := List.filterMap_cons_some hc
    rw [hcons, slotsFilled_cons_slot (slot?_of_sym hc), ih fun w hw => h w (by simp [hw])]
    rfl

theorem slotsFilled_replicate_pad (a : Asel) (n : Nat) :
    slotsFilled a (List.replicate n padOctet) = List.replicate n padSlot := by
  induction n with
  | zero => rfl
  | succ n ih =>
    have hpad : (classify a padOctet).slot? = some padSlot := by rw [classify_padOctet]; rfl
    rw [List.replicate_succ, slotsFilled_cons_slot hpad, ih, List.replicate_succ]

/-! ### Decoding undoes encoding (R179) -/

/-- The slots that the octets of a group of n bytes fill. -/
def packedSlots (a : Asel) (n : Nat) (v : EncodeGroup) : List Slot :=
  ((pack a (zeroFill n v)).take (realSymbols a n)).map (BitVec.ofNat 7) ++
    List.replicate (groupSymbols a - realSymbols a n) padSlot

theorem slotsFilled_finalGroupOctets (a : Asel) (n : Nat) (v : EncodeGroup) :
    slotsFilled a (finalGroupOctets a n v) = packedSlots a n v := by
  rw [finalGroupOctets_eq, slotsFilled_append, finalSymbols, slotsFilled_symOctets mem_take_pack_lt,
    slotsFilled_replicate_pad, packedSlots]

theorem packedSlots_length {n : Nat} (hn : n ≤ groupBytes a) (v : EncodeGroup) :
    (packedSlots a n v).length = groupSymbols a := by
  have hreal := realSymbols_le hn
  rw [packedSlots, List.length_append, List.length_map, List.length_take, pack_length, List.length_replicate]
  omega

theorem packedSlots_spec {n : Nat} (hn : n ≤ groupBytes a) (v : EncodeGroup) :
    PackedSlots a v n (slotsOf (packedSlots a n v)) := by
  intro i h8 hi
  have hreal := realSymbols_le hn
  have hlen := packedSlots_length hn v
  rw [slotsOf_getElem _ h8, List.getD_eq_getElem _ _ (hlen ▸ hi), ← List.getElem?_eq_getElem, packedSlots,
    List.getElem?_append]
  simp only [List.length_map, List.length_take, pack_length, Nat.min_eq_left hreal]
  split
  case isTrue hlt => rw [List.getElem?_map, List.getElem?_take_of_lt hlt]
  case isFalse hge =>
    rw [List.getElem?_replicate, if_pos (by omega)]
    rfl

/-- The octets of one group of 1 to GB bytes give those bytes back, whatever follows. -/
theorem slotResponses_packedSlots {g : List Byte} (hpos : g ≠ []) (hle : g.length ≤ groupBytes a) (l : List Slot)
    (broken : Bool) : slotResponses a broken (packedSlots a g.length (groupOf g) ++ l) =
      g.map .data ++ slotResponses a broken l := by
  have hspec := packedSlots_spec hle (groupOf g)
  have hone := List.length_pos_of_ne_nil hpos
  rw [slotResponses_of_valid (packedSlots_length hle _) (hspec.validate_eq hone hle), hspec.unpack_eq hone hle,
    groupOf_toList_take (hle.trans (groupBytes_bounds a).2)]

theorem streamResponses_encoded (a : Asel) (bs : List Byte) :
    streamResponses a (encoded a bs) false = bs.map .data ++ [.eod] := by
  have hend : slotResponses a false [] = [.eod] := slotResponses_of_lt (groupSymbols_pos a)
  rw [streamResponses_eq]
  induction bs using group_induction (groupBytes_pos a) with
  | short l hlt =>
    by_cases hne : l = []
    · subst hne
      rw [encoded_nil]
      exact hend
    · have h := slotResponses_packedSlots hne hlt.le [] false
      rw [List.append_nil, hend] at h
      rw [encoded_of_lt hlt hne, slotsFilled_finalGroupOctets, h]
  | group g l hg ih =>
    have hne : g ≠ [] := List.ne_nil_of_length_pos (hg ▸ groupBytes_pos a)
    rw [encoded_group_append hg, slotsFilled_append, fullGroupOctets_eq_final, ← hg, slotsFilled_finalGroupOctets,
      slotResponses_packedSlots hne hg.le, ih, List.map_append, List.append_assoc]

end
end Sys2Proof.Machine
end

