-- ==== Sys2Proof/Proofs/DecoderRuns.lean ====
section
/-! PROOF. Whole runs of the decoder (42_decoder.md section 5, R179, R180): its DEC_NEXTs answer the responses of the pure function,
one after another, and so read back what an encoder session wrote. -/

namespace Sys2Proof.Machine

/-! ### The output buffer (R30) -/

/-- The bytes of the output buffer still to serve are `bb`. -/
def Buffered (d : DecoderRegs) (bb : List Byte) : Prop :=
  d.olen.toNat = d.opos.toNat + bb.length ∧ ∀ i, i < bb.length → d.obuf[d.opos.toNat + i]? = bb[i]?

section
variable {d : DecoderRegs} {b : Byte} {bb : List Byte}

theorem Buffered.nil (h : d.opos = d.olen) : Buffered d [] := ⟨by rw [h]; rfl, fun _ hi => absurd hi (by simp)⟩

theorem Buffered.head (h : Buffered d (b :: bb)) : d.opos.toNat < d.olen.toNat ∧ d.obuf[d.opos.toNat]? = some b := by
  obtain ⟨hlen, hget⟩ := h
  exact ⟨by simp [hlen], by simpa using hget 0 (by simp)⟩

theorem Buffered.tail (h : Buffered d (b :: bb)) : Buffered { d with opos := d.opos + 1 } bb := by
  obtain ⟨hlen, hget⟩ := h
  have hopos : (d.opos + 1).toNat = d.opos.toNat + 1 := by
    have := d.olen.isLt
    rw [BitVec.toNat_add]
    exact Nat.mod_eq_of_lt (by simp at hlen ⊢; omega)
  refine ⟨?_, fun i hi => ?_⟩
  · rw [hopos, hlen, List.length_cons]
    omega
  · have h := hget (i + 1) (by simpa using hi)
    rw [List.getElem?_cons_succ] at h
    rw [hopos, ← h]
    congr 1
    omega

/-- What a completed group leaves in the buffer: all its bytes but the first, which is answered (R162). -/
theorem Buffered.of_group (hle : (b :: bb).length ≤ 5) : Buffered { d with
    obuf := storeBytes (b :: bb) d.obuf, olen := BitVec.ofNat 3 (bb.length + 1), opos := 1, scnt := 0 } bb := by
  rw [List.length_cons] at hle
  refine ⟨?_, fun i hi => ?_⟩
  · rw [BitVec.toNat_ofNat, Nat.mod_eq_of_lt (by omega), Nat.add_comm]
    rfl
  · change (storeBytes (b :: bb) d.obuf)[1 + i]? = _
    rw [storeBytes_getElem? _ _ (by omega), if_pos (by simp; omega), Nat.add_comm, List.getElem?_cons_succ]

end

/-! ### What a decoder has still to answer -/

/-- The DEC_NEXTs to come answer `rs` and then `fin` for ever: a READY decoder in its stream, one that has met the end with
`rest` left of the source, and a FAILED one. -/
inductive Pending (a : Asel) (rest : List SourceAnswer) (s : State) (rs : List Response) (fin : Response) : Prop
  | streaming (bb cs : List Byte) (broken : Bool) (hm : s.dec.mode = .ready) (ha : s.dec.asel = a)
      (heof : s.dec.eof = false) (hb : Buffered s.dec bb)
      (hsrc : s.io.sourceAnswers = cs.map .chr ++ (if broken then .err else .endOfInput) :: rest)
      (hrs : rs = bb.map .data ++ streamResponses a cs broken) (hfin : fin = afterStream (streamResponses a cs broken))
  | ended (hm : s.dec.mode = .ready) (heof : s.dec.eof = true) (hb : Buffered s.dec [])
      (hsrc : s.io.sourceAnswers = rest) (hrs : rs = []) (hfin : fin = .eod)
  | failed (hm : s.dec.mode = .failed) (hrs : rs = []) (hfin : fin = .unusable .failed)

/-- From `s` to `t` a command was answered with `r`; `cmds` are the commands still to come. -/
structure Answered (s t : State) (r : Response) (cmds : List Word) : Prop where
  quiet : Quiet t
  commands : t.io.commands = cmds
  enc : t.enc = s.enc
  responses : t.responses = s.responses ++ [r.word]

theorem Answered.of_unobserved {s u t : State} {r : Response} {cmds : List Word} (h : Answered u t r cmds)
    (he : u.enc = s.enc) (hr : u.responses = s.responses) : Answered s t r cmds :=
  ⟨h.quiet, h.commands, h.enc.trans he, h.responses.trans (congrArg (· ++ _) hr)⟩

/-! ### The last response of a stream -/

section
variable {a : Asel} {rs : List Response}

theorem groupResponses_ne_nil (a : Asel) (last : Response) (gs : List (List Slot)) : groupResponses a last gs ≠ [] := by
  induction gs with
  | nil => simp [groupResponses]
  | cons g gs ih =>
    rw [groupResponses]
    split
    · simp
    · simp [ih]

theorem slotResponses_ne_nil (a : Asel) (broken : Bool) (l : List Slot) : slotResponses a broken l ≠ [] :=
  groupResponses_ne_nil a _ _

theorem afterStream_append (ps : List Response) (h : rs ≠ []) : afterStream (ps ++ rs) = afterStream rs := by
  rw [afterStream, afterStream, List.getLast?_append_of_ne_nil _ h]

end

/-! ### A fill (R161 to R166) -/

/-- A fill with the slots `sl` filled. -/
structure FillingWith (a : Asel) (s : State) (sl : List Slot) : Prop where
  phase : s.seq.phase = .decFill
  schedule : s.io.schedule = []
  mode : s.dec.mode = .ready
  asel : s.dec.asel = a
  eof : s.dec.eof = false
  buffer : Buffered s.dec []
  count : sl.length = s.dec.scnt.toNat
  slots : s.dec.slot.toList.take s.dec.scnt.toNat = sl
  room : sl.length < groupSymbols a

section
variable {a : Asel} {s t : State} {sl : List Slot} {x : Slot} {c : Byte} {cs : List Byte} {broken : Bool}
  {rest : List SourceAnswer}

/-- How a fill ends: with the first response of the stream. -/
def FillAnswers (a : Asel) (s : State) (rest : List SourceAnswer) (rs : List Response) : Prop :=
  ∃ k t r rs', rs = r :: rs' ∧ runSteps k s = .next t ∧ Answered s t r s.io.commands ∧
    Pending a rest t rs' (afterStream rs)

theorem FillAnswers.step {u : State} {rs : List Response} (hstep : step s = .next u) (he : u.enc = s.enc)
    (hr : u.responses = s.responses) (hc : u.io.commands = s.io.commands) (h : FillAnswers a u rest rs) :
    FillAnswers a s rest rs := by
  obtain ⟨k, t, r, rs', hrs, hrun, ht, hp⟩ := h
  exact ⟨k + 1, t, r, rs', hrs, (runSteps_succ_of_step hstep k).trans hrun, hc ▸ ht.of_unobserved he hr, hp⟩

theorem FillAnswers.ends {r : Response} {rs : List Response} (hstep : Machine.step s = .next t)
    (ht : Answered s t r s.io.commands) (hp : Pending a rest t rs (afterStream (r :: rs))) :
    FillAnswers a s rest (r :: rs) :=
  ⟨1, t, r, rs, rfl, runSteps_one hstep, ht, hp⟩

/-- Err ends the stream in FAILED (R165). -/
theorem FillingWith.err (h : FillingWith a s sl) (hsrc : s.io.sourceAnswers = .err :: rest) :
    FillAnswers a s rest [.ioerr .source] := by
  refine .ends (step_fill_err h.phase (move_of_schedule_nil h.schedule) (State.nextSource_of_cons hsrc)) ⟨⟨rfl, ?_⟩, rfl, rfl, ?_⟩
    (.failed rfl rfl rfl)
  · exact State.sourceAnswered_schedule (a := .err) (rest := rest) h.schedule
  · rw [State.fail_responses, State.sourceAnswered_responses]

/-- End with no slot filled is the end of the stream (R163). -/
theorem FillingWith.endOfInput (h : FillingWith a s []) (hsrc : s.io.sourceAnswers = .endOfInput :: rest) :
    FillAnswers a s rest [.eod] := by
  have h0 : s.dec.scnt = 0 := BitVec.eq_of_toNat_eq h.count.symm
  refine .ends ((step_fill_endOfInput h.phase (move_of_schedule_nil h.schedule) (State.nextSource_of_cons hsrc)).trans
    (fillEnd_of_no_slot h0)) ⟨⟨rfl, ?_⟩, rfl, rfl, ?_⟩ (.ended h.mode rfl h.buffer rfl rfl rfl)
  · exact State.sourceAnswered_schedule (a := .endOfInput) (rest := rest) h.schedule
  · rw [State.finish_responses]
    exact congrArg (· ++ _) State.sourceAnswered_responses

/-- End with a partial group is a truncated stream (R164). -/
theorem FillingWith.truncated (h : FillingWith a s sl) (hne : sl ≠ []) (hsrc : s.io.sourceAnswers = .endOfInput :: rest) :
    FillAnswers a s rest [.malformed .truncated] := by
  have h0 : s.dec.scnt ≠ 0 := fun h0 => hne (List.eq_nil_of_length_eq_zero (h.count.trans (by rw [h0]; rfl)))
  have hlt : s.dec.scnt.toNat < groupSymbols s.dec.asel := by
    rw [h.asel, ← h.count]
    exact h.room
  refine .ends ((step_fill_endOfInput h.phase (move_of_schedule_nil h.schedule) (State.nextSource_of_cons hsrc)).trans
    (fillEnd_of_partial h0 hlt)) ⟨⟨rfl, ?_⟩, rfl, rfl, ?_⟩ (.failed rfl rfl rfl)
  · exact State.sourceAnswered_schedule (a := .endOfInput) (rest := rest) h.schedule
  · rw [State.fail_responses, State.sourceAnswered_responses]

/-- The slots once the next one is filled. -/
theorem FillingWith.slots_append (h : FillingWith a s sl) (x : Slot) :
    (s.dec.slot.setIfInBounds s.dec.scnt.toNat x).toList.take (s.dec.scnt.toNat + 1) = sl ++ [x] := by
  have hgs := (groupSymbols_bounds a).2
  have hcount := h.count
  have hroom := h.room
  rw [take_setIfInBounds_append (by omega), h.slots]

/-- A foreign character leaves the fill as it is (R161). -/
theorem FillingWith.foreign (h : FillingWith a s sl) : FillingWith a (s.sourceAnswered (.chr c) rest) sl :=
  ⟨h.phase, State.sourceAnswered_schedule h.schedule, h.mode, h.asel, h.eof, h.buffer, h.count, h.slots, h.room⟩

/-- The state of a fill once a slot is filled and there is room for another. -/
def State.slotFilled (s : State) (c : Byte) (rest : List SourceAnswer) (x : Slot) : State :=
  { s.sourceAnswered (.chr c) rest with
    dec := { s.dec with slot := s.dec.slot.setIfInBounds s.dec.scnt.toNat x, scnt := s.dec.scnt + 1 } }

theorem FillingWith.fill (h : FillingWith a s sl) (hroom : sl.length + 1 < groupSymbols a) :
    FillingWith a (s.slotFilled c rest x) (sl ++ [x]) := by
  have hgs := (groupSymbols_bounds a).2
  have hcount := h.count
  have hcnt : (s.dec.scnt + 1).toNat = s.dec.scnt.toNat + 1 := by
    rw [BitVec.toNat_add]
    exact Nat.mod_eq_of_lt (by simp; omega)
  refine ⟨h.phase, State.sourceAnswered_schedule h.schedule, h.mode, h.asel, h.eof, h.buffer, ?_, ?_, by simpa using hroom⟩
  · rw [List.length_append, h.count]
    exact hcnt.symm
  · simp only [State.slotFilled, hcnt]
    exact h.slots_append x

/-- The character that fills the last slot answers for its group (R162, R166). -/
theorem FillingWith.complete (h : FillingWith a s sl) (hlast : sl.length + 1 = groupSymbols a)
    (hc : (classify a c).slot? = some x)
    (hsrc : s.io.sourceAnswers = .chr c :: (cs.map .chr ++ (if broken then .err else .endOfInput) :: rest)) :
    FillAnswers a s rest (slotResponses a broken (sl ++ x :: slotsFilled a cs)) := by
  obtain ⟨hp, hsch, hm, rfl, heof, -, hcount, -, -⟩ := id h
  have hstep := step_fill_last hp (move_of_schedule_nil hsch) (State.nextSource_of_cons hsrc) hc (hcount ▸ hlast)
  have hlen : (sl ++ [x]).length = groupSymbols s.dec.asel := by rw [List.length_append]; exact hlast
  have hused : usedSlots s.dec.asel (slotsOf (sl ++ [x])) =
      usedSlots s.dec.asel (s.dec.slot.setIfInBounds s.dec.scnt.toNat x) := by
    rw [usedSlots_slotsOf hlen, usedSlots, ← hlast, hcount, h.slots_append]
  rw [List.append_cons]
  cases hv : validate s.dec.asel (slotsOf (sl ++ [x])) with
  | error cause =>
    rw [slotResponses_of_invalid hlen hv]
    refine .ends (hstep.trans (completeGroup_of_error ((validate_congr hused).symm.trans hv))) ⟨⟨rfl, ?_⟩, rfl, rfl, ?_⟩
      (.failed rfl rfl rfl)
    · exact State.sourceAnswered_schedule (a := .chr c) (rest := rest) hsch
    · exact (State.fail_responses _ _ _).trans (congrArg (· ++ _) State.sourceAnswered_responses)
  | ok k =>
    obtain ⟨b, bs, hb, -⟩ := unpack_of_validate_ok hv
    obtain ⟨hunpack, -, hle⟩ := unpack_length (s := slotsOf (sl ++ [x])) (validate_ok hv).2
    rw [slotResponses_of_valid hlen hv, hb, List.map_cons, List.cons_append]
    refine .ends (hstep.trans (completeGroup_of_ok ((validate_congr hused).symm.trans hv)
      ((unpack_congr hused k).symm.trans hb))) ⟨⟨rfl, ?_⟩, rfl, rfl, ?_⟩
      (.streaming bs cs broken hm rfl heof (.of_group ?_) rfl rfl ?_)
    · exact State.sourceAnswered_schedule (a := .chr c) (rest := rest) hsch
    · exact (State.finish_responses _ _).trans (congrArg (· ++ _) State.sourceAnswered_responses)
    · rw [← hb, hunpack]
      exact hle.trans (groupBytes_bounds _).2
    · rw [streamResponses_eq, ← List.cons_append, afterStream_append _ (slotResponses_ne_nil _ _ _)]

/-- A fill answers the first response for the slots it has and those that the stream fills. -/
theorem FillingWith.answers (h : FillingWith a s sl)
    (hsrc : s.io.sourceAnswers = cs.map .chr ++ (if broken then .err else .endOfInput) :: rest) :
    FillAnswers a s rest (slotResponses a broken (sl ++ slotsFilled a cs)) := by
  induction cs generalizing s sl with
  | nil =>
    rw [show slotsFilled a [] = [] from rfl, List.append_nil, slotResponses_of_lt h.room]
    cases broken with
    | true => exact h.err hsrc
    | false =>
      by_cases hne : sl = []
      · subst hne
        exact h.endOfInput hsrc
      · simp only [Bool.false_eq_true, if_false, if_neg hne]
        exact h.truncated hne hsrc
  | cons c cs ih =>
    have hn := State.nextSource_of_cons hsrc
    cases hc : (classify a c).slot? with
    | none =>
      rw [slotsFilled_cons_foreign hc]
      exact .step (step_fill_foreign h.phase (move_of_schedule_nil h.schedule) hn (h.asel ▸ hc)) rfl
        State.sourceAnswered_responses rfl (ih h.foreign rfl)
    | some x =>
      rw [slotsFilled_cons_slot hc]
      obtain hroom | hlast := Nat.lt_or_eq_of_le (Nat.succ_le_of_lt h.room)
      · rw [List.append_cons]
        have hroom' : s.dec.scnt.toNat + 1 < groupSymbols s.dec.asel := by
          rw [h.asel, ← h.count]
          exact hroom
        exact .step ((step_fill_slot h.phase (move_of_schedule_nil h.schedule) hn (h.asel ▸ hc)).trans
          (fillSlot_of_room hroom')) rfl State.sourceAnswered_responses rfl (ih (h.fill hroom) rfl)
      · exact h.complete hlast hc hsrc

end

/-! ### One DEC_NEXT after another -/

section
variable {a : Asel} {rest : List SourceAnswer} {s : State} {rs : List Response} {fin : Response} {cmds : List Word}

/-- A DEC_NEXT answers the next of the responses to come. -/
theorem Pending.next (h : Pending a rest s rs fin) (hq : Quiet s) (hc : s.io.commands = encode .decNext :: cmds) :
    ∃ k t, runSteps k s = .next t ∧ Answered s t (rs.headD fin) cmds ∧ Pending a rest t rs.tail fin := by
  cases h with
  | streaming bb cs broken hm ha heof hb hsrc hrs hfin =>
    subst hrs hfin
    cases bb with
    | cons b bb =>
      obtain ⟨hlt, hget⟩ := hb.head
      refine ⟨1, _, runSteps_one ((hq.step_command hc).trans (exec_decNext_of_buffered hm hlt hget)),
        ⟨hq, rfl, rfl, State.respond_responses _ _⟩, .streaming bb cs broken hm ha heof hb.tail hsrc rfl rfl⟩
    | nil =>
      have hstart := (hq.step_command hc).trans (exec_decNext_of_empty hm hb.1.le heof)
      have hfill : FillingWith a (State.setPhase { s with
          dec := { s.dec with scnt := 0 }, io := { s.io with commands := cmds } } .decFill) [] :=
        ⟨rfl, hq.2, hm, ha, heof, hb, rfl, rfl, groupSymbols_pos a⟩
      obtain ⟨k, t, r, rs, hrs, hrun, ht, hp⟩ := hfill.answers hsrc
      rw [List.nil_append, ← streamResponses_eq] at hrs hp
      refine ⟨k + 1, t, (runSteps_succ_of_step hstart k).trans hrun, ?_, ?_⟩
      · rw [List.map_nil, List.nil_append, hrs]
        exact ht.of_unobserved rfl rfl
      · rw [List.map_nil, List.nil_append]
        rwa [hrs] at hp ⊢
  | ended hm heof hb hsrc hrs hfin =>
    subst hrs hfin
    exact ⟨1, _, runSteps_one ((hq.step_command hc).trans (exec_decNext_of_eof hm hb.1.le heof)),
      ⟨hq, rfl, rfl, State.respond_responses _ _⟩, .ended hm heof hb hsrc rfl rfl⟩
  | failed hm hrs hfin =>
    subst hrs hfin
    refine ⟨1, _, runSteps_one ((hq.step_command hc).trans (exec_decNext_of_not_ready (by simp [hm]))),
      ⟨hq, rfl, rfl, ?_⟩, .failed hm rfl rfl⟩
    rw [← hm]
    exact State.respond_responses _ _

/-- The first responses to come, one more of them. -/
theorem take_responses_succ (rs : List Response) (fin : Response) (m : Nat) :
    (rs ++ List.replicate (m + 1) fin).take (m + 1) = rs.headD fin :: (rs.tail ++ List.replicate m fin).take m := by
  cases rs with
  | nil => simp [List.replicate_succ]
  | cons r rs =>
    rw [List.replicate_succ', ← List.append_assoc, List.cons_append, List.cons_append, List.take_succ_cons,
      List.take_append_of_le_length (by simp)]
    rfl

/-- Any number of DEC_NEXTs answer the responses to come, as many as they are. -/
theorem Pending.run {m : Nat} (h : Pending a rest s rs fin) (hq : Quiet s)
    (hc : s.io.commands = List.replicate m (encode .decNext)) : ∃ k t, runSteps k s = .next t ∧ Quiet t ∧
      t.io.commands = [] ∧ t.enc = s.enc ∧
      t.responses = s.responses ++ ((rs ++ List.replicate m fin).take m).map (·.word) ∧
      Pending a rest t (rs.drop m) fin := by
  induction m generalizing s rs with
  | zero => exact ⟨0, s, rfl, hq, hc, rfl, by simp, h⟩
  | succ m ih =>
    obtain ⟨k, u, hrun, hu, hpu⟩ := h.next hq hc
    obtain ⟨k', t, hrun', hqt, hct, het, hrt, hpt⟩ := ih hpu hu.quiet hu.commands
    refine ⟨k + k', t, (runSteps_add k k' hrun).trans hrun', hqt, hct, het.trans hu.enc, ?_, ?_⟩
    · rw [hrt, hu.responses, take_responses_succ, List.map_cons, List.append_assoc]
      rfl
    · rwa [List.drop_tail] at hpt

end

/-- Once all is answered and EOD repeats, the source has been read up to its End. -/
theorem Pending.sourceAnswers_of_eod {a : Asel} {rest : List SourceAnswer} {s : State} (h : Pending a rest s [] .eod) :
    s.io.sourceAnswers = rest := by
  cases h with
  | streaming bb cs broken hm ha heof hb hsrc hrs hfin =>
    exact absurd (List.append_eq_nil_iff.mp hrs.symm).2 (slotResponses_ne_nil a broken _)
  | ended hm heof hb hsrc hrs hfin => exact hsrc
  | failed hm hrs hfin => nomatch hfin

/-- Settles O47: at its start the decoder has the responses of the stream to come (`Pending.streaming`), and it answers
them one after another (`Pending.run`). -/
theorem decoderAnswersTheStream : Obligations.DecoderAnswersTheStream := by
  unfold Obligations.DecoderAnswersTheStream
  intro s cs broken rest m hq hm hpos heof hc hsrc
  have hp : Pending s.dec.asel rest s (streamResponses s.dec.asel cs broken) _ :=
    .streaming [] cs broken hm rfl heof (.nil hpos) hsrc rfl rfl
  obtain ⟨k, t, hrun, hqt, hct, het, hrt, -⟩ := hp.run hq hc
  exact ⟨k, t, hrun, hqt, hct, het, hrt⟩

/-- Settles O48: the session writes the encoding (`run_session`), whose decoding is the bytes and then EOD
(`streamResponses_encoded`), and at EOD the source has been read up to its End. -/
theorem decodingUndoesEncoding : Obligations.DecodingUndoesEncoding := by
  unfold Obligations.DecodingUndoesEncoding
  intro a bs s n restAnswers hq hc hn ha
  rw [← encoded_length] at hn
  subst hn
  obtain ⟨k, t, hrun, hqt, hct, -, hemit⟩ := run_session hq hc ha
  refine ⟨k, t, encoded a bs, hrun, hqt, hct, hemit, fun u rest hqu hcu hsrc => ?_⟩
  have hinit := (hqu.step_command hcu).trans (exec_decInit a _)
  have hp := Pending.streaming (a := a) (rest := rest) (s := State.respond { u with
      dec := { u.dec with asel := a, scnt := 0, olen := 0, opos := 0, eof := false, mode := .ready }
      io := { u.io with commands := List.replicate (bs.length + 1) (encode .decNext) } } .ok)
    [] (encoded a bs) false rfl rfl rfl (.nil rfl) hsrc rfl rfl
  obtain ⟨k', v, hrun', hqv, hcv, -, hrv, hpv⟩ := hp.run hqu rfl
  rw [streamResponses_encoded, List.map_nil, List.nil_append] at hrv hpv
  have hlen : (bs.map Response.data ++ [Response.eod]).length = bs.length + 1 := by simp
  have hlast : afterStream (bs.map .data ++ [.eod]) = .eod := by simp [afterStream]
  refine ⟨k' + 1, v, (runSteps_succ_of_step hinit k').trans hrun', hqv, hcv, ?_, ?_⟩
  · rw [List.drop_of_length_le hlen.le, hlast] at hpv
    exact hpv.sourceAnswers_of_eod
  · rw [hrv, State.respond_responses, List.take_left' hlen]
    simp [State.responses]

end Sys2Proof.Machine
end

