-- ==== Sys2Proof/Proofs/ForeignOctets.lean ====
section
/-! PROOF. Foreign octets in the source do not matter (42_decoder.md section 5, R178): a decoder on another source that differs in them
only follows the run on the first, and takes more or fewer steps over the foreign characters. -/

namespace Sys2Proof.Machine

/-! ### The decoder's own steps do not look at the channels -/

/-- `f` takes `s` to `t` within the decoder: in the same session, to IDLE or DEC_FILL, and whatever the channels hold, which it
leaves but for what is observed. -/
structure DecoderMove (f : State → Outcome) (s t : State) : Prop where
  asel : t.dec.asel = s.dec.asel
  phase : t.seq.phase = .idle ∨ t.seq.phase = .decFill
  io : ∃ es, ∀ io : Channels, f { s with io := io } = .next { t with io := { io with trace := io.trace ++ es } }

section
variable {s t : State}

theorem DecoderMove.of_nothing_observed {f : State → Outcome} (ha : t.dec.asel = s.dec.asel)
    (hp : t.seq.phase = .idle ∨ t.seq.phase = .decFill)
    (hio : ∀ io : Channels, f { s with io := io } = .next { t with io := io }) : DecoderMove f s t :=
  ⟨ha, hp, [], fun io => by simpa using hio io⟩

theorem execDecNext_move (h : execDecNext s = .next t) (hp : s.seq.phase = .idle) : DecoderMove (exec .decNext) s t := by
  obtain ⟨hm, rfl⟩ | ⟨hm, hlt, b, hb, rfl⟩ | ⟨hm, hle, heof, rfl⟩ | ⟨hm, hle, heof, rfl⟩ := execDecNext_next h
  · exact ⟨rfl, .inl hp, [.response (Response.unusable s.dec.mode).word], fun io =>
      exec_decNext_of_not_ready (s := { s with io := io }) hm⟩
  · exact ⟨rfl, .inl hp, _, fun io => exec_decNext_of_buffered (s := { s with io := io }) hm hlt hb⟩
  · exact ⟨rfl, .inl hp, _, fun io => exec_decNext_of_eof (s := { s with io := io }) hm hle heof⟩
  · exact .of_nothing_observed rfl (.inr rfl) fun io => exec_decNext_of_empty (s := { s with io := io }) hm hle heof

theorem completeGroup_move {g : DecodeGroup} (h : completeGroup g s = .next t) : DecoderMove (completeGroup g) s t := by
  obtain ⟨cause, hv, rfl⟩ | ⟨k, b, bs, hv, hu, rfl⟩ := completeGroup_next h
  · exact ⟨rfl, .inl rfl, _, fun io => completeGroup_of_error (s := { s with io := io }) hv⟩
  · exact ⟨rfl, .inl rfl, _, fun io => completeGroup_of_ok (s := { s with io := io }) hv hu⟩

/-- A fill with no room left completes the group, also from a count that no run reaches. -/
theorem fillSlot_of_full {x : Slot} (h8 : s.dec.scnt.toNat < 8) (hfull : groupSymbols s.dec.asel ≤ s.dec.scnt.toNat + 1) :
    fillSlot x s = completeGroup (s.dec.slot.setIfInBounds (groupSymbols s.dec.asel - 1) x)
      { s with dec := { s.dec with slot := s.dec.slot.setIfInBounds s.dec.scnt.toNat x } } :=
  (if_neg (Nat.not_le.mpr h8)).trans (if_neg (Nat.not_lt.mpr hfull))

theorem fillSlot_move {x : Slot} (h : fillSlot x s = .next t) (hp : s.seq.phase = .decFill) :
    DecoderMove (fillSlot x) s t := by
  obtain ⟨h8, ⟨hroom, rfl⟩ | ⟨hfull, h⟩⟩ := fillSlot_next h
  · exact .of_nothing_observed rfl (.inr hp) fun io => (if_neg (Nat.not_le.mpr h8)).trans (if_pos hroom)
  · obtain ⟨hasel, hphase, es, hio⟩ := completeGroup_move h
    exact ⟨hasel, hphase, es, fun io => (fillSlot_of_full (s := { s with io := io }) h8 hfull).trans (hio io)⟩

theorem fillEnd_move (h : fillEnd s = .next t) : DecoderMove fillEnd s t := by
  obtain ⟨h0, rfl⟩ | ⟨h0, rfl⟩ := fillEnd_next h
  · exact ⟨rfl, .inl rfl, _, fun io => fillEnd_of_no_slot (s := { s with io := io }) h0⟩
  · have hlt : s.dec.scnt.toNat < groupSymbols s.dec.asel := by
      by_contra hge
      rw [fillEnd, if_neg h0, if_neg hge] at h
      cases h
    exact ⟨rfl, .inl rfl, _, fun io => fillEnd_of_partial (s := { s with io := io }) h0 hlt⟩

/-- What follows the read of an item is a move of the fill step. -/
theorem DecoderMove.after_read {f : State → Outcome} {x : SourceAnswer}
    (h : DecoderMove f (s.observe (.sourceRead x)) t)
    (hf : ∀ io : Channels, fillAnswered x { s with io := io } = f (State.observe { s with io := io } (.sourceRead x))) :
    DecoderMove (fillAnswered x) s t := by
  obtain ⟨hasel, hphase, es, hio⟩ := h
  refine ⟨hasel, hphase, .sourceRead x :: es, fun io => (hf io).trans ((hio _).trans ?_)⟩
  simp

theorem fillAnswered_move {x : SourceAnswer} (h : fillAnswered x s = .next t) (hp : s.seq.phase = .decFill) :
    DecoderMove (fillAnswered x) s t := by
  obtain ⟨c, rfl, hc, rfl⟩ | ⟨c, v, rfl, hc, h⟩ | ⟨rfl, h⟩ | ⟨rfl, rfl⟩ := fillAnswered_next h
  · have hnext : DecoderMove .next (s.observe (.sourceRead (.chr c))) (s.observe (.sourceRead (.chr c))) :=
      .of_nothing_observed rfl (.inr hp) fun _ => rfl
    exact hnext.after_read fun io => by simp only [fillAnswered, State.observe_dec, hc]
  · exact (fillSlot_move h hp).after_read fun io => by simp only [fillAnswered, State.observe_dec, hc]
  · exact (fillEnd_move h).after_read fun io => rfl
  · have hfail : DecoderMove (fun u => .next (u.fail .decoder (.ioerr .source))) (s.observe (.sourceRead .err))
        ((s.observe (.sourceRead .err)).fail .decoder (.ioerr .source)) := ⟨rfl, .inl rfl, _, fun _ => rfl⟩
    exact hfail.after_read fun io => rfl

end

/-! ### Channels that differ in foreign characters only -/

/-- The channels of two decoders that have given the same responses and have the same to do, but for foreign characters. -/
structure SameButForeign (a : Asel) (io io' : Channels) : Prop where
  commands : io'.commands = io.commands
  schedule : io'.schedule = io.schedule
  sourceRepeat : io'.sourceRepeat = io.sourceRepeat
  responses : io'.trace.filterMap Event.response? = io.trace.filterMap Event.response?
  source : io'.sourceAnswers.filter (·.counts a) = io.sourceAnswers.filter (·.counts a)

section
variable {a : Asel} {s t : State} {io' : Channels}

/-- A decoder with no other command before it than DEC_NEXTs, at rest or in a fill. -/
structure Reader (a : Asel) (s : State) : Prop where
  asel : s.dec.asel = a
  phase : s.seq.phase = .idle ∨ s.seq.phase = .decFill
  schedule : s.io.schedule = []
  commands : ∃ m, s.io.commands = List.replicate m (encode .decNext)

/-- A move of a reader keeps it one, and another reader that differs in foreign characters follows it. -/
theorem DecoderMove.follow {f : State → Outcome} (h : DecoderMove f s t) (hf : f s = .next t) (ha : s.dec.asel = a)
    (hsch : s.io.schedule = []) (hc : ∃ m, s.io.commands = List.replicate m (encode .decNext))
    (hs : SameButForeign a s.io io') :
    Reader a t ∧ ∃ io'', f { s with io := io' } = .next { t with io := io'' } ∧ SameButForeign a t.io io'' := by
  obtain ⟨hasel, hphase, es, hio⟩ := h
  have ht : t = { t with io := { s.io with trace := s.io.trace ++ es } } :=
    Host.Outcome.next.inj (hf.symm.trans (hio s.io))
  have hts : t.io = { s.io with trace := s.io.trace ++ es } := congrArg State.io ht
  refine ⟨⟨hasel.trans ha, hphase, by rwa [hts], by rwa [hts]⟩, _, hio io', ?_⟩
  rw [hts]
  exact ⟨hs.commands, hs.schedule, hs.sourceRepeat, by simp [hs.responses], hs.source⟩

/-- A step of a reader from which the other one goes on in some number of steps. -/
def Follows (a : Asel) (s t : State) (io' : Channels) : Prop :=
  Reader a t ∧ ∃ j io'', runSteps j { s with io := io' } = .next { t with io := io'' } ∧ SameButForeign a t.io io''

/-- The issue of a DEC_NEXT. -/
theorem Reader.step_idle (hr : Reader a s) (hp : s.seq.phase = .idle) (h : step s = .next t)
    (hs : SameButForeign a s.io io') : Follows a s t io' := by
  obtain ⟨m, hc⟩ := hr.commands
  cases m with
  | zero => exact nomatch (step_of_no_command hp (move_of_schedule_nil hr.schedule) hc).symm.trans h
  | succ m =>
    have hq : Quiet s := ⟨hp, hr.schedule⟩
    have hq' : Quiet { s with io := io' } := ⟨hp, hs.schedule.trans hr.schedule⟩
    have hexec := (hq.step_command hc).symm.trans h
    have hs' : SameButForeign a { s.io with commands := List.replicate m (encode .decNext) }
        { io' with commands := List.replicate m (encode .decNext) } :=
      ⟨rfl, hs.schedule, hs.sourceRepeat, hs.responses, hs.source⟩
    obtain ⟨ht, io'', hstep, hsame⟩ := (execDecNext_move hexec hp).follow hexec hr.asel hr.schedule ⟨m, rfl⟩ hs'
    exact ⟨ht, 1, io'', runSteps_one ((hq'.step_command (hs.commands.trans hc)).trans hstep), hsame⟩

/-- A foreign character that only the first reader has to skip. -/
theorem Reader.step_not_counting {x : SourceAnswer} {rest : List SourceAnswer} (hr : Reader a s) (hp : s.seq.phase = .decFill)
    (h : step s = .next t) (hs : SameButForeign a s.io io') (hsrc : s.io.sourceAnswers = x :: rest) (hx : x.counts a = false) :
    Follows a s t io' := by
  obtain rfl := Host.Outcome.next.inj
    ((step_fill_not_counting hp hr.schedule (State.nextSource_of_cons hsrc) (hr.asel ▸ hx)).symm.trans h)
  refine ⟨⟨hr.asel, hr.phase, State.sourceAnswered_schedule hr.schedule, hr.commands⟩, 0, io', rfl, ?_⟩
  refine ⟨hs.commands, ?_, hs.sourceRepeat, hs.responses.trans State.sourceAnswered_responses.symm, ?_⟩
  · rw [State.sourceAnswered_schedule hr.schedule, hs.schedule, hr.schedule]
  · rw [hs.source, hsrc, List.filter_cons_of_neg (by simp [hx])]
    rfl

/-- The item that the first reader takes, after the foreign characters before it: from the list, or the first of those that
repeat once the list is used up. -/
theorem SameButForeign.skip {x : SourceAnswer} {rest : List SourceAnswer} (hs : SameButForeign a s.io io')
    (hn : s.nextSource = some (x, rest)) (hx : s.io.sourceAnswers = [] ∨ x.counts a = true) :
    ∃ xs src rest', io'.sourceAnswers = xs ++ src ∧ (∀ y ∈ xs, y.counts a = false) ∧
      (∀ s' : State, s'.io.sourceAnswers = src → s'.io.sourceRepeat = s.io.sourceRepeat → s'.nextSource = some (x, rest')) ∧
      rest'.filter (·.counts a) = rest.filter (·.counts a) := by
  have hsource := hs.source
  cases hsrc : s.io.sourceAnswers with
  | nil =>
    rw [hsrc, List.filter_nil, List.filter_eq_nil_iff] at hsource
    refine ⟨io'.sourceAnswers, [], rest, (List.append_nil _).symm, by simpa using hsource, fun s' hs' hr' => ?_, rfl⟩
    rw [← hn, State.nextSource, State.nextSource, hs', hsrc, hr']
  | cons y ys =>
    obtain ⟨rfl, rfl⟩ : y = x ∧ ys = rest := by simpa [State.nextSource, hsrc] using hn
    have hy := hx.resolve_left (by simp [hsrc])
    rw [hsrc, List.filter_cons_of_pos hy, List.filter_eq_cons_iff] at hsource
    obtain ⟨xs, rest', hio, hxs, -, hrest⟩ := hsource
    exact ⟨xs, y :: rest', rest', hio, by simpa using hxs, fun s' hs' _ => State.nextSource_of_cons hs', hrest⟩

/-- An item that both readers take, the second after its foreign characters before it. -/
theorem Reader.step_taken {x : SourceAnswer} {rest : List SourceAnswer} (hr : Reader a s) (hp : s.seq.phase = .decFill)
    (h : step s = .next t) (hs : SameButForeign a s.io io') (hn : s.nextSource = some (x, rest))
    (hx : s.io.sourceAnswers = [] ∨ x.counts a = true) : Follows a s t io' := by
  obtain ⟨xs, src, rest', hio, hxs, hnext, hrest⟩ := hs.skip hn hx
  have hfill := (step_serve_fill hp (move_of_schedule_nil hr.schedule) hn).symm.trans h
  have hsch : io'.schedule = [] := hs.schedule.trans hr.schedule
  have hskip := runSteps_not_counting (s := { s with io := io' }) hp hsch (hr.asel ▸ hxs) hio
  have htake := step_serve_fill (s := { s with io := { io' with
    sourceAnswers := src, trace := io'.trace ++ xs.map .sourceRead } }) hp (move_of_schedule_nil hsch)
    (hnext _ rfl hs.sourceRepeat)
  have hs' : SameButForeign a { s.io with sourceAnswers := rest, schedule := s.io.schedule.tail }
      { io' with sourceAnswers := rest', schedule := io'.schedule.tail, trace := io'.trace ++ xs.map .sourceRead } := by
    refine ⟨hs.commands, congrArg List.tail hs.schedule, hs.sourceRepeat, ?_, hrest⟩
    have hnone : (xs.map Event.sourceRead).filterMap Event.response? = [] := by simp [Event.response?]
    rw [List.filterMap_append, hnone, List.append_nil, hs.responses]
  obtain ⟨ht, io'', hstep, hsame⟩ := (fillAnswered_move hfill hp).follow hfill hr.asel (by simp [hr.schedule]) hr.commands hs'
  exact ⟨ht, xs.length + 1, io'', (runSteps_add _ 1 hskip).trans (runSteps_one (htake.trans hstep)), hsame⟩

theorem Reader.step (hr : Reader a s) (h : Machine.step s = .next t) (hs : SameButForeign a s.io io') :
    Follows a s t io' := by
  obtain hp | hp := hr.phase
  · exact hr.step_idle hp h hs
  · cases hsrc : s.io.sourceAnswers with
    | cons x rest =>
      have hn := State.nextSource_of_cons hsrc
      cases hx : x.counts a with
      | true => exact hr.step_taken hp h hs hn (.inr hx)
      | false => exact hr.step_not_counting hp h hs hsrc hx
    | nil =>
      cases hn : s.nextSource with
      | none => exact nomatch (step_of_no_source_answer hp (move_of_schedule_nil hr.schedule) hn).symm.trans h
      | some p => exact hr.step_taken hp h hs hn (.inl hsrc)

/-- A whole run of a reader. -/
theorem Reader.run {k : Nat} (hr : Reader a s) (h : runSteps k s = .next t) (hs : SameButForeign a s.io io') :
    Follows a s t io' := by
  induction k generalizing s io' with
  | zero =>
    obtain rfl := Host.Outcome.next.inj h
    exact ⟨hr, 0, io', rfl, hs⟩
  | succ k ih =>
    obtain ⟨u, hstep, hrest⟩ := runSteps_succ_next h
    obtain ⟨hu, j, io₁, hj, hs₁⟩ := hr.step hstep hs
    obtain ⟨ht, j', io₂, hj', hs₂⟩ := ih hu hrest hs₁
    exact ⟨ht, j + j', io₂, (runSteps_add j j' hj).trans hj', hs₂⟩

end

/-- Settles O46: the second run follows the first step by step (`Reader.run`). -/
theorem foreignOctetsDoNotMatter : Obligations.ForeignOctetsDoNotMatter := by
  unfold Obligations.ForeignOctetsDoNotMatter
  intro s t src m k hq hc hsrc hrun hp hcmd
  have hr : Reader s.dec.asel s := ⟨rfl, .inl hq.1, hq.2, m, hc⟩
  have hs : SameButForeign s.dec.asel s.io { s.io with sourceAnswers := src } := ⟨rfl, rfl, rfl, rfl, hsrc⟩
  obtain ⟨-, k', io', hrun', hsame⟩ := hr.run hrun hs
  exact ⟨k', _, hrun', rfl, hsame.commands.trans hcmd, rfl, rfl, hsame.responses, hsame.source⟩

end Sys2Proof.Machine
end
